-- ==== Sys2Proof/Word.lean ====
section
/-! DEFINITION. Words, bytes and the readings of a word (spec 00_scope.md R6, R7). -/

namespace Sys2Proof

/-- A word: a 16-bit pattern (R6, R11). -/
abbrev Word := BitVec 16

/-- A byte of a packed string or of a host stream. -/
abbrev Byte := BitVec 8

/-- `u16(v)`: the pattern read as 0 to 65535 (R6). -/
abbrev u16 (v : Word) : Nat := v.toNat

/-- `s16(v)`: the pattern read in two's complement (R6). -/
abbrev s16 (v : Word) : Int := v.toInt

/-- `w16(n)`: the integer `n` reduced modulo 2^16 to a pattern (R6). -/
def w16 (n : Int) : Word := BitVec.ofInt 16 n

end Sys2Proof
end

