-- ==== Sys2Proof/Machine/Flags.lean ====
section
/-! DEFINITION. The machine has no status flags (10_state.md R31): conditions are values of `A`. Here are the two places
where a condition is computed: the relational builtins' result and the test of the conditional jumps. -/

namespace Sys2Proof.Machine

/-- TRUE is all ones and FALSE is zero, never 1 (42_builtins_alu.md R181). -/
def truthWord (b : Bool) : Word := if b then 0xFFFF#16 else 0x0000#16

/-- The test of JumpTrue: any word but zero counts as true (41_cycle_primary.md R145). -/
def isTrue (w : Word) : Bool := w != 0#16

/-- The test of JumpFalse: only the pattern 0x0000 counts as false (41_cycle_primary.md R146). -/
def isFalse (w : Word) : Bool := w == 0#16

end Sys2Proof.Machine
end

