-- ==== Sys2Proof/Syntax.lean ====
section
/-! DEFINITION. The instructions: one constructor per row of spec/opcode_table.json (30_encoding.md R70 to R77). -/

namespace Sys2Proof

/-- The literal of an instruction: inline in bits 8:0, or the whole following word (30_encoding.md R71). -/
inductive Literal where
  | short (lit9 : BitVec 9)
  | long (word : Word)
  deriving DecidableEq, Repr

/-- The operand fields common to every instruction word (30_encoding.md R70): the I, P and G flags and the literal,
whose form is the D-bit. -/
structure Operand where
  indirect : Bool
  frame : Bool
  global : Bool
  literal : Literal
  deriving DecidableEq, Repr

/-- The short operand with no flags that canonically selects builtin `id` (30_encoding.md R76). -/
def Operand.builtin (id : Nat) : Operand :=
  { indirect := false, frame := false, global := false, literal := .short (BitVec.ofNat 9 id) }

/-- The builtin id an Execute with this operand names canonically: no flags, short form (30_encoding.md R76). -/
def Operand.canonicalId? (op : Operand) : Option Nat :=
  match op.indirect, op.frame, op.global, op.literal with
  | false, false, false, .short n => some n.toNat
  | _, _, _, _ => none

/-- One constructor per row of the opcode table. The rows X1 to X38 are the canonical one-word Executes 0xE001 to
0xE026; `execute` is the row X: every other Execute word, whose builtin is known only when its operand is decoded
(30_encoding.md R76, R77; log entry 12). -/
inductive Instr where
  /-- `L` Load (41_cycle_primary.md R141). -/
  | load (op : Operand)
  /-- `S` Store (R142). -/
  | store (op : Operand)
  /-- `A` Add (R143). -/
  | add (op : Operand)
  /-- `J` Jump (R144). -/
  | jump (op : Operand)
  /-- `T` JumpTrue (R145). -/
  | jumpTrue (op : Operand)
  /-- `F` JumpFalse (R146). -/
  | jumpFalse (op : Operand)
  /-- `K` Call (R147). -/
  | call (op : Operand)
  /-- `X` Execute (R148). -/
  | execute (op : Operand)
  /-- LOADIND (42_builtins_alu.md R172). -/
  | x1
  /-- NEG (R173). -/
  | x2
  /-- NOT (R174). -/
  | x3
  /-- RTN (43_builtins_control.md R200). -/
  | x4
  /-- MUL (R175). -/
  | x5
  /-- DIV (R176). -/
  | x6
  /-- REM (R178). -/
  | x7
  /-- ADD (R179). -/
  | x8
  /-- SUB (R180). -/
  | x9
  /-- EQ (R182). -/
  | x10
  /-- NE (R183). -/
  | x11
  /-- LT (R184). -/
  | x12
  /-- GE (R185). -/
  | x13
  /-- GT (R186). -/
  | x14
  /-- LE (R187). -/
  | x15
  /-- LSH (R189). -/
  | x16
  /-- RSH (R190). -/
  | x17
  /-- AND (R191). -/
  | x18
  /-- OR (R192). -/
  | x19
  /-- XOR (R193). -/
  | x20
  /-- EQV (R194). -/
  | x21
  /-- FINISH (43_builtins_control.md R201). -/
  | x22
  /-- SWITCHON (R202). -/
  | x23
  /-- SELECTINPUT (44_builtins_io.md R233). -/
  | x24
  /-- SELECTOUTPUT (R234). -/
  | x25
  /-- RDCH (R237). -/
  | x26
  /-- WRCH (R238). -/
  | x27
  /-- FINDINPUT (R241). -/
  | x28
  /-- FINDOUTPUT (R242). -/
  | x29
  /-- STOP (43_builtins_control.md R203). -/
  | x30
  /-- LEVEL (R204). -/
  | x31
  /-- LONGJUMP (R205). -/
  | x32
  /-- ENDREAD (44_builtins_io.md R244). -/
  | x33
  /-- ENDWRITE (R245). -/
  | x34
  /-- APTOVEC (43_builtins_control.md R206). -/
  | x35
  /-- GETBYTE (44_builtins_io.md R247). -/
  | x36
  /-- PUTBYTE (R248). -/
  | x37
  /-- PANIC (43_builtins_control.md R207). -/
  | x38
  deriving DecidableEq, Repr

end Sys2Proof
end

