-- ==== Sys2Proof/WellFormed.lean ====
section
/-! DEFINITION. Which instruction terms stand for a word of their own (30_encoding.md R76 to R78). -/

namespace Sys2Proof

/-- An operand that names none of the builtins 1 to 38 canonically. -/
def Operand.notBuiltinWord (op : Operand) : Bool :=
  match op.canonicalId? with
  | some id => id == 0 || 38 < id
  | none => true

/-- Every operand field is legal with every opcode (R75), so the one check is on `execute`: an Execute word that is the
canonical word of a builtin is that builtin's row, not the row X (log entry 12). -/
def Instr.wf : Instr → Bool
  | .execute op => op.notBuiltinWord
  | _ => true

end Sys2Proof
end

