-- ==== Sys2Proof/Decode.lean ====
section
/-! DEFINITION. Decoding words to instructions, total on any words (30_encoding.md R70 to R78), and the encoder back. -/

namespace Sys2Proof

/-- Bits 15:13 (30_encoding.md R70). -/
def opField (w : Word) : Nat := (w.extractLsb' 13 3).toNat

/-- Bit 9: the instruction is two words long (R71). -/
def isLong (w : Word) : Bool := w.getLsbD 9

/-- The operand fields of instruction word `w`, with `lit` the word after it, used in the long form only (R70, R71). In
the long form bits 8:0 of `w` are ignored. -/
def operandOf (w lit : Word) : Operand :=
  { indirect := w.getLsbD 12
    frame := w.getLsbD 11
    global := w.getLsbD 10
    literal := if isLong w then .long lit else .short (w.extractLsb' 0 9) }

/-- The builtin rows by id (R77). -/
def builtinOfId : Nat → Option Instr
  | 1 => some .x1
  | 2 => some .x2
  | 3 => some .x3
  | 4 => some .x4
  | 5 => some .x5
  | 6 => some .x6
  | 7 => some .x7
  | 8 => some .x8
  | 9 => some .x9
  | 10 => some .x10
  | 11 => some .x11
  | 12 => some .x12
  | 13 => some .x13
  | 14 => some .x14
  | 15 => some .x15
  | 16 => some .x16
  | 17 => some .x17
  | 18 => some .x18
  | 19 => some .x19
  | 20 => some .x20
  | 21 => some .x21
  | 22 => some .x22
  | 23 => some .x23
  | 24 => some .x24
  | 25 => some .x25
  | 26 => some .x26
  | 27 => some .x27
  | 28 => some .x28
  | 29 => some .x29
  | 30 => some .x30
  | 31 => some .x31
  | 32 => some .x32
  | 33 => some .x33
  | 34 => some .x34
  | 35 => some .x35
  | 36 => some .x36
  | 37 => some .x37
  | 38 => some .x38
  | _ => none

/-- An Execute word: the canonical words of the builtins are their own rows, every other one is the row X (R76, R77). -/
def executeOf (op : Operand) : Instr :=
  ((op.canonicalId?).bind builtinOfId).getD (.execute op)

/-- The instruction of word `w`, with `lit` the word after it (R72, R77). Total: no word is refused (R78). -/
def decodeWord (w lit : Word) : Instr :=
  match opField w with
  | 0 => .load (operandOf w lit)
  | 1 => .store (operandOf w lit)
  | 2 => .add (operandOf w lit)
  | 3 => .jump (operandOf w lit)
  | 4 => .jumpTrue (operandOf w lit)
  | 5 => .jumpFalse (operandOf w lit)
  | 6 => .call (operandOf w lit)
  | _ => executeOf (operandOf w lit)

/-- Why a list of words holds no instruction: it is too short. No word is illegal (R78). -/
inductive DecodeError where
  /-- There is no word at all. -/
  | noInstructionWord
  /-- The D-bit is set and no literal word follows. -/
  | noLiteralWord
  deriving DecidableEq, Repr

/-- The first instruction of a list of words, and the words after it (R71). -/
def decode : List Word → Except DecodeError (Instr × List Word)
  | [] => .error .noInstructionWord
  | w :: ws =>
    if isLong w then
      match ws with
      | [] => .error .noLiteralWord
      | lit :: rest => .ok (decodeWord w lit, rest)
    else .ok (decodeWord w 0, ws)

/-- The number of words of an instruction with this operand (R71). -/
def Operand.length (op : Operand) : Nat :=
  match op.literal with
  | .short _ => 1
  | .long _ => 2

/-- A flag bit of the instruction word: `mask` if set (R70). -/
def flagBit (set : Bool) (mask : Word) : Word := if set then mask else 0

/-- The words of opcode `op` with operand `o` (R70, R71); bits 8:0 of a long form are written 0. -/
def encodeOperand (op : Nat) (o : Operand) : List Word :=
  let header : Word :=
    BitVec.ofNat 16 (op * 8192) ||| flagBit o.indirect 0x1000#16 ||| flagBit o.frame 0x0800#16 ||| flagBit o.global 0x0400#16
  match o.literal with
  | .short n => [header ||| n.setWidth 16]
  | .long w => [header ||| 0x0200#16, w]

/-- The builtin id of the rows X1 to X38 (R77). -/
def Instr.builtinId? : Instr → Option Nat
  | .load _ => none
  | .store _ => none
  | .add _ => none
  | .jump _ => none
  | .jumpTrue _ => none
  | .jumpFalse _ => none
  | .call _ => none
  | .execute _ => none
  | .x1 => some 1
  | .x2 => some 2
  | .x3 => some 3
  | .x4 => some 4
  | .x5 => some 5
  | .x6 => some 6
  | .x7 => some 7
  | .x8 => some 8
  | .x9 => some 9
  | .x10 => some 10
  | .x11 => some 11
  | .x12 => some 12
  | .x13 => some 13
  | .x14 => some 14
  | .x15 => some 15
  | .x16 => some 16
  | .x17 => some 17
  | .x18 => some 18
  | .x19 => some 19
  | .x20 => some 20
  | .x21 => some 21
  | .x22 => some 22
  | .x23 => some 23
  | .x24 => some 24
  | .x25 => some 25
  | .x26 => some 26
  | .x27 => some 27
  | .x28 => some 28
  | .x29 => some 29
  | .x30 => some 30
  | .x31 => some 31
  | .x32 => some 32
  | .x33 => some 33
  | .x34 => some 34
  | .x35 => some 35
  | .x36 => some 36
  | .x37 => some 37
  | .x38 => some 38

/-- The opcode field (R72). -/
def Instr.opcode : Instr → Nat
  | .load _ => 0
  | .store _ => 1
  | .add _ => 2
  | .jump _ => 3
  | .jumpTrue _ => 4
  | .jumpFalse _ => 5
  | .call _ => 6
  | _ => 7

/-- The operand of an instruction; a builtin row's is its canonical one (R76). -/
def Instr.operand : Instr → Operand
  | .load op => op
  | .store op => op
  | .add op => op
  | .jump op => op
  | .jumpTrue op => op
  | .jumpFalse op => op
  | .call op => op
  | .execute op => op
  | i => Operand.builtin (i.builtinId?.getD 0)

/-- The number of words of an instruction (R71). -/
def Instr.length (i : Instr) : Nat := i.operand.length

/-- The words of an instruction (R70 to R72, R77). -/
def encode (i : Instr) : List Word := encodeOperand i.opcode i.operand

/-- The instruction the decoder reads from the bits `w`, of which the table gives `nbits`: bit 0 is bit 0 of the first
word, bits 31:16 are the second word, and every bit from `nbits` up is 0. -/
def decodeTableWord (nbits w : Nat) : Option Instr :=
  let bits := w % 2 ^ nbits
  match decode [BitVec.ofNat 16 bits, BitVec.ofNat 16 (bits / 65536)] with
  | .ok (i, _) => some i
  | .error _ => none

end Sys2Proof
end

