-- ==== Sys2Proof/Config.lean ====
section
/-! DEFINITION. The implementation parameters of spec 00_scope.md R5 and the free values of the host oracle
(44_builtins_io.md R230). -/

namespace Sys2Proof

/-- The kind of right shift, the parameter SHR_KIND (00_scope.md R5, 42_builtins_alu.md R190). -/
inductive ShrKind where
  | logical
  | arithmetic
  deriving DecidableEq, Repr

namespace Config

/-- STORE_WORDS: valid addresses are 0 to 32766 (R5). -/
def storeWords : Nat := 32767

/-- CODE_ORIGIN (R5). -/
def codeOrigin : Nat := 512

/-- GLOBAL_SLOTS (R5). -/
def globalSlots : Nat := 512

/-- LABELS: label ids are 0 to 511 (R5). -/
def labels : Nat := 512

/-- MAX_SLOT: the largest slot number an open may allocate (R5). -/
def maxSlot : Nat := 32767

/-- The answer of the n-th unscripted HostRead: a byte, or none for EOF. A free value: the spec calls it a draw of the
oracle under no law (R230). That an unscripted read returns at all is the model's choice (log entry 5). -/
opaque readDraw : Nat → Option Byte

/-- Whether the n-th unscripted HostOpen succeeds. A free value (R230). That an unscripted open returns at all is the
model's choice (log entry 5). -/
opaque openDraw : Nat → Bool

end Config

end Sys2Proof
end

