-- ==== Sys2Proof/Machine/State.lean ====
section
/-! DEFINITION. The machine's state, its faults and refusals, and the state after reset (10_state.md R20 to R33). -/

namespace Sys2Proof.Machine

/-- The content of a register that may still be UNWRITTEN (10_state.md R22). UNWRITTEN is the spec's own marker: the
value R33 gives `A`, `B` and `D` at reset, and what X23 leaves in `B` (log entry 1). -/
inductive Reg where
  | unwritten
  | word (w : Word)
  deriving DecidableEq, Repr

/-- The registers an UnwrittenRegister fault can name (60_exceptions.md R261). -/
inductive AccName where
  | A
  | B
  deriving DecidableEq, Repr

/-- The direction of an open (44_builtins_io.md R230, R232). -/
inductive Dir where
  | input
  | output
  deriving DecidableEq, Repr

/-- The pre-bound standard streams (10_state.md R28). -/
inductive StdStream where
  | stdin
  | stdout
  | stderr
  deriving DecidableEq, Repr

/-- A host handle: a standard stream, or the n-th stream the host opened (44_builtins_io.md R230; log entry 6). -/
inductive Handle where
  | std (k : StdStream)
  | file (n : Nat)
  deriving DecidableEq, Repr

/-- The state of one slot of the file table (10_state.md R28). `opened n dir` is `Open(h, dir)` for the handle
`h = .file n`. -/
inductive Slot where
  | free
  | sentinel
  | std (k : StdStream)
  | opened (n : Nat) (dir : Dir)
  deriving DecidableEq, Repr

/-- What the host answers a HostRead (R230): `never` is a call that does not return (60_exceptions.md R272). -/
inductive ReadAnswer where
  | byte (b : Byte)
  | eof
  | never
  deriving DecidableEq, Repr

/-- What the host answers a HostWrite: it returns, or never does (R230, R272). -/
inductive WriteAnswer where
  | done
  | never
  deriving DecidableEq, Repr

/-- What the host answers a HostOpen (R230, R272); the handle of a successful open is the model's (log entry 6). -/
inductive OpenAnswer where
  | ok
  | fail
  | never
  deriving DecidableEq, Repr

/-- One host interaction that was made and answered (R230). A read's result is a byte, or none for EOF; an open's is the
fresh handle, or none for Fail. -/
inductive HostCall where
  | read (h : Handle) (result : Option Byte)
  | write (h : Handle) (b : Byte)
  | openFile (name : List Byte) (dir : Dir) (result : Option Handle)
  | close (h : Handle)
  deriving DecidableEq, Repr

/-- The non-fatal diagnostics of the assembler (40_encoder.md R119); their text is not specified. -/
inductive Diagnostic where
  | badChar
  | badCode
  | duplicateLabel (n : Nat)
  | unset (n : Nat)
  deriving DecidableEq, Repr

/-- The host interface as data, the model's own fields (log entries 5, 6, 7): the answers the oracle will give, oldest
first, the counter of its unscripted draws, the number of the next fresh handle, the calls made so far, oldest first, and
what the host diagnostic stream has received, oldest first: the assembler's diagnostics, which no instruction adds to
(R230, 40_encoder.md R119). -/
structure HostSide where
  reads : List ReadAnswer := []
  writes : List WriteAnswer := []
  opens : List OpenAnswer := []
  draws : Nat := 0
  nextHandle : Nat := 0
  calls : List HostCall := []
  diagnostics : List Diagnostic := []
  deriving DecidableEq, Repr

/-- One listed word of the store: its address and its content. -/
abbrev Cell := Nat × Word

/-- The store (10_state.md R29): the words that differ from what reset leaves, by rising address (log entry 2). -/
abbrev Memory := List Cell

/-- Why a step stops with a fault. The first seven are the run-time faults of 60_exceptions.md R261: the run is over, and
nothing after the faulting instruction executes (R262). -/
inductive Fault where
  /-- A store read or write above 32766 (20_memory.md R52). Raised by the fetch, the literal fetch, I-flag indirection,
  `S`, `K`, X1, X4, X23, X28, X29, X31, X35 to X38. Safe: the spec's own fault. -/
  | storeOutOfRange (addr : Nat)
  /-- A use of `A` or `B` while it is UNWRITTEN (10_state.md R22; R261 code 2). Raised by every instruction that uses `A` or
  `B`. Safe: the spec's own fault, on a marker that is the spec's own reset value (R33). -/
  | unwrittenRegister (reg : AccName)
  /-- Execute with an operand other than 1 to 38 (41_cycle_primary.md R148). Raised by `X`. Safe: the spec's own fault. -/
  | illegalBuiltin (id : Nat) (ia : Word)
  /-- A divisor of 0 (42_builtins_alu.md R176, R178). Raised by X6, X7. Safe: the spec's own fault. -/
  | divideByZero (ia : Word)
  /-- A shift count outside 0 to 15 (42_builtins_alu.md R188). Raised by X16, X17. Safe: the spec's own fault. -/
  | shiftOutOfRange (n : Int) (ia : Word)
  /-- A slot that is no stream of the needed direction (44_builtins_io.md R236). Raised by X26, X27, X33, X34. Safe: the
  spec's own fault. -/
  | noStream (slot : Nat)
  /-- An open that needs a slot above MAX_SLOT (44_builtins_io.md R240). Raised by X28, X29. Safe: the spec's own
  fault. -/
  | slotOverflow (slot : Nat)
  /-- The machine is stuck in a host call that never answers (60_exceptions.md R272). Raised by X26 to X29. Safe: no step
  of the machine is claimed (log entry 9). -/
  | stuckInHostCall
  deriving DecidableEq, Repr

/-- The fault codes of 60_exceptions.md R261; being stuck is no fault of the spec and has none. -/
def Fault.code? : Fault → Option Nat
  | .storeOutOfRange _ => some 1
  | .unwrittenRegister _ => some 2
  | .illegalBuiltin _ _ => some 3
  | .divideByZero _ => some 4
  | .shiftOutOfRange _ _ => some 5
  | .noStream _ => some 6
  | .slotOverflow _ => some 7
  | .stuckInHostCall => none

/-- Why assembly fails (60_exceptions.md R266, 40_encoder.md R120). -/
inductive AsmFailure where
  /-- The image passes word 32766, or a `G` slot or a chain link is out of range. -/
  | storeOutOfRange (addr : Nat)
  /-- A label id outside 0 to 511. -/
  | labelOutOfRange (n : Int)
  /-- A chain walk of more than 32767 steps. -/
  | chainLoop (n : Int)
  deriving DecidableEq, Repr

/-- The failure codes of 60_exceptions.md R266. -/
def AsmFailure.code : AsmFailure → Nat
  | .storeOutOfRange _ => 16
  | .labelOutOfRange _ => 17
  | .chainLoop _ => 18

/-- Why the model gives no meaning. -/
inductive Refusal where
  /-- The instruction has no meaning in this model. Raised by `exec`'s refused arms; there are none. Safe. -/
  | notModelled (mnemonic : String)
  /-- AssemblyFailed: the launch ends and the interpreter never runs; the diagnostics already sent stay sent, oldest first
  (60_exceptions.md R266, R272). Raised by a launch. Safe: the spec's own outcome. -/
  | assemblyFailed (reason : AsmFailure) (sent : List Diagnostic)
  deriving DecidableEq, Repr

/-- The run status (10_state.md R30). A step that faults answers the outcome `fault` and gives no state, so no step leaves
`faulted` behind; it is here because R30 names it (log entry 11). -/
inductive RunStatus where
  | running
  | halted (code : Int)
  | panicked (message : List Byte) (caller : Word)
  | faulted (reason : Fault)
  deriving DecidableEq, Repr

/-- The machine's state (10_state.md R20 to R30), with the launch parameter SHR_KIND and the host interface as data. -/
structure State where
  /-- the primary accumulator -/
  a : Reg
  /-- the secondary accumulator -/
  b : Reg
  /-- the program counter -/
  c : Word
  /-- the operand the last decode left -/
  d : Reg
  /-- the frame base -/
  p : Word
  /-- the global base -/
  g : Word
  selectedInput : Word
  selectedOutput : Word
  table : List Slot
  mem : Memory
  status : RunStatus
  /-- the launch parameter SHR_KIND (00_scope.md R5); no instruction writes it -/
  shrKind : ShrKind
  host : HostSide
  deriving DecidableEq, Repr

/-- The file table at reset (10_state.md R28, R33). -/
def resetTable : List Slot := [.sentinel, .std .stdin, .std .stdout, .std .stderr]

/-- The machine right after reset (10_state.md R33, 70_reset_and_hazards.md R280), launched from the empty text with the
default parameters of 00_scope.md R5: `P_END` is 529 (40_encoder.md R125; log entry 4). -/
def State.reset : State :=
  { a := .unwritten
    b := .unwritten
    c := 512#16
    d := .unwritten
    p := 529#16
    g := 0#16
    selectedInput := 1#16
    selectedOutput := 2#16
    table := resetTable
    mem := []
    status := .running
    shrKind := .logical
    host := {} }

end Sys2Proof.Machine
end

