-- ==== Sys2Proof/Machine/Ops.lean ====
section
/-! DEFINITION. The named operations over the store, its byte strings and the registers, and how a run ends
(20_memory.md R50 to R56, 10_state.md R22, 40_encoder.md R125, 60_exceptions.md R260). -/

namespace Sys2Proof.Machine

/-- What an operation answers: a value, or the fault it raises (00_scope.md R8 `raise`). -/
abbrev Run (α : Type) := Except Fault α

/-- The outcome of an instruction. A fault ends the run and carries no state (60_exceptions.md R262). -/
def finish : Run State → Host.Outcome State Fault Refusal
  | .ok s => .next s
  | .error f => .fault f

/-! ### The store -/

/-- The bootstrap, words 512 to 528 (40_encoder.md R125). -/
def bootstrapImage : List Word :=
  [0x1401#16, 0xC002#16, 0xE016#16, 0x0200#16, 0x0206#16, 0xE026#16, 0x1455#16, 0x6E73#16, 0x6574#16] ++
  [0x2067#16, 0x6C6F#16, 0x6261#16, 0x6C20#16, 0x6361#16, 0x6C6C#16, 0x6564#16, 0x2100#16]

/-- The address of the bootstrap's panic handler (40_encoder.md R125, R126). -/
def panicHandler : Word := 515#16

/-- What an unlisted word reads as: what reset leaves there (10_state.md R33). Words 0 to 511 hold the panic handler's
address and words 512 to 528 the bootstrap; every other word is the launch draw, here 0 (DESIGN CHOICE, log entry 3). -/
def resetWord (a : Nat) : Word :=
  if a < Config.globalSlots then panicHandler else bootstrapImage.getD (a - Config.codeOrigin) 0#16

/-- The word at address `a`. -/
def Memory.read : Memory → Nat → Word
  | [], a => resetWord a
  | (b, v) :: m, a => if a = b then v else Memory.read m a

/-- The store after word `a` becomes `w`, in canonical form: a word that is what reset leaves is not listed. -/
def Memory.write : Memory → Nat → Word → Memory
  | [], a, w => if w = resetWord a then [] else [(a, w)]
  | (b, v) :: m, a, w =>
    if a < b then (if w = resetWord a then (b, v) :: m else (a, w) :: (b, v) :: m)
    else if a = b then (if w = resetWord a then m else (a, w) :: m)
    else (b, v) :: Memory.write m a w

/-- Every listed address is above `lo` (when given) and the addresses rise. -/
def Memory.rising : Option Nat → Memory → Bool
  | _, [] => true
  | none, (a, _) :: m => Memory.rising (some a) m
  | some lo, (a, _) :: m => decide (lo < a) && Memory.rising (some a) m

/-- The canonical form: addresses strictly rising and inside the store, and no entry equal to what an unlisted address
reads as. -/
def Memory.wf (m : Memory) : Bool :=
  Memory.rising none m && m.all fun cell => decide (cell.1 < Config.storeWords) && decide (cell.2 ≠ resetWord cell.1)

/-- `MemRead(addr, 1)` (00_scope.md R8), with the range check of 20_memory.md R52. -/
def State.load (s : State) (addr : Nat) : Run Word :=
  if addr < Config.storeWords then .ok (s.mem.read addr) else .error (.storeOutOfRange addr)

/-- `MemWrite(addr, 1, w)` (00_scope.md R8), with the range check of 20_memory.md R52. -/
def State.store (s : State) (addr : Nat) (w : Word) : Run State :=
  if addr < Config.storeWords then .ok { s with mem := s.mem.write addr w } else .error (.storeOutOfRange addr)

/-! ### Bytes within words -/

/-- The high byte, byte index 0 of a word (20_memory.md R54). -/
def hiByte (w : Word) : Byte := w.extractLsb' 8 8

/-- The low byte, byte index 1 of a word (20_memory.md R54). -/
def loByte (w : Word) : Byte := w.extractLsb' 0 8

/-- The word `{hi, lo}` (00_scope.md R6). -/
def joinBytes (hi lo : Byte) : Word := hi ++ lo

/-- A byte widened with zeros (00_scope.md R6 `zext_16`). -/
def zextByte (b : Byte) : Word := b.setWidth 16

/-- The word address of byte `i` of the string at `base`, with no wraparound (20_memory.md R55). -/
def byteWordAddr (base : Word) (i : Nat) : Nat := u16 base + i / 2

/-- `GetByte(base, i)` (20_memory.md R55). -/
def State.getByte (s : State) (base : Word) (i : Nat) : Run Byte := do
  let w ← s.load (byteWordAddr base i)
  pure (if i % 2 = 0 then hiByte w else loByte w)

/-- `PutByte(base, i, v)` (20_memory.md R55). -/
def State.putByte (s : State) (base : Word) (i : Nat) (v : Byte) : Run State := do
  let w ← s.load (byteWordAddr base i)
  s.store (byteWordAddr base i) (if i % 2 = 0 then joinBytes v (loByte w) else joinBytes (hiByte w) v)

/-- The `n` bytes of the string at `base` from byte index `i` on. -/
def State.getBytes (s : State) (base : Word) : Nat → Nat → Run (List Byte)
  | _, 0 => pure []
  | i, n + 1 => do
    let b ← s.getByte base i
    let bs ← s.getBytes base (i + 1) n
    pure (b :: bs)

/-- `ReadString(s)`: byte 0 is the length, bytes 1 to n the characters (20_memory.md R56). -/
def State.readString (s : State) (base : Word) : Run (List Byte) := do
  let n ← s.getByte base 0
  s.getBytes base 1 n.toNat

/-! ### Registers -/

/-- `val(r)`: reading a register for use; the marker UNWRITTEN faults (00_scope.md R8, 10_state.md R22, 60_exceptions.md
R261 code 2). -/
def Reg.val (r : Reg) (name : AccName) : Run Word :=
  match r with
  | .word w => .ok w
  | .unwritten => .error (.unwrittenRegister name)

/-- `val(A)`. -/
def State.valA (s : State) : Run Word := s.a.val .A

/-- `val(B)`. -/
def State.valB (s : State) : Run Word := s.b.val .B

/-- `A <- w`. -/
def State.setA (s : State) (w : Word) : State := { s with a := .word w }

/-- `B <- r`: a move, which may carry the UNWRITTEN marker (10_state.md R22). -/
def State.setB (s : State) (r : Reg) : State := { s with b := r }

/-- `C <- w`. -/
def State.setC (s : State) (w : Word) : State := { s with c := w }

/-- `D <- w`. -/
def State.setD (s : State) (w : Word) : State := { s with d := .word w }

/-- `P <- w`. -/
def State.setP (s : State) (w : Word) : State := { s with p := w }

/-- `selected_input <- w` (10_state.md R27). -/
def State.setSelectedInput (s : State) (w : Word) : State := { s with selectedInput := w }

/-- `selected_output <- w` (10_state.md R27). -/
def State.setSelectedOutput (s : State) (w : Word) : State := { s with selectedOutput := w }

/-- The file table replaced. -/
def State.setTable (s : State) (t : List Slot) : State := { s with table := t }

/-- The host interface replaced. -/
def State.setHost (s : State) (h : HostSide) : State := { s with host := h }

/-- `halt`: the run ends in a terminal outcome that is no fault (00_scope.md R8, 60_exceptions.md R260). -/
def State.halt (s : State) (outcome : RunStatus) : State := { s with status := outcome }

end Sys2Proof.Machine
end

