-- ==== Sys2Proof/Machine/Operands.lean ====
section
/-! DEFINITION. Operand decode, the same for every instruction (30_encoding.md R73 to R75), and fetching an instruction
(41_cycle_primary.md R140). -/

namespace Sys2Proof.Machine

/-- The literal as a word: `lit9` is zero-extended, a long literal stands as it is (30_encoding.md R74). -/
def literalWord : Literal → Word
  | .short n => n.setWidth 16
  | .long w => w

/-- The operand before indirection: the literal, plus P if the P-flag is set, plus G if the G-flag is set, wrapping in 16
bits (30_encoding.md R73, 20_memory.md R53). -/
def State.operandAddr (s : State) (op : Operand) : Word :=
  let lit := literalWord op.literal
  let framed := if op.frame then lit + s.p else lit
  if op.global then framed + s.g else framed

/-- The decoded operand: one level of indirection if the I-flag is set (30_encoding.md R73). -/
def State.operandValue (s : State) (op : Operand) : Run Word :=
  if op.indirect then s.load (u16 (s.operandAddr op)) else .ok (s.operandAddr op)

/-- `C` past an instruction of `n` words, wrapping in 16 bits (10_state.md R23). -/
def State.pcAfter (s : State) (n : Nat) : Word := s.c + BitVec.ofNat 16 n

/-- From the state before the instruction: `C` advanced past it and `D` decoded, and `D`'s value (30_encoding.md R73,
41_cycle_primary.md R140). -/
def State.decodeOperand (s : State) (op : Operand) : Run (Word × State) := do
  let d ← s.operandValue op
  pure (d, (s.setC (s.pcAfter op.length)).setD d)

/-- An instruction with operand `op`: decode the operand, then act on `D` and the state the decode left. -/
def withOperand (op : Operand) (s : State) (act : Word → State → Run State) : Host.Outcome State Fault Refusal :=
  finish (do
    let (d, t) ← s.decodeOperand op
    act d t)

/-- The builtin row X`id`: the canonical Execute word, whose operand is `id` itself (30_encoding.md R76). -/
def withBuiltin (id : Nat) (s : State) (act : State → Run State) : Host.Outcome State Fault Refusal :=
  withOperand (Operand.builtin id) s (fun _ t => act t)

/-- Fetching the instruction at `C`: its word, and the literal word after it when the D-bit is set (41_cycle_primary.md
R140, 30_encoding.md R71). -/
def State.fetch (s : State) : Run Instr := do
  let w ← s.load (u16 s.c)
  if isLong w then
    let lit ← s.load (u16 (s.c + 1#16))
    pure (decodeWord w lit)
  else
    pure (decodeWord w 0#16)

/-- The instruction of the table word `bits` placed where the next fetch reads it: its first word at `C`, and its second
after it in the long form. When the instruction would not fit in the store there, `C` moves to the code origin. -/
def State.placeInstr (s : State) (bits : Nat) : State :=
  let w := BitVec.ofNat 16 bits
  let len := if isLong w then 2 else 1
  let c := if u16 s.c + len ≤ Config.storeWords then s.c else BitVec.ofNat 16 Config.codeOrigin
  let m := s.mem.write (u16 c) w
  { s with
    c := c
    mem := if isLong w then m.write (u16 c + 1) (BitVec.ofNat 16 (bits / 65536)) else m
    status := .running }

end Sys2Proof.Machine
end

