-- ==== Sys2Proof/Machine/Alu.lean ====
section
/-! DEFINITION. The 16-bit ALU: builtins X1 to X3 and X5 to X21 (42_builtins_alu.md R170 to R194). Each computes on
exact integers and narrows with `w16`, so it wraps and never traps on overflow (R170). -/

namespace Sys2Proof.Machine

/-! ### What the ALU computes -/

/-- `w16(0 - s16(a))` (R173). -/
def aluNeg (a : Word) : Word := w16 (0 - s16 a)

/-- The low 16 bits of the exact product (R175). -/
def aluMul (b a : Word) : Word := w16 (s16 b * s16 a)

/-- `b / a` truncated toward zero (R177). -/
def quot (b a : Int) : Int := b.tdiv a

/-- `b - a * quot(b, a)` (R177). -/
def rem (b a : Int) : Int := b - a * quot b a

/-- `w16(quot(b, a))` (R176). -/
def aluDiv (b a : Word) : Word := w16 (quot (s16 b) (s16 a))

/-- `w16(rem(b, a))` (R178). -/
def aluRem (b a : Word) : Word := w16 (rem (s16 b) (s16 a))

/-- `w16(s16(b) + s16(a))` (R179). -/
def aluAdd (b a : Word) : Word := w16 (s16 b + s16 a)

/-- `w16(s16(b) - s16(a))` (R180). -/
def aluSub (b a : Word) : Word := w16 (s16 b - s16 a)

/-- `w16(v * 2^n)` (R189). -/
def shiftLeft (v : Word) (n : Nat) : Word := w16 (u16 v * 2 ^ n)

/-- The right shift of the given kind (R190): zeros enter at bit 15, or copies of bit 15 do. -/
def shiftRight (kind : ShrKind) (v : Word) (n : Nat) : Word :=
  match kind with
  | .logical => w16 ((u16 v / 2 ^ n : Nat) : Int)
  | .arithmetic => w16 ((s16 v).fdiv (2 ^ n))

/-! ### How the builtins use the registers -/

/-- A unary builtin: `A <- f(val(A))`. -/
def unary (f : Word → Word) (s : State) : Run State := do
  let a ← s.valA
  pure (s.setA (f a))

/-- A binary builtin: `B` is read first, then `A`; the result replaces `A`, and `B` keeps its value (R171). -/
def binary (f : Word → Word → Word) (s : State) : Run State := do
  let b ← s.valB
  let a ← s.valA
  pure (s.setA (f b a))

/-- A relational builtin: the signed readings of `B` and `A` are compared, `B` on the left (R181). -/
def relational (r : Int → Int → Bool) (s : State) : Run State :=
  binary (fun b a => truthWord (r (s16 b) (s16 a))) s

/-- A dividing builtin: both registers are read, then a divisor of zero faults (R176, R178). `ia` is the address of the
Execute word. -/
def dividing (f : Word → Word → Word) (ia : Word) (s : State) : Run State := do
  let b ← s.valB
  let a ← s.valA
  if a = 0#16 then .error (.divideByZero ia) else pure (s.setA (f b a))

/-- A shifting builtin: both registers are read, then a count outside 0 to 15 faults (R188 to R190). -/
def shifting (f : Word → Nat → Word) (ia : Word) (s : State) : Run State := do
  let v ← s.valB
  let n ← s.valA
  if s16 n < 0 ∨ 15 < s16 n then .error (.shiftOutOfRange (s16 n) ia) else pure (s.setA (f v (s16 n).toNat))

/-! ### The builtins, after fetch and decode -/

/-- X1 LOADIND (R172): `A <- M[val(A)]`. -/
def performLoadind (s : State) : Run State := do
  let a ← s.valA
  let w ← s.load (u16 a)
  pure (s.setA w)

/-- X2 NEG (R173). -/
def performNeg (s : State) : Run State := unary aluNeg s

/-- X3 NOT (R174). -/
def performNot (s : State) : Run State := unary (fun a => ~~~a) s

/-- X5 MUL (R175). -/
def performMul (s : State) : Run State := binary aluMul s

/-- X6 DIV (R176). -/
def performDiv (ia : Word) (s : State) : Run State := dividing aluDiv ia s

/-- X7 REM (R178). -/
def performRem (ia : Word) (s : State) : Run State := dividing aluRem ia s

/-- X8 ADD (R179). -/
def performAdd (s : State) : Run State := binary aluAdd s

/-- X9 SUB (R180). -/
def performSub (s : State) : Run State := binary aluSub s

/-- X10 EQ (R182). -/
def performEq (s : State) : Run State := relational (fun b a => decide (b = a)) s

/-- X11 NE (R183). -/
def performNe (s : State) : Run State := relational (fun b a => decide (b ≠ a)) s

/-- X12 LT (R184). -/
def performLt (s : State) : Run State := relational (fun b a => decide (b < a)) s

/-- X13 GE (R185). -/
def performGe (s : State) : Run State := relational (fun b a => decide (b ≥ a)) s

/-- X14 GT (R186). -/
def performGt (s : State) : Run State := relational (fun b a => decide (b > a)) s

/-- X15 LE (R187). -/
def performLe (s : State) : Run State := relational (fun b a => decide (b ≤ a)) s

/-- X16 LSH (R189). -/
def performLsh (ia : Word) (s : State) : Run State := shifting shiftLeft ia s

/-- X17 RSH (R190), of the kind the launch chose. -/
def performRsh (ia : Word) (s : State) : Run State := shifting (shiftRight s.shrKind) ia s

/-- X18 AND (R191). -/
def performAnd (s : State) : Run State := binary (fun b a => b &&& a) s

/-- X19 OR (R192). -/
def performOr (s : State) : Run State := binary (fun b a => b ||| a) s

/-- X20 XOR (R193). -/
def performXor (s : State) : Run State := binary (fun b a => b ^^^ a) s

/-- X21 EQV (R194). -/
def performEqv (s : State) : Run State := binary (fun b a => (~~~b) ^^^ a) s

/-! ### The rows of the opcode table -/

/-- The row X1. -/
def execX1 (s : State) : Host.Outcome State Fault Refusal := withBuiltin 1 s performLoadind

/-- The row X2. -/
def execX2 (s : State) : Host.Outcome State Fault Refusal := withBuiltin 2 s performNeg

/-- The row X3. -/
def execX3 (s : State) : Host.Outcome State Fault Refusal := withBuiltin 3 s performNot

/-- The row X5. -/
def execX5 (s : State) : Host.Outcome State Fault Refusal := withBuiltin 5 s performMul

/-- The row X6. -/
def execX6 (s : State) : Host.Outcome State Fault Refusal := withBuiltin 6 s (performDiv s.c)

/-- The row X7. -/
def execX7 (s : State) : Host.Outcome State Fault Refusal := withBuiltin 7 s (performRem s.c)

/-- The row X8. -/
def execX8 (s : State) : Host.Outcome State Fault Refusal := withBuiltin 8 s performAdd

/-- The row X9. -/
def execX9 (s : State) : Host.Outcome State Fault Refusal := withBuiltin 9 s performSub

/-- The row X10. -/
def execX10 (s : State) : Host.Outcome State Fault Refusal := withBuiltin 10 s performEq

/-- The row X11. -/
def execX11 (s : State) : Host.Outcome State Fault Refusal := withBuiltin 11 s performNe

/-- The row X12. -/
def execX12 (s : State) : Host.Outcome State Fault Refusal := withBuiltin 12 s performLt

/-- The row X13. -/
def execX13 (s : State) : Host.Outcome State Fault Refusal := withBuiltin 13 s performGe

/-- The row X14. -/
def execX14 (s : State) : Host.Outcome State Fault Refusal := withBuiltin 14 s performGt

/-- The row X15. -/
def execX15 (s : State) : Host.Outcome State Fault Refusal := withBuiltin 15 s performLe

/-- The row X16. -/
def execX16 (s : State) : Host.Outcome State Fault Refusal := withBuiltin 16 s (performLsh s.c)

/-- The row X17. -/
def execX17 (s : State) : Host.Outcome State Fault Refusal := withBuiltin 17 s (performRsh s.c)

/-- The row X18. -/
def execX18 (s : State) : Host.Outcome State Fault Refusal := withBuiltin 18 s performAnd

/-- The row X19. -/
def execX19 (s : State) : Host.Outcome State Fault Refusal := withBuiltin 19 s performOr

/-- The row X20. -/
def execX20 (s : State) : Host.Outcome State Fault Refusal := withBuiltin 20 s performXor

/-- The row X21. -/
def execX21 (s : State) : Host.Outcome State Fault Refusal := withBuiltin 21 s performEqv

end Sys2Proof.Machine
end

