-- ==== Sys2Proof/Machine/Control.lean ====
section
/-! DEFINITION. Control transfer and frames: builtins X4, X22, X23, X30, X31, X32, X35 and X38 (43_builtins_control.md
R200 to R208). -/

namespace Sys2Proof.Machine

/-- X4 RTN (R200): both frame slots are read before `P` and `C` are written. -/
def performRtn (s : State) : Run State := do
  let oldP ← s.load (u16 s.p)
  let oldC ← s.load (u16 (s.p + 1#16))
  pure ((s.setP oldP).setC oldC)

/-- X22 FINISH (R201): `halt Halted(0)`. -/
def performFinish (s : State) : Run State := pure (s.halt (.halted 0))

/-- The case scan of X23 (R202): `n` pairs are left, the next one at `pair`; the first whose value is `a` gives the
target, and `dflt` is the target when none does. Words beyond the pair that matches are not read. -/
def State.caseScan (s : State) (a dflt : Word) : Nat → Word → Run Word
  | 0, _ => pure dflt
  | n + 1, pair => do
    let v ← s.load (u16 pair)
    if v = a then s.load (u16 (pair + 1#16)) else s.caseScan a dflt n (pair + 2#16)

/-- X23 SWITCHON (R202): the table is at `C`: the count, the default target, then the pairs. `B` is left UNWRITTEN. -/
def performSwitchon (s : State) : Run State := do
  let a ← s.valA
  let n ← s.load (u16 s.c)
  let dflt ← s.load (u16 (s.c + 1#16))
  let target ← s.caseScan a dflt (u16 n) (s.c + 2#16)
  pure (((s.setD target).setB .unwritten).setC target)

/-- X30 STOP (R203): `halt Halted(s16(val(A)))`. -/
def performStop (s : State) : Run State := do
  let a ← s.valA
  pure (s.halt (.halted (s16 a)))

/-- X31 LEVEL (R204): `A <- M[P]`. -/
def performLevel (s : State) : Run State := do
  let w ← s.load (u16 s.p)
  pure (s.setA w)

/-- X32 LONGJUMP (R205): `P <- val(A)`, `C <- val(B)`; `A` is read first. -/
def performLongjump (s : State) : Run State := do
  let p ← s.valA
  let c ← s.valB
  pure ((s.setP p).setC c)

/-- The frame base X35 builds: `w16(u16(P) + u16(nb) + 1)` (R206). -/
def State.vecFrame (s : State) (nb : Word) : Word := s.p + nb + 1#16

/-- X35 APTOVEC (R206): the new frame's slots 0 and 1 are copies of the current frame's, slot 2 is the old `P` and slot 3
the count. -/
def performAptovec (s : State) : Run State := do
  let target ← s.valA
  let nb ← s.valB
  let d := s.vecFrame nb
  let s0 ← s.load (u16 s.p)
  let s1 ← s.load (u16 (s.p + 1#16))
  let t0 ← s.store (u16 d) s0
  let t1 ← t0.store (u16 (d + 1#16)) s1
  let t2 ← t1.store (u16 (d + 2#16)) s.p
  let t3 ← t2.store (u16 (d + 3#16)) nb
  pure ((t3.setP d).setC target)

/-- X38 PANIC (R207): the string at `val(A)` and the caller recorded in slot 1. -/
def performPanic (s : State) : Run State := do
  let a ← s.valA
  let msg ← s.readString a
  let caller ← s.load (u16 (s.p + 1#16))
  pure (s.halt (.panicked msg caller))

/-- The row X4. -/
def execX4 (s : State) : Host.Outcome State Fault Refusal := withBuiltin 4 s performRtn

/-- The row X22. -/
def execX22 (s : State) : Host.Outcome State Fault Refusal := withBuiltin 22 s performFinish

/-- The row X23. -/
def execX23 (s : State) : Host.Outcome State Fault Refusal := withBuiltin 23 s performSwitchon

/-- The row X30. -/
def execX30 (s : State) : Host.Outcome State Fault Refusal := withBuiltin 30 s performStop

/-- The row X31. -/
def execX31 (s : State) : Host.Outcome State Fault Refusal := withBuiltin 31 s performLevel

/-- The row X32. -/
def execX32 (s : State) : Host.Outcome State Fault Refusal := withBuiltin 32 s performLongjump

/-- The row X35. -/
def execX35 (s : State) : Host.Outcome State Fault Refusal := withBuiltin 35 s performAptovec

/-- The row X38. -/
def execX38 (s : State) : Host.Outcome State Fault Refusal := withBuiltin 38 s performPanic

end Sys2Proof.Machine
end

