-- ==== Sys2Proof/Machine/Io.lean ====
section
/-! DEFINITION. The host interface, the file table, byte I/O and byte access: builtins X24 to X29, X33, X34, X36 and X37
(44_builtins_io.md R230 to R249). -/

namespace Sys2Proof.Machine

/-! ### The host interactions (R230) -/

/-- Records a host interaction. -/
def HostSide.record (h : HostSide) (call : HostCall) : HostSide := { h with calls := h.calls ++ [call] }

/-- `HostRead(handle)`: a byte, or none for EOF. The next listed answer is taken; with none listed, the answer is a free
value, and that the call then always returns is the model's choice, since R230 lets it never answer (DESIGN CHOICE, log
entry 5). A call listed as never answering has no next state (60_exceptions.md R272). -/
def HostSide.read (h : HostSide) (handle : Handle) : Run (Option Byte × HostSide) :=
  match h.reads with
  | .byte b :: rest => .ok (some b, { h with reads := rest }.record (.read handle (some b)))
  | .eof :: rest => .ok (none, { h with reads := rest }.record (.read handle none))
  | .never :: _ => .error .stuckInHostCall
  | [] => .ok (Config.readDraw h.draws,
      { h with draws := h.draws + 1 }.record (.read handle (Config.readDraw h.draws)))

/-- `HostWrite(handle, b)`. That the call returns when no answer is listed is the model's choice, since R230 lets it never
answer (DESIGN CHOICE, log entry 5). -/
def HostSide.write (h : HostSide) (handle : Handle) (b : Byte) : Run HostSide :=
  match h.writes with
  | .never :: _ => .error .stuckInHostCall
  | .done :: rest => .ok ({ h with writes := rest }.record (.write handle b))
  | [] => .ok (h.record (.write handle b))

/-- A successful open: the number of its fresh handle, never given before (log entry 6). -/
def HostSide.opened (h : HostSide) (name : List Byte) (dir : Dir) : Option Nat × HostSide :=
  (some h.nextHandle,
    { h with nextHandle := h.nextHandle + 1 }.record (.openFile name dir (some (.file h.nextHandle))))

/-- A failed open. -/
def HostSide.openFailed (h : HostSide) (name : List Byte) (dir : Dir) : Option Nat × HostSide :=
  (none, h.record (.openFile name dir none))

/-- `HostOpen(name, dir)`: the number of a fresh handle, or none for Fail. With no answer listed, whether it succeeds is a
free value, and that the call then always returns is the model's choice, since R230 lets it never answer (DESIGN CHOICE,
log entry 5). -/
def HostSide.openStream (h : HostSide) (name : List Byte) (dir : Dir) : Run (Option Nat × HostSide) :=
  match h.opens with
  | .ok :: rest => .ok ({ h with opens := rest }.opened name dir)
  | .fail :: rest => .ok ({ h with opens := rest }.openFailed name dir)
  | .never :: _ => .error .stuckInHostCall
  | [] =>
    let drawn := { h with draws := h.draws + 1 }
    .ok (if Config.openDraw h.draws then drawn.opened name dir else drawn.openFailed name dir)

/-- `HostClose(handle)`. -/
def HostSide.close (h : HostSide) (handle : Handle) : HostSide := h.record (.close handle)

/-! ### Slots (R231, R232, R236, R240) -/

/-- The handle of a slot that serves input (R232). -/
def Slot.inputHandle? : Slot → Option Handle
  | .sentinel => none
  | .free => none
  | .std .stdin => some (.std .stdin)
  | .std .stdout => none
  | .std .stderr => none
  | .opened n .input => some (.file n)
  | .opened _ .output => none

/-- The handle of a slot that serves output (R232). -/
def Slot.outputHandle? : Slot → Option Handle
  | .sentinel => none
  | .free => none
  | .std .stdin => none
  | .std .stdout => some (.std .stdout)
  | .std .stderr => some (.std .stderr)
  | .opened _ .input => none
  | .opened n .output => some (.file n)

/-- `InStream(s)` (R236). -/
def inStream (table : List Slot) (slot : Nat) : Run Handle :=
  match (table[slot]?).bind Slot.inputHandle? with
  | some h => .ok h
  | none => .error (.noStream slot)

/-- `OutStream(s)` (R236). -/
def outStream (table : List Slot) (slot : Nat) : Run Handle :=
  match (table[slot]?).bind Slot.outputHandle? with
  | some h => .ok h
  | none => .error (.noStream slot)

/-- The first free slot of a list, counting from `i`. -/
def firstFree : Nat → List Slot → Option Nat
  | _, [] => none
  | i, slot :: rest => if slot = .free then some i else firstFree (i + 1) rest

/-- `Alloc(entry)` (R240): the least free slot from 1 on, else a new one at the end; beyond MAX_SLOT it faults. -/
def alloc (table : List Slot) (entry : Slot) : Run (Nat × List Slot) :=
  match firstFree 1 (table.drop 1) with
  | some slot => .ok (slot, table.set slot entry)
  | none =>
    if Config.maxSlot < table.length then .error (.slotOverflow table.length)
    else .ok (table.length, table ++ [entry])

/-! ### The standard names (R243) -/

/-- The bytes of an ASCII string. -/
def asciiBytes (text : String) : List Byte := text.toList.map fun ch => BitVec.ofNat 8 ch.toNat

/-- The slot of a standard name: compared byte for byte with the whole name (R241 to R243). -/
def standardSlot (name : List Byte) : Option Word :=
  if name = asciiBytes "SYSIN" then some 1#16
  else if name = asciiBytes "SYSPRINT" then some 2#16
  else if name = asciiBytes "SYSERROR" then some 3#16
  else none

/-! ### The builtins, after fetch and decode -/

/-- X24 SELECTINPUT (R233): the number is stored unchecked (R235). -/
def performSelectinput (s : State) : Run State := do
  let a ← s.valA
  pure (s.setSelectedInput a)

/-- X25 SELECTOUTPUT (R234): the number is stored unchecked (R235). -/
def performSelectoutput (s : State) : Run State := do
  let a ← s.valA
  pure (s.setSelectedOutput a)

/-- The word X26 leaves in `A`: a byte zero-extended, or -1 for EOF (R237). -/
def readResult : Option Byte → Word
  | some b => zextByte b
  | none => 0xFFFF#16

/-- X26 RDCH (R237). -/
def performRdch (s : State) : Run State := do
  let h ← inStream s.table (u16 s.selectedInput)
  let (r, host) ← s.host.read h
  pure ((s.setHost host).setA (readResult r))

/-- X27 WRCH (R238): `val(A)` is read before the stream is checked. -/
def performWrch (s : State) : Run State := do
  let v ← s.valA
  let h ← outStream s.table (u16 s.selectedOutput)
  let host ← s.host.write h (loByte v)
  pure (s.setHost host)

/-- X28 and X29 (R241, R242): find the stream of the name at `val(A)`, opening it in direction `dir` unless it is a
standard name. -/
def findStream (dir : Dir) (s : State) : Run State := do
  let a ← s.valA
  let name ← s.readString a
  match standardSlot name with
  | some slot => pure (s.setA slot)
  | none => do
    let (r, host) ← s.host.openStream name dir
    match r with
    | none => pure ((s.setHost host).setA 0#16)
    | some n => do
      let (slot, table) ← alloc s.table (.opened n dir)
      pure (((s.setHost host).setTable table).setA (BitVec.ofNat 16 slot))

/-- X28 FINDINPUT (R241). -/
def performFindinput (s : State) : Run State := findStream .input s

/-- X29 FINDOUTPUT (R242). -/
def performFindoutput (s : State) : Run State := findStream .output s

/-- Closing `slot`, whose handle is `h`: the host is told and the slot becomes free; the table does not shrink
(R244, R245). -/
def State.closeSlot (s : State) (slot : Nat) (h : Handle) : State :=
  (s.setHost (s.host.close h)).setTable (s.table.set slot .free)

/-- X33 ENDREAD (R244). -/
def performEndread (s : State) : Run State := do
  let h ← inStream s.table (u16 s.selectedInput)
  pure ((s.closeSlot (u16 s.selectedInput) h).setSelectedInput 0#16)

/-- X34 ENDWRITE (R245). -/
def performEndwrite (s : State) : Run State := do
  let h ← outStream s.table (u16 s.selectedOutput)
  pure ((s.closeSlot (u16 s.selectedOutput) h).setSelectedOutput 0#16)

/-- X36 GETBYTE (R247). -/
def performGetbyte (s : State) : Run State := do
  let base ← s.valA
  let i ← s.valB
  let b ← s.getByte base (u16 i)
  pure (s.setA (zextByte b))

/-- X37 PUTBYTE (R248): the byte is the low byte of frame slot 4. -/
def performPutbyte (s : State) : Run State := do
  let base ← s.valA
  let i ← s.valB
  let v ← s.load (u16 (s.p + 4#16))
  s.putByte base (u16 i) (loByte v)

/-- The row X24. -/
def execX24 (s : State) : Host.Outcome State Fault Refusal := withBuiltin 24 s performSelectinput

/-- The row X25. -/
def execX25 (s : State) : Host.Outcome State Fault Refusal := withBuiltin 25 s performSelectoutput

/-- The row X26. -/
def execX26 (s : State) : Host.Outcome State Fault Refusal := withBuiltin 26 s performRdch

/-- The row X27. -/
def execX27 (s : State) : Host.Outcome State Fault Refusal := withBuiltin 27 s performWrch

/-- The row X28. -/
def execX28 (s : State) : Host.Outcome State Fault Refusal := withBuiltin 28 s performFindinput

/-- The row X29. -/
def execX29 (s : State) : Host.Outcome State Fault Refusal := withBuiltin 29 s performFindoutput

/-- The row X33. -/
def execX33 (s : State) : Host.Outcome State Fault Refusal := withBuiltin 33 s performEndread

/-- The row X34. -/
def execX34 (s : State) : Host.Outcome State Fault Refusal := withBuiltin 34 s performEndwrite

/-- The row X36. -/
def execX36 (s : State) : Host.Outcome State Fault Refusal := withBuiltin 36 s performGetbyte

/-- The row X37. -/
def execX37 (s : State) : Host.Outcome State Fault Refusal := withBuiltin 37 s performPutbyte

end Sys2Proof.Machine
end

