-- ==== Sys2Proof/Machine/Execute.lean ====
section
/-! DEFINITION. Execute, the row X: dispatch on the decoded operand (41_cycle_primary.md R148, 30_encoding.md R76). -/

namespace Sys2Proof.Machine

/-- `perform builtin id`, after fetch and decode; `ia` is the address of the Execute word. Any other id faults (R148). -/
def performBuiltin (id : Nat) (ia : Word) (s : State) : Run State :=
  match id with
  | 1 => performLoadind s
  | 2 => performNeg s
  | 3 => performNot s
  | 4 => performRtn s
  | 5 => performMul s
  | 6 => performDiv ia s
  | 7 => performRem ia s
  | 8 => performAdd s
  | 9 => performSub s
  | 10 => performEq s
  | 11 => performNe s
  | 12 => performLt s
  | 13 => performGe s
  | 14 => performGt s
  | 15 => performLe s
  | 16 => performLsh ia s
  | 17 => performRsh ia s
  | 18 => performAnd s
  | 19 => performOr s
  | 20 => performXor s
  | 21 => performEqv s
  | 22 => performFinish s
  | 23 => performSwitchon s
  | 24 => performSelectinput s
  | 25 => performSelectoutput s
  | 26 => performRdch s
  | 27 => performWrch s
  | 28 => performFindinput s
  | 29 => performFindoutput s
  | 30 => performStop s
  | 31 => performLevel s
  | 32 => performLongjump s
  | 33 => performEndread s
  | 34 => performEndwrite s
  | 35 => performAptovec s
  | 36 => performGetbyte s
  | 37 => performPutbyte s
  | 38 => performPanic s
  | _ => .error (.illegalBuiltin id ia)

/-- The row X (R148): any flags and any literal form; the builtin is the one the decoded operand names. -/
def execExecute (op : Operand) (s : State) : Host.Outcome State Fault Refusal :=
  withOperand op s fun d t => performBuiltin (u16 d) s.c t

end Sys2Proof.Machine
end

