-- ==== Sys2Proof/Machine/Primary.lean ====
section
/-! DEFINITION. The primary opcodes L, S, A, J, T, F and K (41_cycle_primary.md R141 to R147). -/

namespace Sys2Proof.Machine

/-- Load (R141): `B <- A`, a move that copies UNWRITTEN too; `A <- D`. -/
def execLoad (op : Operand) (s : State) : Host.Outcome State Fault Refusal :=
  withOperand op s fun d t => pure ((t.setB t.a).setA d)

/-- Store (R142): `M[D] <- val(A)`. -/
def execStore (op : Operand) (s : State) : Host.Outcome State Fault Refusal :=
  withOperand op s fun d t => do
    let v ← t.valA
    t.store (u16 d) v

/-- Add (R143): `A <- w16(u16(val(A)) + u16(D))`. -/
def execAdd (op : Operand) (s : State) : Host.Outcome State Fault Refusal :=
  withOperand op s fun d t => do
    let v ← t.valA
    pure (t.setA (w16 (u16 v + u16 d)))

/-- Jump (R144): `C <- D`. -/
def execJump (op : Operand) (s : State) : Host.Outcome State Fault Refusal :=
  withOperand op s fun d t => pure (t.setC d)

/-- JumpTrue (R145): `C <- D` if `val(A)` is not zero. -/
def execJumpTrue (op : Operand) (s : State) : Host.Outcome State Fault Refusal :=
  withOperand op s fun d t => do
    let v ← t.valA
    pure (if isTrue v then t.setC d else t)

/-- JumpFalse (R146): `C <- D` if `val(A)` is zero. -/
def execJumpFalse (op : Operand) (s : State) : Host.Outcome State Fault Refusal :=
  withOperand op s fun d t => do
    let v ← t.valA
    pure (if isFalse v then t.setC d else t)

/-- The frame base a Call builds: `w16(u16(P) + u16(D))` (R147). -/
def State.callFrame (s : State) (d : Word) : Word := s.p + d

/-- Call (R147): the caller's `P` and the return address go to slots 0 and 1 of the frame at `P + D`. -/
def execCall (op : Operand) (s : State) : Host.Outcome State Fault Refusal :=
  withOperand op s fun d t => do
    let target ← t.valA
    let f := t.callFrame d
    let t1 ← t.store (u16 f) t.p
    let t2 ← t1.store (u16 (f + 1#16)) t.c
    pure ((t2.setP f).setC target)

end Sys2Proof.Machine
end

