-- ==== Sys2Proof/Machine/Dispatch.lean ====
section
/-! DEFINITION. Dispatch: one arm per constructor of Instr. -/

namespace Sys2Proof.Machine

def exec (i : Instr) (s : State) : Host.Outcome State Fault Refusal :=
  match i with
  | .load op => Sys2Proof.Machine.execLoad op s
  | .store op => Sys2Proof.Machine.execStore op s
  | .add op => Sys2Proof.Machine.execAdd op s
  | .jump op => Sys2Proof.Machine.execJump op s
  | .jumpTrue op => Sys2Proof.Machine.execJumpTrue op s
  | .jumpFalse op => Sys2Proof.Machine.execJumpFalse op s
  | .call op => Sys2Proof.Machine.execCall op s
  | .execute op => Sys2Proof.Machine.execExecute op s
  | .x1 => Sys2Proof.Machine.execX1 s
  | .x2 => Sys2Proof.Machine.execX2 s
  | .x3 => Sys2Proof.Machine.execX3 s
  | .x4 => Sys2Proof.Machine.execX4 s
  | .x5 => Sys2Proof.Machine.execX5 s
  | .x6 => Sys2Proof.Machine.execX6 s
  | .x7 => Sys2Proof.Machine.execX7 s
  | .x8 => Sys2Proof.Machine.execX8 s
  | .x9 => Sys2Proof.Machine.execX9 s
  | .x10 => Sys2Proof.Machine.execX10 s
  | .x11 => Sys2Proof.Machine.execX11 s
  | .x12 => Sys2Proof.Machine.execX12 s
  | .x13 => Sys2Proof.Machine.execX13 s
  | .x14 => Sys2Proof.Machine.execX14 s
  | .x15 => Sys2Proof.Machine.execX15 s
  | .x16 => Sys2Proof.Machine.execX16 s
  | .x17 => Sys2Proof.Machine.execX17 s
  | .x18 => Sys2Proof.Machine.execX18 s
  | .x19 => Sys2Proof.Machine.execX19 s
  | .x20 => Sys2Proof.Machine.execX20 s
  | .x21 => Sys2Proof.Machine.execX21 s
  | .x22 => Sys2Proof.Machine.execX22 s
  | .x23 => Sys2Proof.Machine.execX23 s
  | .x24 => Sys2Proof.Machine.execX24 s
  | .x25 => Sys2Proof.Machine.execX25 s
  | .x26 => Sys2Proof.Machine.execX26 s
  | .x27 => Sys2Proof.Machine.execX27 s
  | .x28 => Sys2Proof.Machine.execX28 s
  | .x29 => Sys2Proof.Machine.execX29 s
  | .x30 => Sys2Proof.Machine.execX30 s
  | .x31 => Sys2Proof.Machine.execX31 s
  | .x32 => Sys2Proof.Machine.execX32 s
  | .x33 => Sys2Proof.Machine.execX33 s
  | .x34 => Sys2Proof.Machine.execX34 s
  | .x35 => Sys2Proof.Machine.execX35 s
  | .x36 => Sys2Proof.Machine.execX36 s
  | .x37 => Sys2Proof.Machine.execX37 s
  | .x38 => Sys2Proof.Machine.execX38 s

end Sys2Proof.Machine
end

