-- ==== Sys2Proof/Machine/Step.lean ====
section
/-! DEFINITION. One step of the interpreter (41_cycle_primary.md R140, 60_exceptions.md R260). -/

namespace Sys2Proof.Machine

/-- While the status is Running, a step fetches the instruction at `C`, decodes it and executes it (R140). A terminal
status is never left (R260): the state stays as it is, and a faulted run stays faulted (log entry 10). -/
def step (s : State) : Host.Outcome State Fault Refusal :=
  match s.status with
  | .running =>
    match s.fetch with
    | .ok i => exec i s
    | .error f => .fault f
  | .halted _ => .next s
  | .panicked _ _ => .next s
  | .faulted f => .fault f

/-- The instruction of the table word `w` (`nbits` bits of it, every higher bit 0) placed so that the very next step
fetches and runs it (log entry 13). -/
def State.withFetchWord (s : State) (nbits w : Nat) : State := s.placeInstr (w % 2 ^ nbits)

end Sys2Proof.Machine
end

