-- ==== Sys2Proof/Machine/Assembler.lean ====
section
/-! DEFINITION. The assembler: text to launch store (40_encoder.md R100 to R128). It is not an agent of the run (R100);
its state is the structure Asm. -/

namespace Sys2Proof.Machine

/-- The assembler's state (R100, R104, R112). `text` is what is still to be read: its head is `ch`, and the empty list is
EOF (R102). `labels` is `labv[0..511]`: 0 never referenced, positive the head of a chain, negative resolved (R104).
`halfFull` is `cp` = 1: the low byte of word `p - 1` is free for packing (R112). `diagnostics` is what this assembly has
sent to the host diagnostic stream, oldest first (R119). -/
structure Asm where
  text : List Byte
  p : Nat
  g : Word
  mem : Memory
  labels : List Int
  halfFull : Bool
  diagnostics : List Diagnostic
  deriving DecidableEq, Repr

/-- What is left of an assembly that stops: why (R120), and the diagnostics already sent (60_exceptions.md R266). -/
structure AsmStop where
  reason : AsmFailure
  sent : List Diagnostic
  deriving DecidableEq, Repr

/-- What an assembler operation answers: a value, or the failure that stops assembly (R120). -/
abbrev AsmRun (α : Type) := Except AsmStop α

/-- The value of `r`, or the stop of the assembly at `st`, which keeps the diagnostics sent so far (60_exceptions.md
R266). -/
def Asm.orStop {α : Type} (st : Asm) (r : Except AsmFailure α) : AsmRun α :=
  r.mapError fun reason => { reason := reason, sent := st.diagnostics }

/-- Sends a diagnostic; assembly goes on (R119). -/
def Asm.report (st : Asm) (d : Diagnostic) : Asm := { st with diagnostics := st.diagnostics ++ [d] }

/-- Reading goes on at `text`. -/
def Asm.goOn (st : Asm) (text : List Byte) : Asm := { st with text := text }

/-- An ASCII character as a byte of the text (R102). -/
def ascii (ch : Char) : Byte := BitVec.ofNat 8 ch.toNat

/-- The characters `0` to `9`. -/
def isDigit (ch : Byte) : Bool := decide (48 ≤ ch.toNat) && decide (ch.toNat ≤ 57)

/-! ### Numerals (R103) -/

/-- The digits at the head of the text, read onto `n`, and the text after them. -/
def readDigits (n : Nat) : List Byte → Nat × List Byte
  | [] => (n, [])
  | ch :: rest => if isDigit ch then readDigits (10 * n + (ch.toNat - 48)) rest else (n, ch :: rest)

/-- `rdn()`: a decimal numeral with an optional leading `-`; with no digits it is 0 (R103). -/
def readNumeral : List Byte → Int × List Byte
  | [] => (0, [])
  | ch :: rest =>
    if ch = ascii '-' then
      let (n, after) := readDigits 0 rest
      (-(n : Int), after)
    else
      let (n, after) := readDigits 0 (ch :: rest)
      ((n : Int), after)

/-! ### Emitting words (R101, R112) -/

/-- The assembler's direct write into the launch store. -/
def Asm.poke (st : Asm) (addr : Nat) (w : Word) : Asm := { st with mem := st.mem.write addr w }

/-- `stw(w)` (R101). -/
def Asm.emit (st : Asm) (w : Word) : AsmRun Asm :=
  if st.p < Config.storeWords then
    .ok { st with mem := st.mem.write st.p w, p := st.p + 1, halfFull := false }
  else st.orStop (.error (.storeOutOfRange st.p))

/-- `stc(c)` (R112): the high byte of a new word, or the low byte of the last one. -/
def Asm.packByte (st : Asm) (c : Int) : AsmRun Asm :=
  let v : Byte := BitVec.ofInt 8 c
  if st.halfFull then
    .ok { st.poke (st.p - 1) (joinBytes (hiByte (st.mem.read (st.p - 1))) v) with halfFull := false }
  else do
    let st1 ← st.emit 0#16
    pure { st1.poke (st1.p - 1) (joinBytes v 0#8) with halfFull := true }

/-! ### Labels (R104 to R106) -/

/-- The index of label `n`, or the failure of an id outside 0 to 511 (R104). -/
def labelIndex (n : Int) : Except AsmFailure Nat :=
  if 0 ≤ n ∧ n < Config.labels then .ok n.toNat else .error (.labelOutOfRange n)

/-- `labv[i]` (R104). -/
def Asm.label (st : Asm) (i : Nat) : Int := st.labels.getD i 0

/-- `labref(n, a)` (R105): a resolved label's address is written now; otherwise the cell joins the chain. -/
def Asm.refLabel (st : Asm) (n : Int) (addr : Nat) : AsmRun Asm := do
  let i ← st.orStop (labelIndex n)
  let k := st.label i
  if k < 0 then pure (st.poke addr (w16 (-k)))
  else pure { st.poke addr (w16 k) with labels := st.labels.set i addr }

/-- The chain walk of `setlab` (R106): every cell from `k` on is patched with `here`; at most `left` more steps. -/
def patchChain (n : Int) (here : Word) : Nat → Nat → Memory → Except AsmFailure Memory
  | left, k, mem =>
    if k = 0 then .ok mem
    else if Config.storeWords ≤ k then .error (.storeOutOfRange k)
    else
      match left with
      | 0 => .error (.chainLoop n)
      | left + 1 => patchChain n here left (u16 (mem.read k)) (mem.write k here)

/-- `setlab(n)` (R106). -/
def Asm.setLabel (st : Asm) (n : Int) : AsmRun Asm := do
  let i ← st.orStop (labelIndex n)
  let k := st.label i
  let st1 := if k < 0 then st.report (.duplicateLabel i) else st
  let mem ← st1.orStop (patchChain n (w16 st.p) 32767 k.toNat st.mem)
  pure { st1 with mem := mem, labels := st.labels.set i (-(st.p : Int)), halfFull := false }

/-! ### Tokens (R108 to R117) -/

/-- The opcode of an instruction letter (R110, 30_encoding.md R72). -/
def opcodeOfLetter (ch : Byte) : Option Nat :=
  if ch = ascii 'L' then some 0
  else if ch = ascii 'S' then some 1
  else if ch = ascii 'A' then some 2
  else if ch = ascii 'J' then some 3
  else if ch = ascii 'T' then some 4
  else if ch = ascii 'F' then some 5
  else if ch = ascii 'K' then some 6
  else if ch = ascii 'X' then some 7
  else none

/-- A flag letter at the head of the text sets its bit and is read; otherwise nothing is (R110). -/
def readFlag (letter : Char) (mask : Word) (w : Word) : List Byte → Word × List Byte
  | [] => (w, [])
  | ch :: rest => if ch = ascii letter then (w ||| mask, rest) else (w, ch :: rest)

/-- The text after an `L` at its head, if there is one. -/
def afterL : List Byte → Option (List Byte)
  | [] => none
  | ch :: rest => if ch = ascii 'L' then some rest else none

/-- `operand(w)` (R111): a label operand and a number that does not fit 9 bits take the long form. -/
def Asm.operand (st : Asm) (w : Word) (text : List Byte) : AsmRun Asm :=
  match afterL text with
  | some labelText => do
    let (n, after) := readNumeral labelText
    let st1 ← (st.goOn after).emit (w ||| 0x0200#16)
    let st2 ← st1.emit 0#16
    st2.refLabel n (st2.p - 1)
  | none => do
    let (n, after) := readNumeral text
    let v := w16 n
    if v &&& 0x01FF#16 = v then (st.goOn after).emit (w ||| v)
    else do
      let st1 ← (st.goOn after).emit (w ||| 0x0200#16)
      st1.emit v

/-- An instruction: opcode letter, flags `I`, `P`, `G` in that order, operand (R110). -/
def Asm.instruction (st : Asm) (opcode : Nat) (text : List Byte) : AsmRun Asm :=
  let (w1, text1) := readFlag 'I' 0x1000#16 (BitVec.ofNat 16 (opcode * 8192)) text
  let (w2, text2) := readFlag 'P' 0x0800#16 w1 text1
  let (w3, text3) := readFlag 'G' 0x0400#16 w2 text2
  st.operand w3 text3

/-- The directive `C n` (R112). -/
def Asm.charDirective (st : Asm) (text : List Byte) : AsmRun Asm :=
  let (n, after) := readNumeral text
  (st.goOn after).packByte n

/-- The directive `D n` or `D L n` (R113). -/
def Asm.dataDirective (st : Asm) (text : List Byte) : AsmRun Asm :=
  match afterL text with
  | some labelText => do
    let (n, after) := readNumeral labelText
    let st1 ← (st.goOn after).emit 0#16
    st1.refLabel n (st1.p - 1)
  | none =>
    let (n, after) := readNumeral text
    (st.goOn after).emit (w16 n)

/-- The second half of a `G` directive, for global slot `n` (R114): the slot is zeroed and becomes a reference to the label
the numeral at the head of `text` names. -/
def Asm.globalSlot (st : Asm) (n : Int) (text : List Byte) : AsmRun Asm :=
  let addr := u16 (st.g + w16 n)
  let (k, done) := readNumeral text
  if addr < Config.storeWords then ((st.goOn done).poke addr 0#16).refLabel k addr
  else st.orStop (.error (.storeOutOfRange addr))

/-- The directive `G n L k` (R114): global slot `n` receives the address of label `k`. A missing `L` is a BadCode
diagnostic and the directive goes on. -/
def Asm.globalDirective (st : Asm) (text : List Byte) : AsmRun Asm :=
  let (n, after) := readNumeral text
  match afterL after with
  | some rest => st.globalSlot n rest
  | none => (st.report .badCode).globalSlot n after

/-- The directive `Z` (R115): every label still unresolved is reported, and the labels and the packing state are
cleared. -/
def Asm.checkpoint (st : Asm) (text : List Byte) : Asm :=
  let unset := (List.range Config.labels).filter fun n => decide (0 < st.label n)
  { st with
    text := text
    labels := List.replicate Config.labels 0
    halfFull := false
    diagnostics := st.diagnostics ++ unset.map .unset }

/-- The text after the end of the line (R109). -/
def skipComment : List Byte → List Byte
  | [] => []
  | ch :: rest => if ch = ascii '\n' then rest else skipComment rest

/-- One dispatch on `ch`, with `rest` the text after it (R108). -/
def Asm.token (st : Asm) (ch : Byte) (rest : List Byte) : AsmRun Asm :=
  if ch = ascii '/' then .ok (st.goOn (skipComment rest))
  else if ch = ascii '$' ∨ ch = ascii ' ' ∨ ch = ascii '\n' then .ok (st.goOn rest)
  else if isDigit ch ∨ ch = ascii '-' then
    let (n, after) := readNumeral (ch :: rest)
    (st.goOn after).setLabel n
  else if ch = ascii 'C' then st.charDirective rest
  else if ch = ascii 'D' then st.dataDirective rest
  else if ch = ascii 'G' then st.globalDirective rest
  else if ch = ascii 'Z' then .ok (st.checkpoint rest)
  else
    match opcodeOfLetter ch with
    | some opcode => st.instruction opcode rest
    | none => .ok ((st.goOn rest).report .badChar)

/-- The dispatch repeated until EOF (R108, R118). Every token reads at least one character, so `fuel` as long as the text
is enough. -/
def Asm.tokens : Nat → Asm → AsmRun Asm
  | 0, st => .ok st
  | fuel + 1, st =>
    match st.text with
    | [] => .ok st
    | ch :: rest => do
      let st1 ← st.token ch rest
      Asm.tokens fuel st1

/-! ### The bootstrap and a whole assembly (R125 to R127) -/

/-- Emits a list of words. -/
def Asm.emitAll (st : Asm) : List Word → AsmRun Asm
  | [] => .ok st
  | w :: ws => do
    let st1 ← st.emit w
    st1.emitAll ws

/-- Fills `n` global slots from slot `i` on with the panic handler's address (R126); a slot outside the store fails the
assembly (log entry 8). -/
def Asm.fillGlobals (st : Asm) (i : Nat) : Nat → AsmRun Asm
  | 0 => .ok st
  | n + 1 =>
    let addr := u16 (st.g + BitVec.ofNat 16 i)
    if addr < Config.storeWords then (st.poke addr panicHandler).fillGlobals (i + 1) n
    else st.orStop (.error (.storeOutOfRange addr))

/-- The assembler before the user text: the store as drawn, the emission pointer at the code origin, no label
referenced. -/
def Asm.start (g : Word) (drawn : Memory) (text : List Byte) : Asm :=
  { text := text
    p := Config.codeOrigin
    g := g
    mem := drawn
    labels := List.replicate Config.labels 0
    halfFull := false
    diagnostics := [] }

/-- The bootstrap, then the global slots (R125, R126). The label table and the packing state are then clear (R127): the
bootstrap is emitted as words, so it never uses them. -/
def Asm.bootstrap (st : Asm) : AsmRun Asm := do
  let st1 ← st.emitAll bootstrapImage
  st1.fillGlobals 0 Config.globalSlots

/-- A whole assembly (R100, R122). -/
def assemble (g : Word) (drawn : Memory) (text : List Byte) : AsmRun Asm := do
  let st ← (Asm.start g drawn text).bootstrap
  Asm.tokens text.length st

end Sys2Proof.Machine
end

