-- ==== Sys2Proof/Machine/Launch.lean ====
section
/-! DEFINITION. The launch: assembly, then reset (70_reset_and_hazards.md R280, R283). -/

namespace Sys2Proof.Machine

/-- A launch (R283): the source text, the host oracle, the init_store draw, and the parameters of 00_scope.md R5 with their
defaults. `drawn` is the store as it stands before assembly, in canonical form (log entries 3, 5, 8). -/
structure Launch where
  text : List Byte := []
  host : HostSide := {}
  drawn : Memory := []
  gBase : Word := 0#16
  shrKind : ShrKind := .logical
  initSelectedInput : Word := 1#16
  initSelectedOutput : Word := 2#16
  deriving DecidableEq, Repr

/-- The state a launch gives the interpreter when assembly ends in `st` (10_state.md R33, 40_encoder.md R122); the host has
received the assembly's diagnostics (R119). -/
def Launch.resetFrom (l : Launch) (st : Asm) : State :=
  { a := .unwritten
    b := .unwritten
    c := BitVec.ofNat 16 Config.codeOrigin
    d := .unwritten
    p := BitVec.ofNat 16 st.p
    g := l.gBase
    selectedInput := l.initSelectedInput
    selectedOutput := l.initSelectedOutput
    table := resetTable
    mem := st.mem
    status := .running
    shrKind := l.shrKind
    host := { l.host with diagnostics := l.host.diagnostics ++ st.diagnostics } }

/-- A launch: the state at the start of interpretation, or the refusal AssemblyFailed with the diagnostics the assembly had
sent (70_reset_and_hazards.md R280, 60_exceptions.md R266). -/
def Launch.start (l : Launch) : Host.Outcome State Fault Refusal :=
  match assemble l.gBase l.drawn l.text with
  | .ok st => .next (l.resetFrom st)
  | .error stop => .refused (.assemblyFailed stop.reason stop.sent)

end Sys2Proof.Machine
end

