-- ==== Sys2Proof/Safety.lean ====
section
/-! DEFINITION. The terms the statements use: the invariant of the machine, which builtin an instruction performs, and the
recurring shapes of the spec's instruction rules. -/

namespace Sys2Proof.Machine

/-! ### The invariant -/

/-- The host handle a slot holds, if any (44_builtins_io.md R232). -/
def Slot.handle? : Slot → Option Handle
  | .free => none
  | .sentinel => none
  | .std k => some (.std k)
  | .opened n _ => some (.file n)

/-- The slot a standard stream is bound to at reset (10_state.md R28). -/
def StdStream.slot : StdStream → Nat
  | .stdin => 1
  | .stdout => 2
  | .stderr => 3

/-- Slot state `slot` may stand at index `i`: the sentinel is slot 0 and only slot 0, and a standard stream is never found
in another slot than its own (10_state.md R28, 44_builtins_io.md R246). -/
def Slot.fitsAt (slot : Slot) (i : Nat) : Prop :=
  (slot = .sentinel ↔ i = 0) ∧ ∀ k, slot = .std k → i = k.slot

/-- What every step keeps: the store is in canonical form; the file table has 4 to MAX_SLOT + 1 slots, each where it may
stand (44_builtins_io.md R231, R240); a handle was given by the host before it stands in the table or in a call, and stands
in one slot only; and a handle that was closed stands in no slot (R230: "After HostClose(h), the block never passes h
again"). -/
structure State.Inv (s : State) : Prop where
  memory : s.mem.wf = true
  tableLength : 4 ≤ s.table.length ∧ s.table.length ≤ Config.maxSlot + 1
  places : ∀ (i : Nat) slot, s.table[i]? = some slot → slot.fitsAt i
  heldWasGiven : ∀ (i : Nat) n dir, s.table[i]? = some (.opened n dir) → n < s.host.nextHandle
  heldOnce : ∀ (i j : Nat) n dir dir', s.table[i]? = some (.opened n dir) → s.table[j]? = some (.opened n dir') → i = j
  openedWasGiven : ∀ name dir n, HostCall.openFile name dir (some (.file n)) ∈ s.host.calls → n < s.host.nextHandle
  closedWasGiven : ∀ n, HostCall.close (.file n) ∈ s.host.calls → n < s.host.nextHandle
  closedNotHeld : ∀ h, HostCall.close h ∈ s.host.calls → ∀ (i : Nat) slot, s.table[i]? = some slot → slot.handle? ≠ some h

/-! ### Which builtin an instruction performs -/

/-- The builtin id instruction `i` dispatches on in state `s`: its own for a builtin row, the decoded operand for any other
Execute (30_encoding.md R76), none for the other opcodes and for an Execute whose operand faults. -/
def State.builtinOf (s : State) : Instr → Option Nat
  | .execute op => (s.operandValue op).toOption.map u16
  | i => i.builtinId?

/-- `i` is an Execute that performs one of the builtins `ids` in state `s`. -/
def State.performs (s : State) (i : Instr) (ids : List Nat) : Prop := ∃ id ∈ ids, s.builtinOf i = some id

/-! ### The standard names -/

/-- The standard names SYSIN, SYSPRINT and SYSERROR byte for byte in ASCII, each with its slot (44_builtins_io.md R243). No
other name is standard. -/
def standardNames : List (List Byte × Word) :=
  [([0x53#8, 0x59#8, 0x53#8, 0x49#8, 0x4E#8], 1#16),
    ([0x53#8, 0x59#8, 0x53#8, 0x50#8, 0x52#8, 0x49#8, 0x4E#8, 0x54#8], 2#16),
    ([0x53#8, 0x59#8, 0x53#8, 0x45#8, 0x52#8, 0x52#8, 0x4F#8, 0x52#8], 3#16)]

/-! ### The characters that start a token -/

/-- The bytes that R108 dispatches on otherwise than with a BadChar diagnostic: `/`, `$`, space, newline, the digits, `-`,
the directive letters `C D G Z` and the opcode letters `L S A J T F K X` (40_encoder.md R108, R117). -/
def tokenStarts : List Byte :=
  [0x2F#8, 0x24#8, 0x20#8, 0x0A#8, 0x30#8, 0x31#8, 0x32#8, 0x33#8, 0x34#8, 0x35#8, 0x36#8, 0x37#8, 0x38#8, 0x39#8, 0x2D#8] ++
  [0x43#8, 0x44#8, 0x47#8, 0x5A#8, 0x4C#8, 0x53#8, 0x41#8, 0x4A#8, 0x54#8, 0x46#8, 0x4B#8, 0x58#8]

/-! ### Recurring shapes of the instruction rules -/

/-- Word `w` is the canonical word of the builtin row `i`, whatever word follows it (30_encoding.md R77). -/
def IsBuiltinWord (w : Word) (i : Instr) : Prop := ∀ lit, decodeWord w lit = i

/-- The words with opcode field `op` are the instruction `mk` of the operand their other fields give (30_encoding.md
R72). -/
def IsOpcodeOf (op : Nat) (mk : Operand → Instr) : Prop :=
  ∀ w lit, u16 w / 8192 = op → decodeWord w lit = mk (operandOf w lit)

/-- A fault of operand decode ends the instruction (60_exceptions.md R263). -/
def DecodeFaultsFirst (mk : Operand → Instr) : Prop :=
  ∀ op s f, s.operandValue op = .error f → exec (mk op) s = .fault f

/-- The instruction uses `A`, and faults while it is UNWRITTEN (10_state.md R22). -/
def NeedsA (i : Instr) : Prop := ∀ s : State, s.a = .unwritten → exec i s = .fault (.unwrittenRegister .A)

/-- The instruction uses `B` and then `A`: an UNWRITTEN `B` is reported even when `A` is UNWRITTEN too
(42_builtins_alu.md R171). -/
def NeedsBThenA (i : Instr) : Prop :=
  ∀ s : State, (s.b = .unwritten → exec i s = .fault (.unwrittenRegister .B)) ∧
    (∀ y, s.b = .word y → s.a = .unwritten → exec i s = .fault (.unwrittenRegister .A))

/-- The instruction uses `A` and then `B` (60_exceptions.md R263). -/
def NeedsAThenB (i : Instr) : Prop :=
  ∀ s : State, (s.a = .unwritten → exec i s = .fault (.unwrittenRegister .A)) ∧
    (∀ x, s.a = .word x → s.b = .unwritten → exec i s = .fault (.unwrittenRegister .B))

/-- The state in which the builtin row `id` acts: `C` past its one word and `D` the id (41_cycle_primary.md R140,
30_encoding.md R73). -/
def State.atBuiltin (s : State) (id : Nat) : State := { s with c := s.c + 1#16, d := .word (BitVec.ofNat 16 id) }

/-- The state in which an instruction with operand `op` and decoded operand `d` acts (41_cycle_primary.md R140,
30_encoding.md R73). -/
def State.atOperand (s : State) (op : Operand) (d : Word) : State :=
  { s with c := s.c + BitVec.ofNat 16 op.length, d := .word d }

end Sys2Proof.Machine
end

