-- ==== Sys2Proof/Certificates/Slice0/Obligations.lean ====
section
/-! DEFINITION. The statements about the INTCODE model, each with the rule of spec/ it formalises. `s.atOperand op d` and
`s.atBuiltin id` (Safety.lean) are the state after fetch and decode: `C` past the instruction and `D` the decoded operand. -/

open Sys2Proof Sys2Proof.Machine

/-! ### Encoding -/

/-- 30_encoding.md R70 to R72, R77: decoding the words of a well-formed instruction, whatever follows them, gives it back
with every operand. -/
def Obligations.DecodeUndoesEncode : Prop :=
  ∀ (i : Instr) (rest : List Word), i.wf = true → decode (encode i ++ rest) = .ok (i, rest)

/-- 30_encoding.md R71: encoding a decoded instruction gives its words back, but that bits 8:0 of a long form, which decode
ignores, are written 0. -/
def Obligations.EncodeUndoesDecode : Prop :=
  ∀ w lit : Word, encode (decodeWord w lit) =
    if u16 w / 512 % 2 = 1 then [BitVec.ofNat 16 (u16 w / 512 * 512), lit] else [w]

/-- 30_encoding.md R70, R71: the fields of an instruction word: opcode 15:13, I bit 12, P bit 11, G bit 10, Dbit bit 9, lit9
bits 8:0 in the short form, the whole following word in the long form. -/
def Obligations.DecodeReadsTheFields : Prop :=
  ∀ w lit : Word,
    (decodeWord w lit).opcode = u16 w / 8192 ∧
    (decodeWord w lit).operand.indirect = decide (u16 w / 4096 % 2 = 1) ∧
    (decodeWord w lit).operand.frame = decide (u16 w / 2048 % 2 = 1) ∧
    (decodeWord w lit).operand.global = decide (u16 w / 1024 % 2 = 1) ∧
    (decodeWord w lit).operand.literal =
      if u16 w / 512 % 2 = 1 then .long lit else .short (BitVec.ofNat 9 (u16 w % 512))

/-- 30_encoding.md R77, R78: decode is total, what it gives is well formed, and the words of the builtin rows are exactly
0xE001 to 0xE026. -/
def Obligations.BuiltinRowsAreTheirCanonicalWords : Prop :=
  ∀ w lit : Word, (decodeWord w lit).wf = true ∧
    ∀ id : Nat, (decodeWord w lit).builtinId? = some id ↔ 1 ≤ id ∧ id ≤ 38 ∧ u16 w = 0xE000 + id

/-- Words written out from the spec's encodings decode to the instructions they stand for (95_test_vectors.md E3 to E12,
40_encoder.md R125). -/
def Obligations.SpecWordsDecode : Prop :=
  decodeWord 0x1401#16 0#16 = .load ⟨true, false, true, .short 1#9⟩ ∧
  decodeWord 0x1803#16 0#16 = .load ⟨true, true, false, .short 3#9⟩ ∧
  decodeWord 0x24C8#16 0#16 = .store ⟨false, false, true, .short 200#9⟩ ∧
  decodeWord 0x4200#16 0xFFFF#16 = .add ⟨false, false, false, .long 0xFFFF#16⟩ ∧
  decodeWord 0x6200#16 0x02BC#16 = .jump ⟨false, false, false, .long 700#16⟩ ∧
  decodeWord 0xC002#16 0#16 = .call ⟨false, false, false, .short 2#9⟩ ∧
  decodeWord 0xF028#16 0#16 = .execute ⟨true, false, false, .short 40#9⟩ ∧
  decodeWord 0xE200#16 0x0200#16 = .execute ⟨false, false, false, .long 512#16⟩ ∧
  decodeWord 0xE016#16 0#16 = .x22 ∧ decodeWord 0xE026#16 0#16 = .x38

/-! ### The step -/

/-- 41_cycle_primary.md R140: a running machine executes the instruction its words at `C` decode to: one word when the D-bit
is clear, two when it is set. What `exec` does with `C` is in the statements of the instructions. -/
def Obligations.StepRunsTheDecodedInstruction : Prop :=
  ∀ s : State, s.status = .running → u16 s.c ≤ 32766 →
    (u16 (s.mem.read (u16 s.c)) / 512 % 2 = 0 →
      step s = exec (decodeWord (s.mem.read (u16 s.c)) 0#16) s) ∧
    (u16 (s.mem.read (u16 s.c)) / 512 % 2 = 1 → u16 s.c + 1 ≤ 32766 →
      step s = exec (decodeWord (s.mem.read (u16 s.c)) (s.mem.read (u16 s.c + 1))) s)

/-- 60_exceptions.md R263, 20_memory.md R52: a fetch outside the store faults at `C`, and a literal fetch outside it at the
word after. -/
def Obligations.FetchOutsideTheStoreFaults : Prop :=
  ∀ s : State, s.status = .running →
    (32766 < u16 s.c → step s = .fault (.storeOutOfRange (u16 s.c))) ∧
    (u16 s.c = 32766 → u16 (s.mem.read 32766) / 512 % 2 = 1 → step s = .fault (.storeOutOfRange 32767))

/-- 60_exceptions.md R260: a terminal outcome, Halted, Panicked or Faulted, is never left, however often the machine is
stepped. That the model's step of an ended run answers the unchanged state, or the same fault, is the model's choice (log
entry 10). -/
def Obligations.TerminalOutcomeIsNeverLeft : Prop :=
  ∀ (s : State) (n : Nat),
    (((∃ code, s.status = .halted code) ∨ (∃ msg caller, s.status = .panicked msg caller)) →
      Sys2Proof.core.run n s = .next s) ∧
    (∀ f, s.status = .faulted f → Sys2Proof.core.run (n + 1) s = .fault f)

/-- An instruction placed by `withFetchWord` is what the next step runs, whatever the state was (log entry 13). -/
def Obligations.PlacedInstructionRunsNext : Prop :=
  ∀ (s : State) (nbits w : Nat), s.mem.wf = true →
    ∃ i, decodeTableWord nbits w = some i ∧
      step (s.withFetchWord nbits w) = exec i (s.withFetchWord nbits w)

/-! ### The operand -/

/-- 30_encoding.md R73, R75: the operand is the literal, plus P, plus G, as the flags say, wrapping in 16 bits; with the I flag
it is the word at that address, and an address outside the store faults. -/
def Obligations.OperandFollowsTheFlags : Prop :=
  ∀ (s : State) (op : Operand) (lit : Nat),
    ((∃ n, op.literal = .short n ∧ lit = n.toNat) ∨ (∃ w, op.literal = .long w ∧ lit = u16 w)) →
    ∃ addr : Nat,
      addr = (lit + (if op.frame then u16 s.p else 0) + (if op.global then u16 s.g else 0)) % 65536 ∧
      (op.indirect = false → s.operandValue op = .ok (BitVec.ofNat 16 addr)) ∧
      (op.indirect = true → addr ≤ 32766 → s.operandValue op = .ok (s.mem.read addr)) ∧
      (op.indirect = true → 32766 < addr → s.operandValue op = .error (.storeOutOfRange addr))

/-! ### Primary opcodes -/

/-- 41_cycle_primary.md R141. -/
def Obligations.LoadMovesTheOldAccumulatorToB : Prop :=
  IsOpcodeOf 0 .load ∧ DecodeFaultsFirst .load ∧
  ∀ (s : State) (op : Operand) (d : Word), s.operandValue op = .ok d →
    exec (.load op) s = .next { s.atOperand op d with b := s.a, a := .word d }

/-- 41_cycle_primary.md R142. -/
def Obligations.StoreWritesTheWordAtItsOperand : Prop :=
  IsOpcodeOf 1 .store ∧ DecodeFaultsFirst .store ∧
  ∀ (s : State) (op : Operand) (d : Word), s.mem.wf = true → s.operandValue op = .ok d →
    (s.a = .unwritten → exec (.store op) s = .fault (.unwrittenRegister .A)) ∧
    (∀ x, s.a = .word x → 32766 < u16 d → exec (.store op) s = .fault (.storeOutOfRange (u16 d))) ∧
    (∀ x, s.a = .word x → u16 d ≤ 32766 →
      ∃ t, exec (.store op) s = .next t ∧ t = { s.atOperand op d with mem := t.mem } ∧
        t.mem.read (u16 d) = x ∧ ∀ addr, addr ≠ u16 d → t.mem.read addr = s.mem.read addr)

/-- 41_cycle_primary.md R143. -/
def Obligations.AddWrapsAround : Prop :=
  IsOpcodeOf 2 .add ∧ DecodeFaultsFirst .add ∧
  ∀ (s : State) (op : Operand) (d : Word), s.operandValue op = .ok d →
    (s.a = .unwritten → exec (.add op) s = .fault (.unwrittenRegister .A)) ∧
    (∀ x, s.a = .word x →
      exec (.add op) s = .next { s.atOperand op d with a := .word (BitVec.ofNat 16 ((u16 x + u16 d) % 65536)) })

/-- 41_cycle_primary.md R144: the target is not checked by the jump. -/
def Obligations.JumpGoesToItsOperand : Prop :=
  IsOpcodeOf 3 .jump ∧ DecodeFaultsFirst .jump ∧
  ∀ (s : State) (op : Operand) (d : Word), s.operandValue op = .ok d →
    exec (.jump op) s = .next { s.atOperand op d with c := d }

/-- 41_cycle_primary.md R145, R146: JumpTrue is taken for every word of `A` but zero, JumpFalse for zero only; not taken, `C`
stays past the instruction. -/
def Obligations.ConditionalJumpsTestAAgainstZero : Prop :=
  IsOpcodeOf 4 .jumpTrue ∧ DecodeFaultsFirst .jumpTrue ∧ IsOpcodeOf 5 .jumpFalse ∧ DecodeFaultsFirst .jumpFalse ∧
  ∀ (s : State) (op : Operand) (d : Word), s.operandValue op = .ok d →
    (s.a = .unwritten → exec (.jumpTrue op) s = .fault (.unwrittenRegister .A) ∧
      exec (.jumpFalse op) s = .fault (.unwrittenRegister .A)) ∧
    (∀ x, s.a = .word x → u16 x = 0 → exec (.jumpTrue op) s = .next (s.atOperand op d) ∧
      exec (.jumpFalse op) s = .next { s.atOperand op d with c := d }) ∧
    (∀ x, s.a = .word x → 0 < u16 x → exec (.jumpTrue op) s = .next { s.atOperand op d with c := d } ∧
      exec (.jumpFalse op) s = .next (s.atOperand op d))

/-- 41_cycle_primary.md R147: the frame base is `P + D`; slot 0 gets the old `P` and slot 1 the address after the
instruction; `P` becomes the frame base and `C` the callee's address in `A`. -/
def Obligations.CallBuildsAFrame : Prop :=
  IsOpcodeOf 6 .call ∧ DecodeFaultsFirst .call ∧
  ∀ (s : State) (op : Operand) (d : Word), s.mem.wf = true → s.operandValue op = .ok d →
    (s.a = .unwritten → exec (.call op) s = .fault (.unwrittenRegister .A)) ∧
    (∀ x f, s.a = .word x → f = BitVec.ofNat 16 (u16 s.p + u16 d) →
      (32766 < u16 f → exec (.call op) s = .fault (.storeOutOfRange (u16 f))) ∧
      (u16 f = 32766 → exec (.call op) s = .fault (.storeOutOfRange 32767)) ∧
      (u16 f < 32766 →
        ∃ t, exec (.call op) s = .next t ∧ t = { s.atOperand op d with p := f, c := x, mem := t.mem } ∧
          t.mem.read (u16 f) = s.p ∧ t.mem.read (u16 f + 1) = s.c + BitVec.ofNat 16 op.length ∧
          ∀ addr, addr ≠ u16 f → addr ≠ u16 f + 1 → t.mem.read addr = s.mem.read addr))

/-- 41_cycle_primary.md R150: whatever runs between a Call and the X4 of the callee's frame, if the callee's final `P` and
slots 0 and 1 of its frame are as the Call left them, the return restores `P` and `C` to just past the Call. -/
def Obligations.ReturnUndoesCall : Prop :=
  ∀ (s : State) (op : Operand) (d x : Word), s.mem.wf = true → s.operandValue op = .ok d → s.a = .word x →
    (u16 s.p + u16 d) % 65536 < 32766 →
    ∃ t, exec (.call op) s = .next t ∧
      ∀ u : State, u.p = t.p → u.mem.read (u16 t.p) = t.mem.read (u16 t.p) →
        u.mem.read (u16 t.p + 1) = t.mem.read (u16 t.p + 1) →
        exec .x4 u = .next { u.atBuiltin 4 with p := s.p, c := s.c + BitVec.ofNat 16 op.length }

/-! ### Execute -/

/-- 41_cycle_primary.md R148, 30_encoding.md R76, R78: an Execute whose operand decodes to no id from 1 to 38 faults with the id
and its own address. -/
def Obligations.IllegalBuiltinFaults : Prop :=
  DecodeFaultsFirst .execute ∧
  ∀ (s : State) (op : Operand) (d : Word), s.operandValue op = .ok d → (u16 d = 0 ∨ 38 < u16 d) →
    exec (.execute op) s = .fault (.illegalBuiltin (u16 d) s.c)

/-- 30_encoding.md R76, 41_cycle_primary.md R148: an Execute whose flags or long literal decode to the id of a builtin row
performs that builtin. In the short form it answers exactly what the row does. In the long form it goes on and faults
exactly when, and as, the row does from the word after, but that DivideByZero and ShiftOutOfRange carry the address of the
Execute word itself (42_builtins_alu.md R176, R178, R188, 60_exceptions.md R261). -/
def Obligations.ExecutePerformsTheBuiltinItSelects : Prop :=
  ∀ (s s1 : State) (op : Operand) (d : Word) (i : Instr), s.operandValue op = .ok d → i.builtinId? = some (u16 d) →
    (op.length = 1 → exec (.execute op) s = exec i s) ∧
    (op.length = 2 → s1 = { s with c := s.c + 1#16 } →
      (∀ t, exec (.execute op) s = .next t ↔ exec i s1 = .next t) ∧
      (∀ f, (∀ ia, f ≠ .divideByZero ia) → (∀ n ia, f ≠ .shiftOutOfRange n ia) →
        (exec (.execute op) s = .fault f ↔ exec i s1 = .fault f)) ∧
      (∀ ia, exec (.execute op) s = .fault (.divideByZero ia) ↔
        ia = s.c ∧ exec i s1 = .fault (.divideByZero (s.c + 1#16))) ∧
      (∀ n ia, exec (.execute op) s = .fault (.shiftOutOfRange n ia) ↔
        ia = s.c ∧ exec i s1 = .fault (.shiftOutOfRange n (s.c + 1#16))))

/-- Execute completes (41_cycle_primary.md R148): through any operand that decodes to 22 it ends the run, through any that
decodes to 3 it complements `A`, and through any that decodes to 8 it adds. -/
def Obligations.ExecuteCompletesThroughAnyOperand : Prop :=
  ∀ (s : State) (op : Operand) (d : Word), s.operandValue op = .ok d →
    (u16 d = 22 → exec (.execute op) s = .next { s.atOperand op d with status := .halted 0 }) ∧
    (u16 d = 3 → ∀ x, s.a = .word x →
      exec (.execute op) s = .next { s.atOperand op d with a := .word (BitVec.ofNat 16 (65535 - u16 x)) }) ∧
    (u16 d = 8 → ∀ x y, s.a = .word x → s.b = .word y →
      exec (.execute op) s = .next { s.atOperand op d with a := .word (BitVec.ofNat 16 (u16 y + u16 x)) })

/-! ### The ALU -/

/-- 42_builtins_alu.md R171: the binary builtins read `B` first and then `A`; when one goes on, only `A` differs from the
state after decode, so `B` keeps its value. -/
def Obligations.BinaryBuiltinsReadBThenAAndWriteOnlyA : Prop :=
  ∀ i : Instr, (∃ id, i.builtinId? = some id ∧ 5 ≤ id ∧ id ≤ 21) →
    NeedsBThenA i ∧
    ∀ (s t : State) (id : Nat), i.builtinId? = some id → exec i s = .next t →
      t = { s.atBuiltin id with a := t.a } ∧ t.b = s.b

/-- 42_builtins_alu.md R172. -/
def Obligations.LoadindReadsTheWordAtA : Prop :=
  IsBuiltinWord 0xE001#16 .x1 ∧ NeedsA .x1 ∧
  ∀ (s : State) (x : Word), s.a = .word x →
    (u16 x ≤ 32766 → exec .x1 s = .next { s.atBuiltin 1 with a := .word (s.mem.read (u16 x)) }) ∧
    (32766 < u16 x → exec .x1 s = .fault (.storeOutOfRange (u16 x)))

/-- 42_builtins_alu.md R173, R174: the two's complement negation and the bitwise complement, as numbers. -/
def Obligations.NegAndNotComplementA : Prop :=
  IsBuiltinWord 0xE002#16 .x2 ∧ IsBuiltinWord 0xE003#16 .x3 ∧ NeedsA .x2 ∧ NeedsA .x3 ∧
  ∀ (s : State) (x : Word), s.a = .word x →
    exec .x2 s = .next { s.atBuiltin 2 with a := .word (BitVec.ofNat 16 ((65536 - u16 x) % 65536)) } ∧
    exec .x3 s = .next { s.atBuiltin 3 with a := .word (BitVec.ofNat 16 (65535 - u16 x)) }

/-- 42_builtins_alu.md R175, R179, R180, R170: product, sum and difference wrap, and their bits are the same whether the
operands are read signed or unsigned: here unsigned. -/
def Obligations.MulAddSubWrapAround : Prop :=
  IsBuiltinWord 0xE005#16 .x5 ∧ IsBuiltinWord 0xE008#16 .x8 ∧ IsBuiltinWord 0xE009#16 .x9 ∧
  NeedsBThenA .x5 ∧ NeedsBThenA .x8 ∧ NeedsBThenA .x9 ∧
  ∀ (s : State) (x y : Word), s.a = .word x → s.b = .word y →
    exec .x5 s = .next { s.atBuiltin 5 with a := .word (BitVec.ofNat 16 (u16 y * u16 x % 65536)) } ∧
    exec .x8 s = .next { s.atBuiltin 8 with a := .word (BitVec.ofNat 16 ((u16 y + u16 x) % 65536)) } ∧
    exec .x9 s = .next { s.atBuiltin 9 with a := .word (BitVec.ofNat 16 ((u16 y + 65536 - u16 x) % 65536)) }

/-- 42_builtins_alu.md R176, R177, R178: X6 and X7 leave the quotient and the remainder, reduced to 16 bits, that the dividend,
the divisor and R177's conditions determine; a divisor of zero faults. -/
def Obligations.DivAndRemTruncateTowardZero : Prop :=
  IsBuiltinWord 0xE006#16 .x6 ∧ IsBuiltinWord 0xE007#16 .x7 ∧ NeedsBThenA .x6 ∧ NeedsBThenA .x7 ∧
  ∀ (s : State) (x y : Word), s.a = .word x → s.b = .word y →
    (s16 x = 0 → exec .x6 s = .fault (.divideByZero s.c) ∧ exec .x7 s = .fault (.divideByZero s.c)) ∧
    (s16 x ≠ 0 → ∃ q r : Int, s16 y = s16 x * q + r ∧ |r| < |s16 x| ∧ (r = 0 ∨ (0 < r ↔ 0 < s16 y)) ∧
      exec .x6 s = .next { s.atBuiltin 6 with a := .word (BitVec.ofInt 16 q) } ∧
      exec .x7 s = .next { s.atBuiltin 7 with a := .word (BitVec.ofInt 16 r) })

/-- 42_builtins_alu.md R181 to R187: the relational builtins compare signed, `B` on the left, and leave all ones or zero. -/
def Obligations.RelationalBuiltinsLeaveAllOnesOrZero : Prop :=
  IsBuiltinWord 0xE00A#16 .x10 ∧ IsBuiltinWord 0xE00B#16 .x11 ∧ IsBuiltinWord 0xE00C#16 .x12 ∧
  IsBuiltinWord 0xE00D#16 .x13 ∧ IsBuiltinWord 0xE00E#16 .x14 ∧ IsBuiltinWord 0xE00F#16 .x15 ∧
  (∀ i ∈ [Instr.x10, .x11, .x12, .x13, .x14, .x15], NeedsBThenA i) ∧
  ∀ (s : State) (x y : Word), s.a = .word x → s.b = .word y →
    exec .x10 s = .next { s.atBuiltin 10 with a := .word (if y = x then 0xFFFF#16 else 0#16) } ∧
    exec .x11 s = .next { s.atBuiltin 11 with a := .word (if y = x then 0#16 else 0xFFFF#16) } ∧
    exec .x12 s = .next { s.atBuiltin 12 with a := .word (if s16 y < s16 x then 0xFFFF#16 else 0#16) } ∧
    exec .x13 s = .next { s.atBuiltin 13 with a := .word (if s16 y < s16 x then 0#16 else 0xFFFF#16) } ∧
    exec .x14 s = .next { s.atBuiltin 14 with a := .word (if s16 x < s16 y then 0xFFFF#16 else 0#16) } ∧
    exec .x15 s = .next { s.atBuiltin 15 with a := .word (if s16 x < s16 y then 0#16 else 0xFFFF#16) }

/-- 42_builtins_alu.md R188, R189, R190, bit by bit: a left shift fills with zeros at bit 0; a right shift fills at bit 15 with
zeros when SHR_KIND is logical and with copies of bit 15 when it is arithmetic; a count outside 0 to 15 faults. -/
def Obligations.ShiftsMoveTheBitsOfB : Prop :=
  IsBuiltinWord 0xE010#16 .x16 ∧ IsBuiltinWord 0xE011#16 .x17 ∧ NeedsBThenA .x16 ∧ NeedsBThenA .x17 ∧
  ∀ (s : State) (x y : Word), s.a = .word x → s.b = .word y →
    (s16 x < 0 ∨ 15 < s16 x → exec .x16 s = .fault (.shiftOutOfRange (s16 x) s.c) ∧
      exec .x17 s = .fault (.shiftOutOfRange (s16 x) s.c)) ∧
    (∀ n : Nat, s16 x = n → n ≤ 15 → ∃ l r : Word,
      exec .x16 s = .next { s.atBuiltin 16 with a := .word l } ∧
      exec .x17 s = .next { s.atBuiltin 17 with a := .word r } ∧
      ∀ k, k < 16 →
        l.getLsbD k = (decide (n ≤ k) && y.getLsbD (k - n)) ∧
        r.getLsbD k = if k + n < 16 then y.getLsbD (k + n) else (s.shrKind == .arithmetic && y.getLsbD 15))

/-- 42_builtins_alu.md R191 to R194, bit by bit. -/
def Obligations.BitwiseBuiltinsActOnEachBit : Prop :=
  IsBuiltinWord 0xE012#16 .x18 ∧ IsBuiltinWord 0xE013#16 .x19 ∧ IsBuiltinWord 0xE014#16 .x20 ∧ IsBuiltinWord 0xE015#16 .x21 ∧
  (∀ i ∈ [Instr.x18, .x19, .x20, .x21], NeedsBThenA i) ∧
  ∀ (s : State) (x y : Word), s.a = .word x → s.b = .word y →
    ∃ r18 r19 r20 r21 : Word,
      exec .x18 s = .next { s.atBuiltin 18 with a := .word r18 } ∧
      exec .x19 s = .next { s.atBuiltin 19 with a := .word r19 } ∧
      exec .x20 s = .next { s.atBuiltin 20 with a := .word r20 } ∧
      exec .x21 s = .next { s.atBuiltin 21 with a := .word r21 } ∧
      ∀ k, k < 16 →
        r18.getLsbD k = (y.getLsbD k && x.getLsbD k) ∧ r19.getLsbD k = (y.getLsbD k || x.getLsbD k) ∧
        r20.getLsbD k = (y.getLsbD k != x.getLsbD k) ∧ r21.getLsbD k = (y.getLsbD k == x.getLsbD k)

/-! ### Control and frames -/

/-- 43_builtins_control.md R200: both slots are read before either register is written, slot 0 first. -/
def Obligations.RtnPopsTheFrame : Prop :=
  IsBuiltinWord 0xE004#16 .x4 ∧
  ∀ s : State,
    (32766 < u16 s.p → exec .x4 s = .fault (.storeOutOfRange (u16 s.p))) ∧
    (u16 s.p = 32766 → exec .x4 s = .fault (.storeOutOfRange 32767)) ∧
    (u16 s.p < 32766 →
      exec .x4 s = .next { s.atBuiltin 4 with p := s.mem.read (u16 s.p), c := s.mem.read (u16 s.p + 1) })

/-- 43_builtins_control.md R201, R203: the two halts; X22 reads no register. -/
def Obligations.HaltsCarryTheirCode : Prop :=
  IsBuiltinWord 0xE016#16 .x22 ∧ IsBuiltinWord 0xE01E#16 .x30 ∧ NeedsA .x30 ∧
  (∀ s : State, exec .x22 s = .next { s.atBuiltin 22 with status := .halted 0 }) ∧
  ∀ (s : State) (x : Word), s.a = .word x →
    exec .x30 s = .next { s.atBuiltin 30 with
      status := .halted (if u16 x < 32768 then (u16 x : Int) else (u16 x : Int) - 65536) }

/-- 43_builtins_control.md R202. The table is at the word after the X23, at `c`: the count `n`, the default target, then `n`
pairs; table words are at `w16` sums. The first pair whose value is `A` gives the target; with none, the default is taken;
words beyond the pair that matches are not read; the first word read that is out of range faults. -/
def Obligations.SwitchonTakesTheFirstMatch : Prop :=
  IsBuiltinWord 0xE017#16 .x23 ∧ NeedsA .x23 ∧
  ∀ (s : State) (x c : Word) (at_ : Nat → Nat) (n : Nat), s.a = .word x → c = s.c + 1#16 →
    (∀ k, at_ k = (u16 c + k) % 65536) → n = u16 (s.mem.read (at_ 0)) →
    (32766 < at_ 0 → exec .x23 s = .fault (.storeOutOfRange (at_ 0))) ∧
    (at_ 0 ≤ 32766 → 32766 < at_ 1 → exec .x23 s = .fault (.storeOutOfRange (at_ 1))) ∧
    (at_ 0 ≤ 32766 → at_ 1 ≤ 32766 →
      (∀ k, k < n → at_ (2 + 2 * k) ≤ 32766 ∧ s.mem.read (at_ (2 + 2 * k)) ≠ x) →
      exec .x23 s = .next { s.atBuiltin 23 with
        d := .word (s.mem.read (at_ 1)), b := .unwritten, c := s.mem.read (at_ 1) }) ∧
    (∀ j, j < n → at_ 0 ≤ 32766 → at_ 1 ≤ 32766 →
      (∀ k, k < j → at_ (2 + 2 * k) ≤ 32766 ∧ s.mem.read (at_ (2 + 2 * k)) ≠ x) →
      (32766 < at_ (2 + 2 * j) → exec .x23 s = .fault (.storeOutOfRange (at_ (2 + 2 * j)))) ∧
      (at_ (2 + 2 * j) ≤ 32766 → s.mem.read (at_ (2 + 2 * j)) = x → 32766 < at_ (3 + 2 * j) →
        exec .x23 s = .fault (.storeOutOfRange (at_ (3 + 2 * j)))) ∧
      (at_ (2 + 2 * j) ≤ 32766 → s.mem.read (at_ (2 + 2 * j)) = x → at_ (3 + 2 * j) ≤ 32766 →
        exec .x23 s = .next { s.atBuiltin 23 with
          d := .word (s.mem.read (at_ (3 + 2 * j))), b := .unwritten, c := s.mem.read (at_ (3 + 2 * j)) }))

/-- 43_builtins_control.md R204, R205: X31 reads slot 0 of the current frame; X32 sets `P` from `A` and `C` from `B`, reading
`A` first and no store word. -/
def Obligations.LevelAndLongjumpMoveFrames : Prop :=
  IsBuiltinWord 0xE01F#16 .x31 ∧ IsBuiltinWord 0xE020#16 .x32 ∧ NeedsAThenB .x32 ∧
  (∀ s : State,
    (u16 s.p ≤ 32766 → exec .x31 s = .next { s.atBuiltin 31 with a := .word (s.mem.read (u16 s.p)) }) ∧
    (32766 < u16 s.p → exec .x31 s = .fault (.storeOutOfRange (u16 s.p)))) ∧
  ∀ (s : State) (x y : Word), s.a = .word x → s.b = .word y →
    exec .x32 s = .next { s.atBuiltin 32 with p := x, c := y }

/-- 43_builtins_control.md R206: the new frame is at `P + B + 1`; slots 0 and 1 are copies of the current frame's slots, read
before any write, slot 2 is the old `P` and slot 3 the count; the first of the six store accesses that is out of range
faults. -/
def Obligations.AptovecBuildsAVectorFrame : Prop :=
  IsBuiltinWord 0xE023#16 .x35 ∧ NeedsAThenB .x35 ∧
  ∀ (s : State) (x nb : Word) (d p1 : Nat), s.mem.wf = true → s.a = .word x → s.b = .word nb →
    d = (u16 s.p + u16 nb + 1) % 65536 → p1 = (u16 s.p + 1) % 65536 →
    (∀ addr, [u16 s.p, p1, d, (d + 1) % 65536, (d + 2) % 65536, (d + 3) % 65536].find? (fun a => decide (32766 < a)) =
        some addr → exec .x35 s = .fault (.storeOutOfRange addr)) ∧
    (u16 s.p ≤ 32766 → p1 ≤ 32766 → d + 3 ≤ 32766 →
      ∃ t, exec .x35 s = .next t ∧
        t = { s.atBuiltin 35 with p := BitVec.ofNat 16 d, c := x, mem := t.mem } ∧
        t.mem.read d = s.mem.read (u16 s.p) ∧ t.mem.read (d + 1) = s.mem.read p1 ∧
        t.mem.read (d + 2) = s.p ∧ t.mem.read (d + 3) = nb ∧
        ∀ addr, (addr < d ∨ d + 3 < addr) → t.mem.read addr = s.mem.read addr)

/-- 43_builtins_control.md R207: the string at `A` is read, then slot 1 of the current frame; the run ends in Panicked. -/
def Obligations.PanicReportsTheStringAndTheCaller : Prop :=
  IsBuiltinWord 0xE026#16 .x38 ∧ NeedsA .x38 ∧
  ∀ (s : State) (x : Word) (p1 : Nat), s.a = .word x → p1 = (u16 s.p + 1) % 65536 →
    (∀ f, s.readString x = .error f → exec .x38 s = .fault f) ∧
    (∀ msg, s.readString x = .ok msg →
      (32766 < p1 → exec .x38 s = .fault (.storeOutOfRange p1)) ∧
      (p1 ≤ 32766 → exec .x38 s = .next { s.atBuiltin 38 with status := .panicked msg (s.mem.read p1) }))

/-! ### I/O -/

/-- 44_builtins_io.md R233, R234, R235: the selects store the number unchecked. -/
def Obligations.SelectsStoreTheSlotUnchecked : Prop :=
  IsBuiltinWord 0xE018#16 .x24 ∧ IsBuiltinWord 0xE019#16 .x25 ∧ NeedsA .x24 ∧ NeedsA .x25 ∧
  ∀ (s : State) (x : Word), s.a = .word x →
    exec .x24 s = .next { s.atBuiltin 24 with selectedInput := x } ∧
    exec .x25 s = .next { s.atBuiltin 25 with selectedOutput := x }

/-- 44_builtins_io.md R232, R236: a slot number resolves for input to stdin or to a stream opened in, for output to stdout,
stderr or a stream opened out, each with its own handle; every other number faults NoStream with that number. -/
def Obligations.StreamsResolveByDirection : Prop :=
  ∀ (table : List Slot) (s : Nat),
    (∀ h, inStream table s = .ok h ↔
      (table[s]? = some (.std .stdin) ∧ h = .std .stdin) ∨ ∃ n, table[s]? = some (.opened n .input) ∧ h = .file n) ∧
    (∀ f, inStream table s = .error f → f = .noStream s) ∧
    (∀ h, outStream table s = .ok h ↔
      (table[s]? = some (.std .stdout) ∧ h = .std .stdout) ∨ (table[s]? = some (.std .stderr) ∧ h = .std .stderr) ∨
        ∃ n, table[s]? = some (.opened n .output) ∧ h = .file n) ∧
    (∀ f, outStream table s = .error f → f = .noStream s)

/-- 44_builtins_io.md R237, R239, R230: X26 makes exactly one HostRead on the selected input stream: a byte is zero-extended,
end of input gives 0xFFFF, a call that never answers leaves the machine stuck (60_exceptions.md R272), and an answer the
launch does not list is some byte or end of input (a free value; that the call then always returns is the model's choice,
log entry 5). With no such stream it faults. -/
def Obligations.RdchReadsOneByte : Prop :=
  IsBuiltinWord 0xE01A#16 .x26 ∧
  ∀ s : State, (∀ f, inStream s.table (u16 s.selectedInput) = .error f → exec .x26 s = .fault f) ∧
  ∀ h, inStream s.table (u16 s.selectedInput) = .ok h →
    (∀ b rest, s.host.reads = .byte b :: rest →
      exec .x26 s = .next { s.atBuiltin 26 with
        a := .word (BitVec.ofNat 16 b.toNat)
        host := { s.host with reads := rest, calls := s.host.calls ++ [.read h (some b)] } }) ∧
    (∀ rest, s.host.reads = .eof :: rest →
      exec .x26 s = .next { s.atBuiltin 26 with
        a := .word 0xFFFF#16
        host := { s.host with reads := rest, calls := s.host.calls ++ [.read h none] } }) ∧
    (∀ rest, s.host.reads = .never :: rest → exec .x26 s = .fault .stuckInHostCall) ∧
    (s.host.reads = [] → ∃ r : Option Byte,
      exec .x26 s = .next { s.atBuiltin 26 with
        a := .word (match r with | some b => BitVec.ofNat 16 b.toNat | none => 0xFFFF#16)
        host := { s.host with draws := s.host.draws + 1, calls := s.host.calls ++ [.read h r] } })

/-- 44_builtins_io.md R238, R239: X27 makes exactly one HostWrite, of the low byte of `A`, on the selected output stream; it is
stuck when the call never answers (60_exceptions.md R272); that a call with no listed answer returns is the model's choice (log
entry 5). With no such stream it faults, once `A` is read. -/
def Obligations.WrchWritesTheLowByte : Prop :=
  IsBuiltinWord 0xE01B#16 .x27 ∧ NeedsA .x27 ∧
  ∀ (s : State) (x : Word), s.a = .word x →
  (∀ f, outStream s.table (u16 s.selectedOutput) = .error f → exec .x27 s = .fault f) ∧
  ∀ h, outStream s.table (u16 s.selectedOutput) = .ok h →
    (∀ rest, s.host.writes = .never :: rest → exec .x27 s = .fault .stuckInHostCall) ∧
    ((∀ rest, s.host.writes ≠ .never :: rest) →
      exec .x27 s = .next { s.atBuiltin 27 with
        host := { s.host with
          writes := s.host.writes.tail
          calls := s.host.calls ++ [.write h (BitVec.ofNat 8 (u16 x % 256))] } })

/-- 44_builtins_io.md R241, R242, R243: X28 and X29 of a standard name give its slot, 1, 2 or 3, whatever that slot holds now,
with no host call and no change of the table; reading the name outside the store faults. -/
def Obligations.StandardNamesGiveTheirSlots : Prop :=
  IsBuiltinWord 0xE01C#16 .x28 ∧ IsBuiltinWord 0xE01D#16 .x29 ∧ NeedsA .x28 ∧ NeedsA .x29 ∧
  ∀ (s : State) (x : Word), s.a = .word x →
    (∀ f, s.readString x = .error f → exec .x28 s = .fault f ∧ exec .x29 s = .fault f) ∧
    (∀ name slot, (name, slot) ∈ standardNames → s.readString x = .ok name →
      exec .x28 s = .next { s.atBuiltin 28 with a := .word slot } ∧
      exec .x29 s = .next { s.atBuiltin 29 with a := .word slot })

/-- 44_builtins_io.md R240, R241, R242, R243: X28 and X29 of any other name make one HostOpen, in for X28 and out for X29. A failure
gives 0. A success puts the stream, with a fresh handle, into the least free slot from 1 on, or into a new slot when none is
free, and gives the slot's number; it faults when the new slot would pass MAX_SLOT. With no answer listed, the open goes as
a listed success or a listed failure would: which of the two is a free value (R230), that the call then always returns is
the model's choice (log entry 5), and the handle's number is the model's (log entry 6). -/
def Obligations.FindOpensIntoTheLeastFreeSlot : Prop :=
  ∀ (i : Instr) (id : Nat) (dir : Dir), (i, id, dir) ∈ [(Instr.x28, 28, Dir.input), (.x29, 29, .output)] →
  ∀ (s : State) (x : Word) (name : List Byte), s.a = .word x → s.readString x = .ok name → (∀ slot, (name, slot) ∉ standardNames) →
    (∀ rest, s.host.opens = .never :: rest → exec i s = .fault .stuckInHostCall) ∧
    (∀ rest, s.host.opens = .fail :: rest →
      exec i s = .next { s.atBuiltin id with
        a := .word 0#16
        host := { s.host with opens := rest, calls := s.host.calls ++ [.openFile name dir none] } }) ∧
    (∀ rest host, s.host.opens = .ok :: rest →
      host = { s.host with
        opens := rest
        nextHandle := s.host.nextHandle + 1
        calls := s.host.calls ++ [.openFile name dir (some (.file s.host.nextHandle))] } →
      (∀ k, 1 ≤ k → s.table[k]? = some .free → (∀ j, 1 ≤ j → j < k → s.table[j]? ≠ some .free) →
        exec i s = .next { s.atBuiltin id with
          a := .word (BitVec.ofNat 16 k), table := s.table.set k (.opened s.host.nextHandle dir), host := host }) ∧
      ((∀ k, 1 ≤ k → s.table[k]? ≠ some .free) →
        (32767 < s.table.length → exec i s = .fault (.slotOverflow s.table.length)) ∧
        (s.table.length ≤ 32767 →
          exec i s = .next { s.atBuiltin id with
            a := .word (BitVec.ofNat 16 s.table.length)
            table := s.table ++ [.opened s.host.nextHandle dir]
            host := host }))) ∧
    (s.host.opens = [] → ∃ answer, (answer = .ok ∨ answer = .fail) ∧
      exec i s = exec i { s with host := { s.host with draws := s.host.draws + 1, opens := [answer] } })

/-- 44_builtins_io.md R244, R245: a close tells the host, frees the slot, standard streams included, and deselects; the table
keeps its length. With no stream of the direction selected it faults. -/
def Obligations.ClosesFreeTheSelectedSlot : Prop :=
  IsBuiltinWord 0xE021#16 .x33 ∧ IsBuiltinWord 0xE022#16 .x34 ∧
  ∀ s : State,
    (∀ f, inStream s.table (u16 s.selectedInput) = .error f → exec .x33 s = .fault f) ∧
    (∀ f, outStream s.table (u16 s.selectedOutput) = .error f → exec .x34 s = .fault f) ∧
    (∀ h, inStream s.table (u16 s.selectedInput) = .ok h →
      exec .x33 s = .next { s.atBuiltin 33 with
        table := s.table.set (u16 s.selectedInput) .free
        selectedInput := 0#16
        host := { s.host with calls := s.host.calls ++ [.close h] } }) ∧
    (∀ h, outStream s.table (u16 s.selectedOutput) = .ok h →
      exec .x34 s = .next { s.atBuiltin 34 with
        table := s.table.set (u16 s.selectedOutput) .free
        selectedOutput := 0#16
        host := { s.host with calls := s.host.calls ++ [.close h] } })

/-- 44_builtins_io.md R249: closing a slot frees it for the next open: after an X33 or X34 of slot `k`, with no lower slot
from 1 on free, the next successful X28 or X29 of a non-standard name takes `k`, in any state `u` whose file table is still
as the close left it. An open that goes on either fails, with `A` 0 and the table as it was, or takes `k`; it does go on
when the host answers it with a success. -/
def Obligations.ClosedSlotIsReusedByTheNextOpen : Prop :=
  ∀ (closing opening : Instr) (dir : Dir) (s t u : State) (k : Nat) (x : Word) (name : List Byte) (table : List Slot),
    ((closing = .x33 ∧ k = u16 s.selectedInput) ∨ (closing = .x34 ∧ k = u16 s.selectedOutput)) →
    ((opening = .x28 ∧ dir = .input) ∨ (opening = .x29 ∧ dir = .output)) →
    1 ≤ k → (∀ j, 1 ≤ j → j < k → s.table[j]? ≠ some .free) → exec closing s = .next t →
    u.table = t.table → u.a = .word x → u.readString x = .ok name → (∀ slot, (name, slot) ∉ standardNames) →
    table = u.table.set k (.opened u.host.nextHandle dir) →
    (∀ v, exec opening u = .next v →
      (v.a = .word 0#16 ∧ v.table = u.table) ∨ (v.a = .word (BitVec.ofNat 16 k) ∧ v.table = table)) ∧
    (∀ rest, u.host.opens = .ok :: rest →
      ∃ v, exec opening u = .next v ∧ v.a = .word (BitVec.ofNat 16 k) ∧ v.table = table)

/-- 20_memory.md R56: a length-prefixed string is the bytes after its length byte, most significant first in each word; when
the string passes the end of the store, the first byte read outside it faults. -/
def Obligations.ReadStringTakesTheBytesAfterTheLength : Prop :=
  ∀ (s : State) (base : Word) (byteAt : Nat → Byte) (n : Nat),
    (∀ k, byteAt k = BitVec.ofNat 8
      (if k % 2 = 0 then u16 (s.mem.read (u16 base + k / 2)) / 256 else u16 (s.mem.read (u16 base + k / 2)) % 256)) →
    n = (byteAt 0).toNat →
    (32766 < u16 base → s.readString base = .error (.storeOutOfRange (u16 base))) ∧
    (u16 base ≤ 32766 → 32766 < u16 base + n / 2 → s.readString base = .error (.storeOutOfRange 32767)) ∧
    (u16 base + n / 2 ≤ 32766 → s.readString base = .ok ((List.range n).map fun k => byteAt (k + 1)))

/-- 44_builtins_io.md R247, 20_memory.md R55: byte `i` of the string at `A` is the high byte of its word when `i` is even and
the low byte when it is odd; the word address does not wrap. -/
def Obligations.GetbyteReadsMostSignificantFirst : Prop :=
  IsBuiltinWord 0xE024#16 .x36 ∧ NeedsAThenB .x36 ∧
  ∀ (s : State) (x i : Word) (wa : Nat), s.a = .word x → s.b = .word i → wa = u16 x + u16 i / 2 →
    (32766 < wa → exec .x36 s = .fault (.storeOutOfRange wa)) ∧
    (wa ≤ 32766 → exec .x36 s = .next { s.atBuiltin 36 with
      a := .word (BitVec.ofNat 16
        (if u16 i % 2 = 0 then u16 (s.mem.read wa) / 256 else u16 (s.mem.read wa) % 256)) })

/-- 44_builtins_io.md R248, 20_memory.md R55: X37 puts the low byte of frame slot 4 into byte `B` of the string at `A`; the other
byte of the word and every other word keep their values, and no register changes. -/
def Obligations.PutbyteChangesOneByte : Prop :=
  IsBuiltinWord 0xE025#16 .x37 ∧ NeedsAThenB .x37 ∧
  ∀ (s : State) (x i : Word) (wa p4 v : Nat), s.mem.wf = true → s.a = .word x → s.b = .word i →
    wa = u16 x + u16 i / 2 → p4 = (u16 s.p + 4) % 65536 → v = u16 (s.mem.read p4) % 256 →
    (32766 < p4 → exec .x37 s = .fault (.storeOutOfRange p4)) ∧
    (p4 ≤ 32766 → 32766 < wa → exec .x37 s = .fault (.storeOutOfRange wa)) ∧
    (p4 ≤ 32766 → wa ≤ 32766 →
      ∃ t, exec .x37 s = .next t ∧ t = { s.atBuiltin 37 with mem := t.mem } ∧
        u16 (t.mem.read wa) =
          (if u16 i % 2 = 0 then v * 256 + u16 (s.mem.read wa) % 256 else u16 (s.mem.read wa) / 256 * 256 + v) ∧
        ∀ addr, addr ≠ wa → t.mem.read addr = s.mem.read addr)

/-! ### The whole machine -/

/-- 10_state.md R26: no instruction writes `G`; nor does one write the launch parameter SHR_KIND. -/
def Obligations.NoInstructionWritesG : Prop :=
  ∀ (i : Instr) (s t : State), exec i s = .next t → t.g = s.g ∧ t.shrKind = s.shrKind

/-- 10_state.md R21, R24: which instructions write `A`, `B` and `P`, and that each one writes `D`. -/
def Obligations.OnlyTheirWritersChangeRegisters : Prop :=
  ∀ (i : Instr) (s t : State), exec i s = .next t →
    (t.a = s.a ∨ (∃ op, i = .load op) ∨ (∃ op, i = .add op) ∨
      s.performs i [1, 2, 3, 5, 6, 7, 8, 9, 10, 11, 12, 13, 14, 15, 16, 17, 18, 19, 20, 21, 26, 28, 29, 31, 36]) ∧
    (t.b = s.b ∨ (∃ op, i = .load op) ∨ (s.performs i [23] ∧ t.b = .unwritten)) ∧
    (t.p = s.p ∨ (∃ op, i = .call op) ∨ s.performs i [4, 32, 35]) ∧
    (∃ d, t.d = .word d)

/-- 10_state.md R23, R21: an instruction that goes on leaves `C` past its own words unless it is a jump, a Call, X4, X23, X32 or
X35. -/
def Obligations.SequentialInstructionsAdvanceC : Prop :=
  ∀ (i : Instr) (s t : State), exec i s = .next t →
    t.c = s.c + BitVec.ofNat 16 (encode i).length ∨ (∃ op, i = .jump op) ∨ (∃ op, i = .jumpTrue op) ∨
      (∃ op, i = .jumpFalse op) ∨ (∃ op, i = .call op) ∨ s.performs i [4, 23, 32, 35]

/-- 20_memory.md R51: only `S`, `K`, X35 and X37 write the store; every other instruction leaves every word as it was. -/
def Obligations.OnlyFourInstructionsWriteTheStore : Prop :=
  ∀ (i : Instr) (s t : State), exec i s = .next t →
    (∀ addr, t.mem.read addr = s.mem.read addr) ∨ (∃ op, i = .store op) ∨ (∃ op, i = .call op) ∨ s.performs i [35, 37]

/-- 10_state.md R27, 44_builtins_io.md R230, 43_builtins_control.md R201, R203, R207: only their builtins change the selected
slots, the file table, the host side and the run status. -/
def Obligations.OnlyTheirBuiltinsReachTheFileTableAndTheHost : Prop :=
  ∀ (i : Instr) (s t : State), exec i s = .next t →
    (t.selectedInput = s.selectedInput ∨ s.performs i [24, 33]) ∧
    (t.selectedOutput = s.selectedOutput ∨ s.performs i [25, 34]) ∧
    (t.table = s.table ∨ s.performs i [28, 29, 33, 34]) ∧
    (t.host = s.host ∨ s.performs i [26, 27, 28, 29, 33, 34]) ∧
    (t.status = s.status ∨ s.performs i [22, 30, 38])

/-- The invariant of Safety.lean holds at reset. -/
def Obligations.ResetMeetsTheInvariant : Prop := State.reset.Inv

/-- Every step keeps the invariant of Safety.lean: the store's canonical form (log entry 2), the file table's shape
(44_builtins_io.md R231, 10_state.md R28) and that a closed handle is never held again (R230, R246). -/
def Obligations.EveryStepKeepsTheInvariant : Prop :=
  ∀ s t : State, s.Inv → step s = .next t → t.Inv

/-- 44_builtins_io.md R230: in any state that meets the invariant, a step makes no host call with a handle that was closed, and
the handle of a successful open is none given before. -/
def Obligations.ClosedHandlesAreNeverUsedAgain : Prop :=
  ∀ s t : State, s.Inv → step s = .next t →
    ∃ new : List HostCall, t.host.calls = s.host.calls ++ new ∧ new.length ≤ 1 ∧
      ∀ call ∈ new,
        (∀ h r, call = .read h r → HostCall.close h ∉ s.host.calls) ∧
        (∀ h b, call = .write h b → HostCall.close h ∉ s.host.calls) ∧
        (∀ h, call = .close h → HostCall.close h ∉ s.host.calls) ∧
        (∀ name dir h, call = .openFile name dir (some h) →
          ∀ name' dir', HostCall.openFile name' dir' (some h) ∉ s.host.calls)

/-! ### The store -/

/-- 20_memory.md R58, R60: a read gives what the last write to the address left, and a write keeps the canonical form. -/
def Obligations.ReadGivesTheLastWrite : Prop :=
  ∀ (m : Memory) (a : Nat) (w : Word), m.wf = true → a ≤ 32766 →
    (m.write a w).wf = true ∧ (m.write a w).read a = w ∧ ∀ b, b ≠ a → (m.write a w).read b = m.read b

/-- Two stores in canonical form that read alike at every address are equal data (log entry 2). -/
def Obligations.CanonicalStoresThatReadAlikeAreEqual : Prop :=
  ∀ m m' : Memory, m.wf = true → m'.wf = true → (∀ a, a ≤ 32766 → m.read a = m'.read a) → m = m'

/-! ### Launch and assembler -/

/-- 40_encoder.md R125, R126, 10_state.md R33: a launch of the empty text, over any init_store draw and any host, with the
default `G_BASE`, gives the reset registers, the bootstrap at 512 to 528, 515 in every global slot, and the draw in every
other word of the store; with every default it is the state after reset, whose draw of 0 is the model's choice (log entry
3). -/
def Obligations.EmptyTextLaunchHoldsTheBootstrap : Prop :=
  Launch.start {} = .next State.reset ∧
  ∀ (drawn : Memory) (host : HostSide) (kind : ShrKind) (inp out : Word), drawn.wf = true →
    ∃ t, (Launch.start { drawn := drawn, host := host, shrKind := kind, initSelectedInput := inp, initSelectedOutput := out }) =
        .next t ∧
      t = { State.reset with
        mem := t.mem, host := host, shrKind := kind, selectedInput := inp, selectedOutput := out } ∧
      (∀ a, a < 512 → t.mem.read a = 515#16) ∧
      (∀ k, k < 17 → t.mem.read (512 + k) =
        [0x1401#16, 0xC002#16, 0xE016#16, 0x0200#16, 0x0206#16, 0xE026#16, 0x1455#16, 0x6E73#16, 0x6574#16, 0x2067#16,
          0x6C6F#16, 0x6261#16, 0x6C20#16, 0x6361#16, 0x6C6C#16, 0x6564#16, 0x2100#16].getD k 0#16) ∧
      ∀ a, 529 ≤ a → t.mem.read a = drawn.read a

/-- 10_state.md R33, 40_encoder.md R122: whatever the text, a launch that assembles gives the interpreter the reset state, but
for the store, the parameters, the host and `P`, which is past the bootstrap and at most one past the last word of the
store. The host is as the launch brings it, but that its diagnostic stream has received what the assembly sent (R119). That
state meets the invariant when the draw is canonical and no host call was made before. -/
def Obligations.LaunchedStatesMeetTheInvariant : Prop :=
  ∀ (l : Launch) (t : State), l.drawn.wf = true → l.host.calls = [] → l.start = .next t →
    t.Inv ∧ 529 ≤ u16 t.p ∧ u16 t.p ≤ 32767 ∧ l.host.diagnostics <+: t.host.diagnostics ∧
      t = { State.reset with
        p := t.p
        g := l.gBase
        mem := t.mem
        selectedInput := l.initSelectedInput
        selectedOutput := l.initSelectedOutput
        shrKind := l.shrKind
        host := { l.host with diagnostics := t.host.diagnostics } }

/-- 40_encoder.md R107: references to a label emitted before its definition and one emitted after it all end holding the
label's address, whatever the order: cells `early` refer to the label while it was never referenced, then it is defined at
`P`, then cell `late` refers to it. No other word changes. The cell 0 is left out: a chain cannot hold it (R105). -/
def Obligations.LabelReferencesResolveInAnyOrder : Prop :=
  ∀ (st : Asm) (n : Nat) (early : List Nat) (late : Nat),
    n < 512 → st.labels.length = 512 → st.label n = 0 → st.mem.wf = true → 0 < st.p → st.p ≤ 32767 →
    early.Nodup → (∀ a ∈ early, 0 < a ∧ a ≤ 32766) → late ≤ 32766 →
    ∃ st1 st2 st3, early.foldlM (fun (u : Asm) a => u.refLabel n a) st = .ok st1 ∧ st1.setLabel n = .ok st2 ∧
      st2.refLabel n late = .ok st3 ∧
      (∀ a ∈ late :: early, st3.mem.read a = BitVec.ofNat 16 st.p) ∧
      (∀ a, a ∉ late :: early → st3.mem.read a = st.mem.read a) ∧ st3.p = st.p

/-- 40_encoder.md R118, R117, R119, 60_exceptions.md R266: an assembly that does not fail reads its text to the end. A
diagnostic of any kind, once sent, stays sent through any further tokens, oldest first, whether they go on or stop the
assembly; and what an assembly has sent is what its launch adds to the host diagnostic stream, or reports with
AssemblyFailed. When the text begins with bytes that start no token, one BadChar for each of them comes before any other
diagnostic. -/
def Obligations.AssemblyReadsTheWholeText : Prop :=
  (∀ (g : Word) (drawn : Memory) (text : List Byte) (st : Asm), assemble g drawn text = .ok st → st.text = []) ∧
  (∀ (fuel : Nat) (st : Asm),
    (∀ st1, Asm.tokens fuel st = .ok st1 → st.diagnostics <+: st1.diagnostics) ∧
    (∀ stop, Asm.tokens fuel st = .error stop → st.diagnostics <+: stop.sent)) ∧
  (∀ l : Launch,
    (∀ st, assemble l.gBase l.drawn l.text = .ok st →
      ∃ t, l.start = .next t ∧ t.host.diagnostics = l.host.diagnostics ++ st.diagnostics) ∧
    (∀ stop, assemble l.gBase l.drawn l.text = .error stop →
      l.start = .refused (.assemblyFailed stop.reason stop.sent))) ∧
  ∀ (l : Launch) (bad rest : List Byte) (sent : List Diagnostic), l.drawn.wf = true → u16 l.gBase + 511 ≤ 32766 →
    l.text = bad ++ rest → (∀ ch ∈ bad, ch ∉ tokenStarts) → sent = List.replicate bad.length .badChar →
    (∀ t, l.start = .next t → l.host.diagnostics ++ sent <+: t.host.diagnostics) ∧
    (∀ f, l.start ≠ .fault f) ∧
    (∀ r, l.start = .refused r → ∃ reason all, r = .assemblyFailed reason all ∧ sent <+: all)

/-- 40_encoder.md R110, R111, 30_encoding.md R80: after an opcode letter, the flags `I`, `P`, `G` in that order and a number `v`
assemble to the words of the instruction with those flags: the short form exactly when `v` fits 9 bits. The words must fit in
the store: the short form may stand in its last word (R101). -/
def Obligations.AssembledInstructionsAreEncoded : Prop :=
  ∀ (st : Asm) (opcode : Nat) (i p g : Bool) (digits rest : List Byte) (v : Nat),
    opcode < 8 → st.mem.wf = true → v < 65536 → st.p + (if v < 512 then 1 else 2) ≤ 32767 →
    digits ≠ [] → (∀ ch ∈ digits, isDigit ch = true) → (∀ ch, rest.head? = some ch → isDigit ch = false) →
    v = digits.foldl (fun acc ch => 10 * acc + (ch.toNat - 48)) 0 →
    ∃ st1, st.instruction opcode
        ((if i then [0x49#8] else []) ++ (if p then [0x50#8] else []) ++ (if g then [0x47#8] else []) ++ digits ++ rest) =
          .ok st1 ∧
      st1.text = rest ∧
      (v < 512 → st1.p = st.p + 1 ∧
        encodeOperand opcode ⟨i, p, g, .short (BitVec.ofNat 9 v)⟩ = [st1.mem.read st.p]) ∧
      (512 ≤ v → st1.p = st.p + 2 ∧
        encodeOperand opcode ⟨i, p, g, .long (BitVec.ofNat 16 v)⟩ = [st1.mem.read st.p, st1.mem.read (st.p + 1)]) ∧
      ∀ a, (a < st.p ∨ st1.p ≤ a) → st1.mem.read a = st.mem.read a
end

