-- ==== Sys2Proof/Laws/Memory.lean ====
section
/-! SUPPORT. The laws of the store: reading after writing, and the canonical form. -/

namespace Sys2Proof.Machine

/-- The canonical form above address `lo`, as a proposition that recursion and induction can follow. -/
def Memory.CanonAbove : Option Nat → Memory → Prop
  | _, [] => True
  | lo, (a, v) :: m => (∀ l, lo = some l → l < a) ∧ a < Config.storeWords ∧ v ≠ resetWord a ∧ Memory.CanonAbove (some a) m

theorem Memory.wf_iff (m : Memory) : m.wf = true ↔ Memory.CanonAbove none m := by
  have key : ∀ (m : Memory) (lo : Option Nat),
      (Memory.rising lo m = true ∧
        (m.all fun cell => decide (cell.1 < Config.storeWords) && decide (cell.2 ≠ resetWord cell.1)) = true) ↔
      Memory.CanonAbove lo m := by
    intro m
    induction m with
    | nil => intro lo; cases lo <;> simp [Memory.rising, Memory.CanonAbove]
    | cons cell m ih =>
      obtain ⟨a, v⟩ := cell
      intro lo
      have := ih (some a)
      cases lo <;> simp [Memory.rising, Memory.CanonAbove, ← this] <;> tauto
  simpa [Memory.wf] using key m none

theorem Memory.CanonAbove.mono {m : Memory} {lo : Nat} {lo' : Option Nat} (h : Memory.CanonAbove (some lo) m)
    (hlo : ∀ l, lo' = some l → l ≤ lo) : Memory.CanonAbove lo' m := by
  cases m with
  | nil => trivial
  | cons cell m =>
    obtain ⟨a, v⟩ := cell
    obtain ⟨h1, h2⟩ := h
    exact ⟨fun l hl => Nat.lt_of_le_of_lt (hlo l hl) (h1 lo rfl), h2⟩

/-- Below the listed addresses every word is what reset leaves. -/
theorem Memory.read_of_canonAbove {m : Memory} {lo a : Nat} (h : Memory.CanonAbove (some lo) m) (ha : a ≤ lo) :
    m.read a = resetWord a := by
  induction m generalizing lo with
  | nil => rfl
  | cons cell m ih =>
    obtain ⟨b, v⟩ := cell
    obtain ⟨h1, _, _, h4⟩ := h
    have hb := h1 lo rfl
    have hne : a ≠ b := by omega
    simp only [Memory.read, hne, if_false]
    exact ih h4 (by omega)

theorem Memory.write_canonAbove {m : Memory} {lo : Option Nat} (a : Nat) (w : Word) (h : Memory.CanonAbove lo m)
    (hlo : ∀ l, lo = some l → l < a) (ha : a < Config.storeWords) : Memory.CanonAbove lo (m.write a w) := by
  induction m generalizing lo with
  | nil =>
    by_cases hw : w = resetWord a
    · simp [Memory.write, hw, Memory.CanonAbove]
    · simp only [Memory.write, hw, if_false]
      exact ⟨hlo, ha, hw, trivial⟩
  | cons cell m ih =>
    obtain ⟨b, v⟩ := cell
    obtain ⟨h1, h2, h3, h4⟩ := h
    simp only [Memory.write]
    split
    · rename_i hab
      split
      · exact ⟨h1, h2, h3, h4⟩
      · rename_i hw
        exact ⟨hlo, ha, hw, fun l hl => by cases hl; exact hab, h2, h3, h4⟩
    · split
      · rename_i hab
        subst hab
        split
        · exact h4.mono fun l hl => Nat.le_of_lt (hlo l hl)
        · rename_i hw
          exact ⟨hlo, ha, hw, h4⟩
      · exact ⟨h1, h2, h3, ih h4 fun l hl => by cases hl; omega⟩

/-- Every write inside the store keeps the canonical form. -/
theorem Memory.write_wf {m : Memory} (h : m.wf = true) {a : Nat} (ha : a < Config.storeWords) (w : Word) :
    (m.write a w).wf = true := by
  rw [Memory.wf_iff] at h ⊢
  exact Memory.write_canonAbove a w h (by simp) ha

theorem Memory.read_write_canonAbove {m : Memory} {lo : Option Nat} (a : Nat) (w : Word) (h : Memory.CanonAbove lo m) (b : Nat) :
    (m.write a w).read b = if b = a then w else m.read b := by
  induction m generalizing lo with
  | nil =>
    by_cases hw : w = resetWord a <;> by_cases hb : b = a <;> simp [Memory.write, Memory.read, hw, hb]
  | cons cell m ih =>
    obtain ⟨c, v⟩ := cell
    obtain ⟨_, _, _, h4⟩ := h
    simp only [Memory.write]
    split
    · rename_i hac
      split
      · rename_i hw
        by_cases hb : b = a
        · subst hb
          have hne : b ≠ c := by omega
          simp [Memory.read, hne, hw, Memory.read_of_canonAbove h4 (by omega : b ≤ c)]
        · simp [hb]
      · by_cases hb : b = a <;> simp [Memory.read, hb]
    · split
      · rename_i hac
        subst hac
        split
        · rename_i hw
          by_cases hb : b = a
          · subst hb
            simp [hw, Memory.read_of_canonAbove h4 (Nat.le_refl b)]
          · simp [Memory.read, hb]
        · by_cases hb : b = a <;> simp [Memory.read, hb]
      · rename_i hac hne
        simp only [Memory.read, ih h4]
        by_cases hbc : b = c
        · have : b ≠ a := by omega
          simp [hbc, Ne.symm hne]
        · simp [hbc]

/-- Reading after writing, in a store in canonical form. -/
theorem Memory.read_write {m : Memory} (h : m.wf = true) (a : Nat) (w : Word) (b : Nat) :
    (m.write a w).read b = if b = a then w else m.read b :=
  Memory.read_write_canonAbove a w ((Memory.wf_iff m).1 h) b

theorem Memory.read_write_same {m : Memory} (h : m.wf = true) (a : Nat) (w : Word) : (m.write a w).read a = w := by
  simp [Memory.read_write h]

theorem Memory.read_write_other {m : Memory} (h : m.wf = true) {a b : Nat} (w : Word) (hb : b ≠ a) :
    (m.write a w).read b = m.read b := by
  simp [Memory.read_write h, hb]

theorem Memory.wf_nil : Memory.wf [] = true := rfl

/-! ### What a load and a store can do -/

theorem State.load_eq_ok {s : State} {addr : Nat} {w : Word} :
    s.load addr = .ok w ↔ addr < 32767 ∧ s.mem.read addr = w := by
  unfold State.load Config.storeWords
  split <;> simp_all

theorem State.load_eq_error {s : State} {addr : Nat} {f : Fault} :
    s.load addr = .error f ↔ 32767 ≤ addr ∧ f = .storeOutOfRange addr := by
  unfold State.load Config.storeWords
  split
  · simp; omega
  · simp [eq_comm]; omega

theorem State.load_in {s : State} {addr : Nat} (h : addr < 32767) : s.load addr = .ok (s.mem.read addr) :=
  State.load_eq_ok.2 ⟨h, rfl⟩

theorem State.load_out {s : State} {addr : Nat} (h : 32767 ≤ addr) : s.load addr = .error (.storeOutOfRange addr) :=
  State.load_eq_error.2 ⟨h, rfl⟩

theorem State.store_eq_ok {s t : State} {addr : Nat} {w : Word} :
    s.store addr w = .ok t ↔ addr < 32767 ∧ t = { s with mem := s.mem.write addr w } := by
  unfold State.store Config.storeWords
  split <;> simp_all [eq_comm]

theorem State.store_in {s : State} {addr : Nat} (w : Word) (h : addr < 32767) :
    s.store addr w = .ok { s with mem := s.mem.write addr w } :=
  State.store_eq_ok.2 ⟨h, rfl⟩

theorem State.store_out {s : State} {addr : Nat} (w : Word) (h : 32767 ≤ addr) :
    s.store addr w = .error (.storeOutOfRange addr) := by
  unfold State.store Config.storeWords
  rw [if_neg (by omega)]

end Sys2Proof.Machine
end

