-- ==== Sys2Proof/Laws/State.lean ====
section
/-! SUPPORT. One lemma per field per update of State, so that no proof unfolds a record update. -/

namespace Sys2Proof.Machine

section setA

variable (s : State) (w : Word)

@[simp] theorem State.setA_a : (s.setA w).a = .word w := rfl
@[simp] theorem State.setA_b : (s.setA w).b = s.b := rfl
@[simp] theorem State.setA_c : (s.setA w).c = s.c := rfl
@[simp] theorem State.setA_d : (s.setA w).d = s.d := rfl
@[simp] theorem State.setA_p : (s.setA w).p = s.p := rfl
@[simp] theorem State.setA_g : (s.setA w).g = s.g := rfl
@[simp] theorem State.setA_selectedInput : (s.setA w).selectedInput = s.selectedInput := rfl
@[simp] theorem State.setA_selectedOutput : (s.setA w).selectedOutput = s.selectedOutput := rfl
@[simp] theorem State.setA_table : (s.setA w).table = s.table := rfl
@[simp] theorem State.setA_mem : (s.setA w).mem = s.mem := rfl
@[simp] theorem State.setA_status : (s.setA w).status = s.status := rfl
@[simp] theorem State.setA_shrKind : (s.setA w).shrKind = s.shrKind := rfl
@[simp] theorem State.setA_host : (s.setA w).host = s.host := rfl

end setA

section setB

variable (s : State) (r : Reg)

@[simp] theorem State.setB_a : (s.setB r).a = s.a := rfl
@[simp] theorem State.setB_b : (s.setB r).b = r := rfl
@[simp] theorem State.setB_c : (s.setB r).c = s.c := rfl
@[simp] theorem State.setB_d : (s.setB r).d = s.d := rfl
@[simp] theorem State.setB_p : (s.setB r).p = s.p := rfl
@[simp] theorem State.setB_g : (s.setB r).g = s.g := rfl
@[simp] theorem State.setB_selectedInput : (s.setB r).selectedInput = s.selectedInput := rfl
@[simp] theorem State.setB_selectedOutput : (s.setB r).selectedOutput = s.selectedOutput := rfl
@[simp] theorem State.setB_table : (s.setB r).table = s.table := rfl
@[simp] theorem State.setB_mem : (s.setB r).mem = s.mem := rfl
@[simp] theorem State.setB_status : (s.setB r).status = s.status := rfl
@[simp] theorem State.setB_shrKind : (s.setB r).shrKind = s.shrKind := rfl
@[simp] theorem State.setB_host : (s.setB r).host = s.host := rfl

end setB

section setC

variable (s : State) (w : Word)

@[simp] theorem State.setC_a : (s.setC w).a = s.a := rfl
@[simp] theorem State.setC_b : (s.setC w).b = s.b := rfl
@[simp] theorem State.setC_c : (s.setC w).c = w := rfl
@[simp] theorem State.setC_d : (s.setC w).d = s.d := rfl
@[simp] theorem State.setC_p : (s.setC w).p = s.p := rfl
@[simp] theorem State.setC_g : (s.setC w).g = s.g := rfl
@[simp] theorem State.setC_selectedInput : (s.setC w).selectedInput = s.selectedInput := rfl
@[simp] theorem State.setC_selectedOutput : (s.setC w).selectedOutput = s.selectedOutput := rfl
@[simp] theorem State.setC_table : (s.setC w).table = s.table := rfl
@[simp] theorem State.setC_mem : (s.setC w).mem = s.mem := rfl
@[simp] theorem State.setC_status : (s.setC w).status = s.status := rfl
@[simp] theorem State.setC_shrKind : (s.setC w).shrKind = s.shrKind := rfl
@[simp] theorem State.setC_host : (s.setC w).host = s.host := rfl

end setC

section setD

variable (s : State) (w : Word)

@[simp] theorem State.setD_a : (s.setD w).a = s.a := rfl
@[simp] theorem State.setD_b : (s.setD w).b = s.b := rfl
@[simp] theorem State.setD_c : (s.setD w).c = s.c := rfl
@[simp] theorem State.setD_d : (s.setD w).d = .word w := rfl
@[simp] theorem State.setD_p : (s.setD w).p = s.p := rfl
@[simp] theorem State.setD_g : (s.setD w).g = s.g := rfl
@[simp] theorem State.setD_selectedInput : (s.setD w).selectedInput = s.selectedInput := rfl
@[simp] theorem State.setD_selectedOutput : (s.setD w).selectedOutput = s.selectedOutput := rfl
@[simp] theorem State.setD_table : (s.setD w).table = s.table := rfl
@[simp] theorem State.setD_mem : (s.setD w).mem = s.mem := rfl
@[simp] theorem State.setD_status : (s.setD w).status = s.status := rfl
@[simp] theorem State.setD_shrKind : (s.setD w).shrKind = s.shrKind := rfl
@[simp] theorem State.setD_host : (s.setD w).host = s.host := rfl

end setD

section setP

variable (s : State) (w : Word)

@[simp] theorem State.setP_a : (s.setP w).a = s.a := rfl
@[simp] theorem State.setP_b : (s.setP w).b = s.b := rfl
@[simp] theorem State.setP_c : (s.setP w).c = s.c := rfl
@[simp] theorem State.setP_d : (s.setP w).d = s.d := rfl
@[simp] theorem State.setP_p : (s.setP w).p = w := rfl
@[simp] theorem State.setP_g : (s.setP w).g = s.g := rfl
@[simp] theorem State.setP_selectedInput : (s.setP w).selectedInput = s.selectedInput := rfl
@[simp] theorem State.setP_selectedOutput : (s.setP w).selectedOutput = s.selectedOutput := rfl
@[simp] theorem State.setP_table : (s.setP w).table = s.table := rfl
@[simp] theorem State.setP_mem : (s.setP w).mem = s.mem := rfl
@[simp] theorem State.setP_status : (s.setP w).status = s.status := rfl
@[simp] theorem State.setP_shrKind : (s.setP w).shrKind = s.shrKind := rfl
@[simp] theorem State.setP_host : (s.setP w).host = s.host := rfl

end setP

section setSelectedInput

variable (s : State) (w : Word)

@[simp] theorem State.setSelectedInput_a : (s.setSelectedInput w).a = s.a := rfl
@[simp] theorem State.setSelectedInput_b : (s.setSelectedInput w).b = s.b := rfl
@[simp] theorem State.setSelectedInput_c : (s.setSelectedInput w).c = s.c := rfl
@[simp] theorem State.setSelectedInput_d : (s.setSelectedInput w).d = s.d := rfl
@[simp] theorem State.setSelectedInput_p : (s.setSelectedInput w).p = s.p := rfl
@[simp] theorem State.setSelectedInput_g : (s.setSelectedInput w).g = s.g := rfl
@[simp] theorem State.setSelectedInput_selectedInput : (s.setSelectedInput w).selectedInput = w := rfl
@[simp] theorem State.setSelectedInput_selectedOutput : (s.setSelectedInput w).selectedOutput = s.selectedOutput := rfl
@[simp] theorem State.setSelectedInput_table : (s.setSelectedInput w).table = s.table := rfl
@[simp] theorem State.setSelectedInput_mem : (s.setSelectedInput w).mem = s.mem := rfl
@[simp] theorem State.setSelectedInput_status : (s.setSelectedInput w).status = s.status := rfl
@[simp] theorem State.setSelectedInput_shrKind : (s.setSelectedInput w).shrKind = s.shrKind := rfl
@[simp] theorem State.setSelectedInput_host : (s.setSelectedInput w).host = s.host := rfl

end setSelectedInput

section setSelectedOutput

variable (s : State) (w : Word)

@[simp] theorem State.setSelectedOutput_a : (s.setSelectedOutput w).a = s.a := rfl
@[simp] theorem State.setSelectedOutput_b : (s.setSelectedOutput w).b = s.b := rfl
@[simp] theorem State.setSelectedOutput_c : (s.setSelectedOutput w).c = s.c := rfl
@[simp] theorem State.setSelectedOutput_d : (s.setSelectedOutput w).d = s.d := rfl
@[simp] theorem State.setSelectedOutput_p : (s.setSelectedOutput w).p = s.p := rfl
@[simp] theorem State.setSelectedOutput_g : (s.setSelectedOutput w).g = s.g := rfl
@[simp] theorem State.setSelectedOutput_selectedInput : (s.setSelectedOutput w).selectedInput = s.selectedInput := rfl
@[simp] theorem State.setSelectedOutput_selectedOutput : (s.setSelectedOutput w).selectedOutput = w := rfl
@[simp] theorem State.setSelectedOutput_table : (s.setSelectedOutput w).table = s.table := rfl
@[simp] theorem State.setSelectedOutput_mem : (s.setSelectedOutput w).mem = s.mem := rfl
@[simp] theorem State.setSelectedOutput_status : (s.setSelectedOutput w).status = s.status := rfl
@[simp] theorem State.setSelectedOutput_shrKind : (s.setSelectedOutput w).shrKind = s.shrKind := rfl
@[simp] theorem State.setSelectedOutput_host : (s.setSelectedOutput w).host = s.host := rfl

end setSelectedOutput

section setTable

variable (s : State) (t : List Slot)

@[simp] theorem State.setTable_a : (s.setTable t).a = s.a := rfl
@[simp] theorem State.setTable_b : (s.setTable t).b = s.b := rfl
@[simp] theorem State.setTable_c : (s.setTable t).c = s.c := rfl
@[simp] theorem State.setTable_d : (s.setTable t).d = s.d := rfl
@[simp] theorem State.setTable_p : (s.setTable t).p = s.p := rfl
@[simp] theorem State.setTable_g : (s.setTable t).g = s.g := rfl
@[simp] theorem State.setTable_selectedInput : (s.setTable t).selectedInput = s.selectedInput := rfl
@[simp] theorem State.setTable_selectedOutput : (s.setTable t).selectedOutput = s.selectedOutput := rfl
@[simp] theorem State.setTable_table : (s.setTable t).table = t := rfl
@[simp] theorem State.setTable_mem : (s.setTable t).mem = s.mem := rfl
@[simp] theorem State.setTable_status : (s.setTable t).status = s.status := rfl
@[simp] theorem State.setTable_shrKind : (s.setTable t).shrKind = s.shrKind := rfl
@[simp] theorem State.setTable_host : (s.setTable t).host = s.host := rfl

end setTable

section setHost

variable (s : State) (h : HostSide)

@[simp] theorem State.setHost_a : (s.setHost h).a = s.a := rfl
@[simp] theorem State.setHost_b : (s.setHost h).b = s.b := rfl
@[simp] theorem State.setHost_c : (s.setHost h).c = s.c := rfl
@[simp] theorem State.setHost_d : (s.setHost h).d = s.d := rfl
@[simp] theorem State.setHost_p : (s.setHost h).p = s.p := rfl
@[simp] theorem State.setHost_g : (s.setHost h).g = s.g := rfl
@[simp] theorem State.setHost_selectedInput : (s.setHost h).selectedInput = s.selectedInput := rfl
@[simp] theorem State.setHost_selectedOutput : (s.setHost h).selectedOutput = s.selectedOutput := rfl
@[simp] theorem State.setHost_table : (s.setHost h).table = s.table := rfl
@[simp] theorem State.setHost_mem : (s.setHost h).mem = s.mem := rfl
@[simp] theorem State.setHost_status : (s.setHost h).status = s.status := rfl
@[simp] theorem State.setHost_shrKind : (s.setHost h).shrKind = s.shrKind := rfl
@[simp] theorem State.setHost_host : (s.setHost h).host = h := rfl

end setHost

section halt

variable (s : State) (o : RunStatus)

@[simp] theorem State.halt_a : (s.halt o).a = s.a := rfl
@[simp] theorem State.halt_b : (s.halt o).b = s.b := rfl
@[simp] theorem State.halt_c : (s.halt o).c = s.c := rfl
@[simp] theorem State.halt_d : (s.halt o).d = s.d := rfl
@[simp] theorem State.halt_p : (s.halt o).p = s.p := rfl
@[simp] theorem State.halt_g : (s.halt o).g = s.g := rfl
@[simp] theorem State.halt_selectedInput : (s.halt o).selectedInput = s.selectedInput := rfl
@[simp] theorem State.halt_selectedOutput : (s.halt o).selectedOutput = s.selectedOutput := rfl
@[simp] theorem State.halt_table : (s.halt o).table = s.table := rfl
@[simp] theorem State.halt_mem : (s.halt o).mem = s.mem := rfl
@[simp] theorem State.halt_status : (s.halt o).status = o := rfl
@[simp] theorem State.halt_shrKind : (s.halt o).shrKind = s.shrKind := rfl
@[simp] theorem State.halt_host : (s.halt o).host = s.host := rfl

end halt

end Sys2Proof.Machine
end

