-- ==== Sys2Proof/Laws/Run.lean ====
section
/-! SUPPORT. How a run of operations answers: binding, reading registers, decoding the operand, and what each shared
operation can do. -/

namespace Sys2Proof.Machine

/-! ### Binding and finishing -/

@[simp] theorem ok_bind {ε α β : Type} (a : α) (f : α → Except ε β) : (Except.ok a >>= f) = f a := rfl

@[simp] theorem error_bind {ε α β : Type} (e : ε) (f : α → Except ε β) : (Except.error e >>= f) = .error e := rfl

@[simp] theorem pure_eq_ok {ε α : Type} (a : α) : (pure a : Except ε α) = .ok a := rfl

/-- A bound run that answers went through an answer of its first part. -/
theorem bind_eq_ok {ε α β : Type} {x : Except ε α} {f : α → Except ε β} {b : β} :
    (x >>= f) = .ok b ↔ ∃ a, x = .ok a ∧ f a = .ok b := by
  cases x <;> simp

@[simp] theorem finish_ok (s : State) : finish (.ok s) = .next s := rfl

@[simp] theorem finish_error (f : Fault) : finish (.error f) = .fault f := rfl

theorem finish_eq_next {r : Run State} {t : State} : finish r = .next t ↔ r = .ok t := by
  cases r <;> simp [finish]

theorem finish_eq_fault {r : Run State} {f : Fault} : finish r = .fault f ↔ r = .error f := by
  cases r <;> simp [finish]

/-! ### Registers -/

theorem State.valA_eq_ok {s : State} {w : Word} : s.valA = .ok w ↔ s.a = .word w := by
  unfold State.valA Reg.val
  cases s.a <;> simp

theorem State.valB_eq_ok {s : State} {w : Word} : s.valB = .ok w ↔ s.b = .word w := by
  unfold State.valB Reg.val
  cases s.b <;> simp

theorem State.valA_word {s : State} {w : Word} (h : s.a = .word w) : s.valA = .ok w := State.valA_eq_ok.2 h

theorem State.valB_word {s : State} {w : Word} (h : s.b = .word w) : s.valB = .ok w := State.valB_eq_ok.2 h

theorem State.valA_unwritten {s : State} (h : s.a = .unwritten) : s.valA = .error (.unwrittenRegister .A) := by
  simp [State.valA, Reg.val, h]

theorem State.valB_unwritten {s : State} (h : s.b = .unwritten) : s.valB = .error (.unwrittenRegister .B) := by
  simp [State.valB, Reg.val, h]

/-! ### Operand decode -/

/-- The state after fetch and decode: `C` past the instruction and `D` the operand. -/
def State.decoded (s : State) (op : Operand) (d : Word) : State := { s with c := s.pcAfter op.length, d := .word d }

theorem withOperand_ok {op : Operand} {s : State} {d : Word} (h : s.operandValue op = .ok d) (act : Word → State → Run State) :
    withOperand op s act = finish (act d (s.decoded op d)) := by
  simp [withOperand, State.decodeOperand, h, State.decoded, State.setC, State.setD]

theorem withOperand_error {op : Operand} {s : State} {f : Fault} (h : s.operandValue op = .error f)
    (act : Word → State → Run State) : withOperand op s act = .fault f := by
  simp [withOperand, State.decodeOperand, h]

/-- An instruction that goes on decoded its operand and its action answered. -/
theorem withOperand_eq_next {op : Operand} {s t : State} {act : Word → State → Run State} :
    withOperand op s act = .next t ↔ ∃ d, s.operandValue op = .ok d ∧ act d (s.decoded op d) = .ok t := by
  cases h : s.operandValue op with
  | error f => simp [withOperand_error h]
  | ok d => simp [withOperand_ok h, finish_eq_next]

theorem operandValue_builtin (s : State) (id : Nat) :
    s.operandValue (Operand.builtin id) = .ok ((BitVec.ofNat 9 id).setWidth 16) := rfl

/-- A builtin row acts on the state with `C` past its one word and `D` its id. -/
theorem withBuiltin_eq (id : Nat) (h : id < 512) (s : State) (act : State → Run State) :
    withBuiltin id s act = finish (act { s with c := s.c + 1#16, d := .word (BitVec.ofNat 16 id) }) := by
  have hd : (BitVec.ofNat 9 id).setWidth 16 = BitVec.ofNat 16 id := by
    apply BitVec.eq_of_toNat_eq
    simp only [BitVec.toNat_setWidth, BitVec.toNat_ofNat]
    omega
  unfold withBuiltin
  rw [withOperand_ok (operandValue_builtin s id), hd]
  rfl

/-! ### Shared shapes of the ALU builtins -/

theorem unary_eq_ok {f : Word → Word} {s t : State} :
    unary f s = .ok t ↔ ∃ a, s.a = .word a ∧ t = s.setA (f a) := by
  simp only [unary, bind_eq_ok, State.valA_eq_ok, pure_eq_ok, Except.ok.injEq, @eq_comm _ t]

theorem binary_eq_ok {f : Word → Word → Word} {s t : State} :
    binary f s = .ok t ↔ ∃ b, s.b = .word b ∧ ∃ a, s.a = .word a ∧ t = s.setA (f b a) := by
  simp only [binary, bind_eq_ok, State.valA_eq_ok, State.valB_eq_ok, pure_eq_ok, Except.ok.injEq, @eq_comm _ t]

theorem dividing_eq_ok {f : Word → Word → Word} {ia : Word} {s t : State} :
    dividing f ia s = .ok t ↔ ∃ b, s.b = .word b ∧ ∃ a, s.a = .word a ∧ a ≠ 0#16 ∧ t = s.setA (f b a) := by
  simp only [dividing, bind_eq_ok, State.valA_eq_ok, State.valB_eq_ok]
  constructor
  · rintro ⟨b, hb, a, ha, h⟩
    split at h <;> simp_all
  · rintro ⟨b, hb, a, ha, h0, h⟩
    exact ⟨b, hb, a, ha, by simp [h0, h]⟩

theorem shifting_eq_ok {f : Word → Nat → Word} {ia : Word} {s t : State} :
    shifting f ia s = .ok t ↔
      ∃ v, s.b = .word v ∧ ∃ n, s.a = .word n ∧ ¬ (s16 n < 0 ∨ 15 < s16 n) ∧ t = s.setA (f v (s16 n).toNat) := by
  simp only [shifting, bind_eq_ok, State.valA_eq_ok, State.valB_eq_ok]
  constructor
  · rintro ⟨v, hv, n, hn, h⟩
    split at h
    · simp at h
    · rename_i hr
      exact ⟨v, hv, n, hn, hr, by simpa using h.symm⟩
  · rintro ⟨v, hv, n, hn, hr, h⟩
    exact ⟨v, hv, n, hn, by rw [if_neg hr, h]; rfl⟩

/-- A dividing builtin stops for an UNWRITTEN register, `B` before `A`, or for a divisor of zero. -/
theorem dividing_eq_error {f : Word → Word → Word} {ia : Word} {s : State} {e : Fault} :
    dividing f ia s = .error e ↔
      (s.b = .unwritten ∧ e = .unwrittenRegister .B) ∨
        ∃ y, s.b = .word y ∧
          ((s.a = .unwritten ∧ e = .unwrittenRegister .A) ∨ (s.a = .word 0#16 ∧ e = .divideByZero ia)) := by
  unfold dividing State.valB State.valA Reg.val
  cases s.b with
  | unwritten => simp [@eq_comm _ e]
  | word y =>
    cases s.a with
    | unwritten => simp [@eq_comm _ e]
    | word x =>
      simp only [ok_bind]
      split <;> simp_all [@eq_comm _ e]

/-- A shifting builtin stops for an UNWRITTEN register, `B` before `A`, or for a count outside 0 to 15. -/
theorem shifting_eq_error {f : Word → Nat → Word} {ia : Word} {s : State} {e : Fault} :
    shifting f ia s = .error e ↔
      (s.b = .unwritten ∧ e = .unwrittenRegister .B) ∨
        ∃ y, s.b = .word y ∧
          ((s.a = .unwritten ∧ e = .unwrittenRegister .A) ∨
            ∃ x, s.a = .word x ∧ (s16 x < 0 ∨ 15 < s16 x) ∧ e = .shiftOutOfRange (s16 x) ia) := by
  unfold shifting State.valB State.valA Reg.val
  cases s.b with
  | unwritten => simp [@eq_comm _ e]
  | word y =>
    cases s.a with
    | unwritten => simp [@eq_comm _ e]
    | word x =>
      simp only [ok_bind]
      split <;> simp_all [@eq_comm _ e]

end Sys2Proof.Machine
end

