-- ==== Sys2Proof/Laws/Words.lean ====
section
/-! SUPPORT. Readings of a word, and the ALU's results as BitVec operations. -/

namespace Sys2Proof

@[simp] theorem u16_eq (v : Word) : u16 v = v.toNat := rfl

@[simp] theorem s16_eq (v : Word) : s16 v = v.toInt := rfl

theorem u16_lt (v : Word) : u16 v < 65536 := v.isLt

/-- Bit `k` of a word, arithmetically. -/
theorem getLsbD_eq_decide (w : Word) (k : Nat) : w.getLsbD k = decide (u16 w / 2 ^ k % 2 = 1) := by
  simp [BitVec.getLsbD, Nat.testBit, Nat.shiftRight_eq_div_pow, Nat.and_comm 1, Nat.and_one_is_mod]
  by_cases h : w.toNat / 2 ^ k % 2 = 1 <;> simp [h]

namespace Machine

theorem aluAdd_eq (b a : Word) : aluAdd b a = b + a := by
  simp [aluAdd, w16, BitVec.ofInt_add]

theorem aluSub_eq (b a : Word) : aluSub b a = b - a := by
  simp [aluSub, w16, Int.sub_eq_add_neg, BitVec.ofInt_add, BitVec.ofInt_neg, BitVec.sub_eq_add_neg]

theorem aluNeg_eq (a : Word) : aluNeg a = -a := by
  simp [aluNeg, w16, BitVec.ofInt_neg]

theorem aluMul_eq (b a : Word) : aluMul b a = b * a := by
  simp [aluMul, w16, BitVec.ofInt_mul]

theorem w16_natCast (n : Nat) : w16 (n : Int) = BitVec.ofNat 16 n := by
  simp [w16]

theorem shiftLeft_eq (v : Word) (n : Nat) : shiftLeft v n = v <<< n := by
  have h : shiftLeft v n = w16 ((v.toNat * 2 ^ n : Nat) : Int) := by simp [shiftLeft]
  rw [h, w16_natCast]
  apply BitVec.eq_of_toNat_eq
  simp [BitVec.toNat_shiftLeft, Nat.shiftLeft_eq]

theorem shiftRight_logical_eq (v : Word) (n : Nat) : shiftRight .logical v n = v >>> n := by
  rw [shiftRight, w16_natCast]
  apply BitVec.eq_of_toNat_eq
  have h : v.toNat / 2 ^ n ≤ v.toNat := Nat.div_le_self _ _
  rw [BitVec.toNat_ofNat, BitVec.toNat_ushiftRight, Nat.shiftRight_eq_div_pow]
  exact Nat.mod_eq_of_lt (Nat.lt_of_le_of_lt h v.isLt)

theorem shiftRight_arithmetic_eq (v : Word) (n : Nat) : shiftRight .arithmetic v n = v.sshiftRight n := by
  apply BitVec.eq_of_toInt_eq
  have hp : (1 : Int) ≤ 2 ^ n := one_le_pow₀ (by norm_num)
  have hlt : v.toInt < 32768 := v.toInt_lt
  have hle : -32768 ≤ v.toInt := v.le_toInt
  have hlo : -32768 ≤ v.toInt / 2 ^ n := Int.le_ediv_of_mul_le (by omega) (by nlinarith)
  have hhi : v.toInt / 2 ^ n < 32768 := Int.ediv_lt_of_lt_mul (by omega) (by nlinarith)
  simp only [shiftRight, w16, BitVec.toInt_ofInt, BitVec.toInt_sshiftRight, Int.shiftRight_eq_div_pow, s16,
    Int.fdiv_eq_ediv_of_nonneg _ (by omega : (0 : Int) ≤ 2 ^ n)]
  rw [Int.bmod_eq_of_le] <;> push_cast <;> omega

end Machine

end Sys2Proof
end

