-- ==== Sys2Proof/Laws/Assembler.lean ====
section
/-! SUPPORT. What the operations of the assembler can do: emitting, label references and definitions, and that every
operation keeps the store in canonical form and the emission pointer in range and takes back no diagnostic. -/

namespace Sys2Proof.Machine

/-! ### Stopping -/

theorem Asm.orStop_eq_ok {α : Type} {st : Asm} {r : Except AsmFailure α} {x : α} : st.orStop r = .ok x ↔ r = .ok x := by
  cases r <;> simp [Asm.orStop, Except.mapError]

@[simp] theorem Asm.orStop_ok {α : Type} (st : Asm) (x : α) : st.orStop (.ok x : Except AsmFailure α) = .ok x := rfl

@[simp] theorem Asm.orStop_error {α : Type} (st : Asm) (e : AsmFailure) :
    st.orStop (.error e : Except AsmFailure α) = .error { reason := e, sent := st.diagnostics } := rfl

/-! ### Emitting -/

/-- An emission that answers wrote one word at `P` and advanced it. -/
theorem Asm.emit_eq_ok {st st' : Asm} {w : Word} :
    st.emit w = .ok st' ↔
      st.p < 32767 ∧ st' = { st with mem := st.mem.write st.p w, p := st.p + 1, halfFull := false } := by
  unfold Asm.emit Config.storeWords
  split <;> simp_all [eq_comm]

theorem Asm.emit_in {st : Asm} (w : Word) (h : st.p < 32767) :
    st.emit w = .ok { st with mem := st.mem.write st.p w, p := st.p + 1, halfFull := false } :=
  Asm.emit_eq_ok.2 ⟨h, rfl⟩

/-- Emitting a list of words that fits writes them from `P` on and nothing else. -/
theorem Asm.emitAll_in {st : Asm} (ws : List Word) (hm : st.mem.wf = true) (h : st.p + ws.length ≤ 32767) :
    ∃ st', st.emitAll ws = .ok st' ∧ st'.p = st.p + ws.length ∧ st'.mem.wf = true ∧
      st'.text = st.text ∧ st'.g = st.g ∧ st'.labels = st.labels ∧ st'.diagnostics = st.diagnostics ∧
      (∀ k, k < ws.length → st'.mem.read (st.p + k) = ws.getD k 0#16) ∧
      ∀ a, (a < st.p ∨ st.p + ws.length ≤ a) → st'.mem.read a = st.mem.read a := by
  induction ws generalizing st with
  | nil => exact ⟨st, rfl, rfl, hm, rfl, rfl, rfl, rfl, by simp, by simp⟩
  | cons w ws ih =>
    simp only [List.length_cons] at h
    have hw := Memory.write_wf hm (a := st.p) (by unfold Config.storeWords; omega) w
    obtain ⟨st', h1, h2, h3, h4, h5, h6, hd, h7, h8⟩ :=
      ih (st := { st with mem := st.mem.write st.p w, p := st.p + 1, halfFull := false }) hw (by simp only; omega)
    simp only at h2 h4 h5 h6 hd h7 h8
    refine ⟨st', ?_, ?_, h3, h4, h5, h6, hd, ?_, ?_⟩
    · simp only [Asm.emitAll, Asm.emit_in w (by omega : st.p < 32767), ok_bind, h1]
    · simp only [h2, List.length_cons]
      omega
    · intro k hk
      cases k with
      | zero => rw [h8 _ (by omega), Nat.add_zero, Memory.read_write_same hm]; rfl
      | succ k =>
        rw [show st.p + (k + 1) = st.p + 1 + k by omega, h7 k (by simpa using hk)]
        rfl
    · intro a ha
      simp only [List.length_cons] at ha
      rw [h8 a (by omega), Memory.read_write_other hm w (by omega)]

/-! ### The invariant of an assembly -/

/-- The store is in canonical form and `P` is at or above the code origin and not past the end of the store. -/
structure Asm.Ok (st : Asm) : Prop where
  memory : st.mem.wf = true
  low : 512 ≤ st.p
  high : st.p ≤ 32767

theorem Asm.emit_ok {st st' : Asm} {w : Word} (hs : st.Ok) (h : st.emit w = .ok st') : st'.Ok ∧ st'.p = st.p + 1 := by
  obtain ⟨hp, rfl⟩ := Asm.emit_eq_ok.1 h
  exact ⟨⟨Memory.write_wf hs.memory hp w, Nat.le_succ_of_le hs.low, hp⟩, rfl⟩

theorem Asm.poke_ok {st : Asm} (hs : st.Ok) {a : Nat} (ha : a < 32767) (w : Word) : (st.poke a w).Ok :=
  ⟨Memory.write_wf hs.memory ha w, hs.low, hs.high⟩

theorem Asm.refLabel_ok {st st' : Asm} {n : Int} {a : Nat} (hs : st.Ok) (ha : a < 32767) (h : st.refLabel n a = .ok st') :
    st'.Ok ∧ st'.p = st.p := by
  simp only [Asm.refLabel, bind_eq_ok] at h
  obtain ⟨i, _, h⟩ := h
  split at h
  · injection h with h; subst h; exact ⟨Asm.poke_ok hs ha _, rfl⟩
  · injection h with h; subst h; exact ⟨⟨(Asm.poke_ok hs ha _).memory, hs.low, hs.high⟩, rfl⟩

theorem patchChain_wf {n : Int} {here : Word} {left k : Nat} {m m' : Memory} (hm : m.wf = true)
    (h : patchChain n here left k m = .ok m') : m'.wf = true := by
  induction left generalizing k m with
  | zero =>
    unfold patchChain at h
    split at h
    · injection h with h; exact h ▸ hm
    · split at h <;> simp at h
  | succ left ih =>
    unfold patchChain at h
    split at h
    · injection h with h; exact h ▸ hm
    · split at h
      · simp at h
      · rename_i hk
        exact ih (Memory.write_wf hm (Nat.lt_of_not_le hk) here) h

theorem Asm.setLabel_ok {st st' : Asm} {n : Int} (hs : st.Ok) (h : st.setLabel n = .ok st') : st'.Ok ∧ st'.p = st.p := by
  simp only [Asm.setLabel, bind_eq_ok] at h
  obtain ⟨i, _, m, hm, h⟩ := h
  injection h with h; subst h
  have hm := patchChain_wf hs.memory (Asm.orStop_eq_ok.1 hm)
  split
  · exact ⟨⟨hm, hs.low, hs.high⟩, rfl⟩
  · exact ⟨⟨hm, hs.low, hs.high⟩, rfl⟩

theorem Asm.packByte_ok {st st' : Asm} {c : Int} (hs : st.Ok) (h : st.packByte c = .ok st') :
    st'.Ok ∧ st.p ≤ st'.p := by
  have := hs.low
  have := hs.high
  unfold Asm.packByte at h
  simp only at h
  split at h
  · injection h with h; subst h
    exact ⟨⟨(Asm.poke_ok hs (by omega) _).memory, hs.low, hs.high⟩, Nat.le_refl _⟩
  · simp only [bind_eq_ok] at h
    obtain ⟨st1, h1, h⟩ := h
    obtain ⟨o1, p1⟩ := Asm.emit_ok hs h1
    injection h with h; subst h
    have := o1.high
    exact ⟨⟨(Asm.poke_ok o1 (by omega) _).memory, o1.low, o1.high⟩, by simp only [Asm.poke]; omega⟩

theorem Asm.goOn_ok {st : Asm} (hs : st.Ok) (text : List Byte) : (st.goOn text).Ok := ⟨hs.memory, hs.low, hs.high⟩

/-- Emitting a word that refers to a label keeps the invariant. -/
theorem Asm.emitRef_ok {st st1 st2 : Asm} {n : Int} {w : Word} (hs : st.Ok) (h1 : st.emit w = .ok st1)
    (h2 : st1.refLabel n (st1.p - 1) = .ok st2) : st2.Ok ∧ st.p ≤ st2.p := by
  obtain ⟨o1, p1⟩ := Asm.emit_ok hs h1
  have := o1.high
  obtain ⟨o2, p2⟩ := Asm.refLabel_ok o1 (by omega) h2
  exact ⟨o2, by omega⟩

theorem Asm.operand_ok {st st' : Asm} {w : Word} {text : List Byte} (hs : st.Ok) (h : st.operand w text = .ok st') :
    st'.Ok ∧ st.p ≤ st'.p := by
  unfold Asm.operand at h
  split at h
  · simp only [bind_eq_ok] at h
    obtain ⟨st1, h1, st2, h2, h⟩ := h
    obtain ⟨o1, p1⟩ := Asm.emit_ok (Asm.goOn_ok hs _) h1
    obtain ⟨o2, p2⟩ := Asm.emitRef_ok o1 h2 h
    exact ⟨o2, by simp only [Asm.goOn] at p1; omega⟩
  · simp only at h
    split at h
    · obtain ⟨o1, p1⟩ := Asm.emit_ok (Asm.goOn_ok hs _) h
      exact ⟨o1, by simp only [Asm.goOn] at p1; omega⟩
    · simp only [bind_eq_ok] at h
      obtain ⟨st1, h1, h⟩ := h
      obtain ⟨o1, p1⟩ := Asm.emit_ok (Asm.goOn_ok hs _) h1
      obtain ⟨o2, p2⟩ := Asm.emit_ok o1 h
      exact ⟨o2, by simp only [Asm.goOn] at p1; omega⟩

theorem Asm.globalSlot_ok {st st' : Asm} {n : Int} {text : List Byte} (hs : st.Ok) (h : st.globalSlot n text = .ok st') :
    st'.Ok ∧ st'.p = st.p := by
  unfold Asm.globalSlot at h
  simp only at h
  split at h
  · rename_i ha
    obtain ⟨o, p⟩ := Asm.refLabel_ok (Asm.poke_ok (Asm.goOn_ok hs _) ha _) ha h
    exact ⟨o, p⟩
  · simp at h

theorem Asm.token_ok {st st' : Asm} {ch : Byte} {rest : List Byte} (hs : st.Ok) (h : st.token ch rest = .ok st') :
    st'.Ok ∧ st.p ≤ st'.p := by
  unfold Asm.token at h
  split at h
  · injection h with h; subst h; exact ⟨Asm.goOn_ok hs _, Nat.le_refl _⟩
  split at h
  · injection h with h; subst h; exact ⟨Asm.goOn_ok hs _, Nat.le_refl _⟩
  split at h
  · obtain ⟨o, p⟩ := Asm.setLabel_ok (Asm.goOn_ok hs _) h
    exact ⟨o, by simp only [Asm.goOn] at p; omega⟩
  split at h
  · obtain ⟨o, p⟩ := Asm.packByte_ok (Asm.goOn_ok hs _) h
    exact ⟨o, p⟩
  split at h
  · unfold Asm.dataDirective at h
    split at h
    · simp only [bind_eq_ok] at h
      obtain ⟨st1, h1, h⟩ := h
      obtain ⟨o, p⟩ := Asm.emitRef_ok (Asm.goOn_ok hs _) h1 h
      exact ⟨o, p⟩
    · obtain ⟨o, p⟩ := Asm.emit_ok (Asm.goOn_ok hs _) h
      exact ⟨o, by simp only [Asm.goOn] at p; omega⟩
  split at h
  · unfold Asm.globalDirective at h
    simp only at h
    split at h
    · obtain ⟨o, p⟩ := Asm.globalSlot_ok hs h
      exact ⟨o, by omega⟩
    · obtain ⟨o, p⟩ := Asm.globalSlot_ok (st := st.report .badCode) ⟨hs.memory, hs.low, hs.high⟩ h
      exact ⟨o, by simp only [Asm.report] at p; omega⟩
  split at h
  · injection h with h; subst h; exact ⟨⟨hs.memory, hs.low, hs.high⟩, Nat.le_refl _⟩
  split at h
  · unfold Asm.instruction at h
    exact Asm.operand_ok hs h
  · injection h with h; subst h; exact ⟨⟨hs.memory, hs.low, hs.high⟩, Nat.le_refl _⟩

theorem Asm.tokens_ok {fuel : Nat} {st st' : Asm} (hs : st.Ok) (h : Asm.tokens fuel st = .ok st') :
    st'.Ok ∧ st.p ≤ st'.p := by
  induction fuel generalizing st with
  | zero => injection h with h; subst h; exact ⟨hs, Nat.le_refl _⟩
  | succ fuel ih =>
    unfold Asm.tokens at h
    split at h
    · injection h with h; subst h; exact ⟨hs, Nat.le_refl _⟩
    · simp only [bind_eq_ok] at h
      obtain ⟨st1, h1, h⟩ := h
      obtain ⟨o1, p1⟩ := Asm.token_ok hs h1
      obtain ⟨o2, p2⟩ := ih o1 h
      exact ⟨o2, by omega⟩

theorem Asm.fillGlobals_ok {n i : Nat} {st st' : Asm} (hs : st.Ok) (h : st.fillGlobals i n = .ok st') :
    st'.Ok ∧ st'.p = st.p ∧ st'.text = st.text := by
  induction n generalizing i st with
  | zero => injection h with h; subst h; exact ⟨hs, rfl, rfl⟩
  | succ n ih =>
    unfold Asm.fillGlobals at h
    simp only at h
    split at h
    · rename_i ha
      obtain ⟨o, p, t⟩ := ih (Asm.poke_ok hs ha _) h
      exact ⟨o, p, t⟩
    · simp at h

theorem Asm.bootstrap_ok {g : Word} {drawn : Memory} {text : List Byte} {st : Asm} (hd : drawn.wf = true)
    (h : (Asm.start g drawn text).bootstrap = .ok st) : st.Ok ∧ st.p = 529 ∧ st.text = text := by
  simp only [Asm.bootstrap, bind_eq_ok] at h
  obtain ⟨st1, h1, h⟩ := h
  obtain ⟨st', e1, e2, e3, e4, -⟩ := Asm.emitAll_in (st := Asm.start g drawn text) bootstrapImage hd
    (by simp [Asm.start, bootstrapImage, Config.codeOrigin])
  rw [h1] at e1
  injection e1 with e1; subst e1
  have hp : st1.p = 529 := e2
  obtain ⟨o, p, t⟩ := Asm.fillGlobals_ok ⟨e3, by omega, by omega⟩ h
  exact ⟨o, by omega, t.trans e4⟩

/-- A whole assembly that does not fail leaves a store in canonical form and `P` past the bootstrap and not past the end
of the store. -/
theorem assemble_ok {g : Word} {drawn : Memory} {text : List Byte} {st : Asm} (hd : drawn.wf = true)
    (h : assemble g drawn text = .ok st) : st.mem.wf = true ∧ 529 ≤ st.p ∧ st.p ≤ 32767 := by
  simp only [assemble, bind_eq_ok] at h
  obtain ⟨st0, h0, h⟩ := h
  obtain ⟨o0, p0, -⟩ := Asm.bootstrap_ok hd h0
  obtain ⟨o, p⟩ := Asm.tokens_ok o0 h
  exact ⟨o.memory, by omega, o.high⟩

/-! ### Diagnostics (40_encoder.md R119, 60_exceptions.md R266) -/

/-- The run `r` has sent the diagnostics `ds` before any other, whether it goes on or stops. -/
def AsmRun.SentFirst (ds : List Diagnostic) : AsmRun Asm → Prop
  | .ok st => ds <+: st.diagnostics
  | .error stop => ds <+: stop.sent

theorem AsmRun.SentFirst.bind {ds : List Diagnostic} {r : AsmRun Asm} {f : Asm → AsmRun Asm} (hr : r.SentFirst ds)
    (hf : ∀ st, ds <+: st.diagnostics → (f st).SentFirst ds) : (r >>= f).SentFirst ds := by
  cases r with
  | ok st => exact hf st hr
  | error stop => exact hr

theorem Asm.emit_sentFirst {ds : List Diagnostic} {st : Asm} (h : ds <+: st.diagnostics) (w : Word) :
    (st.emit w).SentFirst ds := by
  unfold Asm.emit
  split <;> exact h

theorem Asm.refLabel_sentFirst {ds : List Diagnostic} {st : Asm} (h : ds <+: st.diagnostics) (n : Int) (a : Nat) :
    (st.refLabel n a).SentFirst ds := by
  unfold Asm.refLabel
  cases labelIndex n with
  | error e => exact h
  | ok i =>
    simp only [Asm.orStop_ok, ok_bind]
    split <;> exact h

theorem Asm.report_sentFirst {ds : List Diagnostic} {st : Asm} (h : ds <+: st.diagnostics) (d : Diagnostic) :
    ds <+: (st.report d).diagnostics := h.trans (List.prefix_append _ _)

theorem Asm.setLabel_sentFirst {ds : List Diagnostic} {st : Asm} (h : ds <+: st.diagnostics) (n : Int) :
    (st.setLabel n).SentFirst ds := by
  unfold Asm.setLabel
  cases labelIndex n with
  | error e => exact h
  | ok i =>
    simp only [Asm.orStop_ok, ok_bind]
    cases patchChain n (w16 st.p) 32767 (st.label i).toNat st.mem <;> split <;>
      first | exact h | exact Asm.report_sentFirst h _

theorem Asm.packByte_sentFirst {ds : List Diagnostic} {st : Asm} (h : ds <+: st.diagnostics) (c : Int) :
    (st.packByte c).SentFirst ds := by
  unfold Asm.packByte
  simp only
  split
  · exact h
  · exact (Asm.emit_sentFirst h _).bind fun _ h => h

theorem Asm.operand_sentFirst {ds : List Diagnostic} {st : Asm} (h : ds <+: st.diagnostics) (w : Word)
    (text : List Byte) : (st.operand w text).SentFirst ds := by
  unfold Asm.operand
  split
  · simp only
    exact (Asm.emit_sentFirst (by exact h) _).bind fun _ h =>
      (Asm.emit_sentFirst h _).bind fun _ h => Asm.refLabel_sentFirst h _ _
  · simp only
    split
    · exact Asm.emit_sentFirst (by exact h) _
    · exact (Asm.emit_sentFirst (by exact h) _).bind fun _ h => Asm.emit_sentFirst h _

theorem Asm.globalSlot_sentFirst {ds : List Diagnostic} {st : Asm} (h : ds <+: st.diagnostics) (n : Int)
    (text : List Byte) : (st.globalSlot n text).SentFirst ds := by
  unfold Asm.globalSlot
  simp only
  split
  · exact Asm.refLabel_sentFirst (by exact h) _ _
  · exact h

theorem Asm.token_sentFirst {ds : List Diagnostic} {st : Asm} (h : ds <+: st.diagnostics) (ch : Byte)
    (rest : List Byte) : (st.token ch rest).SentFirst ds := by
  unfold Asm.token
  split
  · exact h
  split
  · exact h
  split
  · simp only
    exact Asm.setLabel_sentFirst (by exact h) _
  split
  · simp only [Asm.charDirective]
    exact Asm.packByte_sentFirst (by exact h) _
  split
  · unfold Asm.dataDirective
    split
    · simp only
      exact (Asm.emit_sentFirst (by exact h) _).bind fun _ h => Asm.refLabel_sentFirst h _ _
    · simp only
      exact Asm.emit_sentFirst (by exact h) _
  split
  · unfold Asm.globalDirective
    simp only
    split
    · exact Asm.globalSlot_sentFirst h _ _
    · exact Asm.globalSlot_sentFirst (Asm.report_sentFirst h _) _ _
  split
  · exact h.trans (List.prefix_append _ _)
  split
  · exact Asm.operand_sentFirst h _ _
  · exact Asm.report_sentFirst (by exact h) _

/-- Whatever the text, the diagnostics already sent stay sent, even when the assembly stops. -/
theorem Asm.tokens_sentFirst {ds : List Diagnostic} {fuel : Nat} {st : Asm} (h : ds <+: st.diagnostics) :
    (Asm.tokens fuel st).SentFirst ds := by
  induction fuel generalizing st with
  | zero => exact h
  | succ fuel ih =>
    unfold Asm.tokens
    split
    · exact h
    · exact (Asm.token_sentFirst h _ _).bind fun _ h => ih h

end Sys2Proof.Machine
end

