-- ==== Sys2Proof/Laws/Decode.lean ====
section
/-! SUPPORT. The fields of the words the encoder writes, as the decoder reads them. -/

namespace Sys2Proof

/-- The bits of an instruction word above the D-bit: what `encodeOperand` puts there. -/
def headerWord (n : Nat) (i p g : Bool) : Word :=
  BitVec.ofNat 16 (n * 8192) ||| flagBit i 0x1000#16 ||| flagBit p 0x0800#16 ||| flagBit g 0x0400#16

theorem encodeOperand_short (n : Nat) (i p g : Bool) (k : BitVec 9) :
    encodeOperand n ⟨i, p, g, .short k⟩ = [headerWord n i p g ||| k.setWidth 16] := rfl

theorem encodeOperand_long (n : Nat) (i p g : Bool) (w : Word) :
    encodeOperand n ⟨i, p, g, .long w⟩ = [headerWord n i p g ||| 0x0200#16, w] := rfl

theorem headerWord_low {n : Nat} (hn : n < 8) (i p g : Bool) {k : Nat} (hk : k < 10) :
    (headerWord n i p g).getLsbD k = false := by
  interval_cases n <;> cases i <;> cases p <;> cases g <;> (revert k; decide)

theorem headerWord_fields {n : Nat} (hn : n < 8) (i p g : Bool) :
    (headerWord n i p g).getLsbD 12 = i ∧ (headerWord n i p g).getLsbD 11 = p ∧ (headerWord n i p g).getLsbD 10 = g ∧
      (headerWord n i p g).extractLsb' 13 3 = BitVec.ofNat 3 n := by
  interval_cases n <;> cases i <;> cases p <;> cases g <;> decide

theorem isLong_short {n : Nat} (hn : n < 8) (i p g : Bool) (k : BitVec 9) :
    isLong (headerWord n i p g ||| k.setWidth 16) = false := by
  simp only [isLong, BitVec.getLsbD_or, headerWord_low hn i p g (by omega : 9 < 10), BitVec.getLsbD_setWidth,
    BitVec.getLsbD_of_ge k 9 (by omega)]
  rfl

theorem opField_short {n : Nat} (hn : n < 8) (i p g : Bool) (k : BitVec 9) :
    opField (headerWord n i p g ||| k.setWidth 16) = n := by
  have h : (headerWord n i p g ||| k.setWidth 16).extractLsb' 13 3 = (headerWord n i p g).extractLsb' 13 3 := by
    apply BitVec.eq_of_getLsbD_eq
    intro j hj
    simp [BitVec.getLsbD_of_ge k (13 + j) (by omega)]
  simp only [opField, h, (headerWord_fields hn i p g).2.2.2, BitVec.toNat_ofNat]
  omega

theorem operandOf_short {n : Nat} (hn : n < 8) (i p g : Bool) (k : BitVec 9) (lit : Word) :
    operandOf (headerWord n i p g ||| k.setWidth 16) lit = ⟨i, p, g, .short k⟩ := by
  obtain ⟨h1, h2, h3, -⟩ := headerWord_fields hn i p g
  have hk : (headerWord n i p g ||| k.setWidth 16).extractLsb' 0 9 = k := by
    apply BitVec.eq_of_getLsbD_eq
    intro j hj
    simp [headerWord_low hn i p g (by omega : j < 10), hj]
    omega
  simp only [operandOf, isLong_short hn i p g k, hk, BitVec.getLsbD_or, h1, h2, h3, BitVec.getLsbD_setWidth,
    BitVec.getLsbD_of_ge k _ (by omega : 9 ≤ 12), BitVec.getLsbD_of_ge k _ (by omega : 9 ≤ 11),
    BitVec.getLsbD_of_ge k _ (by omega : 9 ≤ 10)]
  simp

theorem long_fields {n : Nat} (hn : n < 8) (i p g : Bool) (lit : Word) :
    isLong (headerWord n i p g ||| 0x0200#16) = true ∧ opField (headerWord n i p g ||| 0x0200#16) = n ∧
      operandOf (headerWord n i p g ||| 0x0200#16) lit = ⟨i, p, g, .long lit⟩ := by
  interval_cases n <;> cases i <;> cases p <;> cases g <;> exact ⟨rfl, rfl, rfl⟩

theorem Instr.opcode_lt (i : Instr) : i.opcode < 8 := by
  cases i <;> simp [Instr.opcode]

end Sys2Proof
end

