-- ==== Sys2Proof/Laws/Safety.lean ====
section
/-! SUPPORT. The fields of the state an instruction acts on, `s.atBuiltin id` and `s.atOperand op d`,
and the standard names. -/

namespace Sys2Proof.Machine

@[simp] theorem State.atBuiltin_a (s : State) (id : Nat) : (s.atBuiltin id).a = s.a := rfl
@[simp] theorem State.atBuiltin_b (s : State) (id : Nat) : (s.atBuiltin id).b = s.b := rfl
@[simp] theorem State.atBuiltin_c (s : State) (id : Nat) : (s.atBuiltin id).c = s.c + 1#16 := rfl
@[simp] theorem State.atBuiltin_d (s : State) (id : Nat) : (s.atBuiltin id).d = .word (BitVec.ofNat 16 id) := rfl
@[simp] theorem State.atBuiltin_p (s : State) (id : Nat) : (s.atBuiltin id).p = s.p := rfl
@[simp] theorem State.atBuiltin_g (s : State) (id : Nat) : (s.atBuiltin id).g = s.g := rfl
@[simp] theorem State.atBuiltin_selectedInput (s : State) (id : Nat) :
    (s.atBuiltin id).selectedInput = s.selectedInput := rfl
@[simp] theorem State.atBuiltin_selectedOutput (s : State) (id : Nat) :
    (s.atBuiltin id).selectedOutput = s.selectedOutput := rfl
@[simp] theorem State.atBuiltin_table (s : State) (id : Nat) : (s.atBuiltin id).table = s.table := rfl
@[simp] theorem State.atBuiltin_mem (s : State) (id : Nat) : (s.atBuiltin id).mem = s.mem := rfl
@[simp] theorem State.atBuiltin_status (s : State) (id : Nat) : (s.atBuiltin id).status = s.status := rfl
@[simp] theorem State.atBuiltin_shrKind (s : State) (id : Nat) : (s.atBuiltin id).shrKind = s.shrKind := rfl
@[simp] theorem State.atBuiltin_host (s : State) (id : Nat) : (s.atBuiltin id).host = s.host := rfl

@[simp] theorem State.atOperand_a (s : State) (op : Operand) (d : Word) : (s.atOperand op d).a = s.a := rfl
@[simp] theorem State.atOperand_b (s : State) (op : Operand) (d : Word) : (s.atOperand op d).b = s.b := rfl
@[simp] theorem State.atOperand_c (s : State) (op : Operand) (d : Word) :
    (s.atOperand op d).c = s.c + BitVec.ofNat 16 op.length := rfl
@[simp] theorem State.atOperand_d (s : State) (op : Operand) (d : Word) : (s.atOperand op d).d = .word d := rfl
@[simp] theorem State.atOperand_p (s : State) (op : Operand) (d : Word) : (s.atOperand op d).p = s.p := rfl
@[simp] theorem State.atOperand_g (s : State) (op : Operand) (d : Word) : (s.atOperand op d).g = s.g := rfl
@[simp] theorem State.atOperand_selectedInput (s : State) (op : Operand) (d : Word) :
    (s.atOperand op d).selectedInput = s.selectedInput := rfl
@[simp] theorem State.atOperand_selectedOutput (s : State) (op : Operand) (d : Word) :
    (s.atOperand op d).selectedOutput = s.selectedOutput := rfl
@[simp] theorem State.atOperand_table (s : State) (op : Operand) (d : Word) : (s.atOperand op d).table = s.table := rfl
@[simp] theorem State.atOperand_mem (s : State) (op : Operand) (d : Word) : (s.atOperand op d).mem = s.mem := rfl
@[simp] theorem State.atOperand_status (s : State) (op : Operand) (d : Word) : (s.atOperand op d).status = s.status := rfl
@[simp] theorem State.atOperand_shrKind (s : State) (op : Operand) (d : Word) :
    (s.atOperand op d).shrKind = s.shrKind := rfl
@[simp] theorem State.atOperand_host (s : State) (op : Operand) (d : Word) : (s.atOperand op d).host = s.host := rfl

theorem State.decoded_eq (s : State) (op : Operand) (d : Word) : s.decoded op d = s.atOperand op d := rfl

/-- A builtin row acts on `s.atBuiltin id`. -/
theorem withBuiltin_atBuiltin {id : Nat} (h : id < 512) (s : State) (act : State → Run State) :
    withBuiltin id s act = finish (act (s.atBuiltin id)) := withBuiltin_eq id h s act

theorem State.atBuiltin_valA {s : State} {x : Word} (h : s.a = .word x) (id : Nat) : (s.atBuiltin id).valA = .ok x :=
  State.valA_word (s := s.atBuiltin id) h

theorem State.atBuiltin_valB {s : State} {x : Word} (h : s.b = .word x) (id : Nat) : (s.atBuiltin id).valB = .ok x :=
  State.valB_word (s := s.atBuiltin id) h

theorem State.atBuiltin_valA_unwritten {s : State} (h : s.a = .unwritten) (id : Nat) :
    (s.atBuiltin id).valA = .error (.unwrittenRegister .A) :=
  State.valA_unwritten (s := s.atBuiltin id) h

theorem State.atBuiltin_valB_unwritten {s : State} (h : s.b = .unwritten) (id : Nat) :
    (s.atBuiltin id).valB = .error (.unwrittenRegister .B) :=
  State.valB_unwritten (s := s.atBuiltin id) h

/-- The model's table of standard names is R243's. -/
theorem standardSlot_eq_some {name : List Byte} {slot : Word} :
    standardSlot name = some slot ↔ (name, slot) ∈ standardNames := by
  have h1 : asciiBytes "SYSIN" = [0x53#8, 0x59#8, 0x53#8, 0x49#8, 0x4E#8] := by decide
  have h2 : asciiBytes "SYSPRINT" = [0x53#8, 0x59#8, 0x53#8, 0x50#8, 0x52#8, 0x49#8, 0x4E#8, 0x54#8] := by decide
  have h3 : asciiBytes "SYSERROR" = [0x53#8, 0x59#8, 0x53#8, 0x45#8, 0x52#8, 0x52#8, 0x4F#8, 0x52#8] := by decide
  simp only [standardSlot, h1, h2, h3, standardNames, List.mem_cons, Prod.mk.injEq, List.not_mem_nil, or_false]
  split
  · subst name
    simp [@eq_comm _ slot]
  · split
    · subst name
      simp [@eq_comm _ slot]
    · split
      · subst name
        simp [@eq_comm _ slot]
      · simp [*]

theorem standardSlot_eq_none {name : List Byte} : standardSlot name = none ↔ ∀ slot, (name, slot) ∉ standardNames := by
  simp only [← standardSlot_eq_some, Option.eq_none_iff_forall_ne_some]

end Sys2Proof.Machine
end

