-- ==== Sys2Proof/Laws/Exec.lean ====
section
/-! SUPPORT. What an instruction that goes on did, once for all instructions: the inversion of `exec`. -/

namespace Sys2Proof.Machine

/-! ### The builtins -/

/-- What builtin `id` did when it went from `s`, the state after decode, to `t`. -/
inductive BuiltinEffect (s t : State) (id : Nat) : Prop where
  | accumulator (ht : t = { s with a := t.a })
      (hid : id ∈ [1, 2, 3, 5, 6, 7, 8, 9, 10, 11, 12, 13, 14, 15, 16, 17, 18, 19, 20, 21, 31, 36])
  | jump (ht : t = { s with p := t.p, c := t.c }) (hid : id ∈ [4, 32])
  | halt (ht : t = { s with status := t.status }) (hid : id ∈ [22, 30, 38])
  | switch (w : Word) (ht : t = { s with d := .word w, b := .unwritten, c := t.c }) (hid : id = 23)
  | selectInput (ht : t = { s with selectedInput := t.selectedInput }) (hid : id = 24)
  | selectOutput (ht : t = { s with selectedOutput := t.selectedOutput }) (hid : id = 25)
  | read (h : Handle) (r : Option Byte) (hs : inStream s.table (u16 s.selectedInput) = .ok h)
      (hr : s.host.read h = .ok (r, t.host)) (ht : t = { s with a := t.a, host := t.host }) (hid : id = 26)
  | write (h : Handle) (b : Byte) (hs : outStream s.table (u16 s.selectedOutput) = .ok h)
      (hw : s.host.write h b = .ok t.host) (ht : t = { s with host := t.host }) (hid : id = 27)
  | standardName (ht : t = { s with a := t.a }) (hid : id ∈ [28, 29])
  | openFailed (name : List Byte) (dir : Dir) (ho : s.host.openStream name dir = .ok (none, t.host))
      (ht : t = { s with a := t.a, host := t.host }) (hid : id ∈ [28, 29])
  | opened (name : List Byte) (dir : Dir) (n k : Nat) (ho : s.host.openStream name dir = .ok (some n, t.host))
      (ha : alloc s.table (.opened n dir) = .ok (k, t.table))
      (ht : t = { s with a := t.a, host := t.host, table := t.table }) (hid : id ∈ [28, 29])
  | closeInput (h : Handle) (hs : inStream s.table (u16 s.selectedInput) = .ok h)
      (ht : t = { s with
        table := s.table.set (u16 s.selectedInput) .free, host := s.host.close h, selectedInput := 0#16 }) (hid : id = 33)
  | closeOutput (h : Handle) (hs : outStream s.table (u16 s.selectedOutput) = .ok h)
      (ht : t = { s with
        table := s.table.set (u16 s.selectedOutput) .free, host := s.host.close h, selectedOutput := 0#16 }) (hid : id = 34)
  | vectorFrame (d w0 w1 w2 w3 : Word) (h0 : u16 d < 32767) (h1 : u16 (d + 1#16) < 32767) (h2 : u16 (d + 2#16) < 32767)
      (h3 : u16 (d + 3#16) < 32767)
      (ht : t = { s with
        p := t.p
        c := t.c
        mem := (((s.mem.write (u16 d) w0).write (u16 (d + 1#16)) w1).write (u16 (d + 2#16)) w2).write (u16 (d + 3#16)) w3 })
      (hid : id = 35)
  | putByte (a : Nat) (w : Word) (ha : a < 32767) (ht : t = { s with mem := s.mem.write a w }) (hid : id = 37)

theorem findStream_effect {s t : State} {id : Nat} {dir : Dir} (hid : id ∈ [28, 29]) (h : findStream dir s = .ok t) :
    BuiltinEffect s t id := by
  simp only [findStream, bind_eq_ok] at h
  obtain ⟨a, _, name, _, h⟩ := h
  split at h
  · injection h with h; subst h; exact .standardName rfl hid
  · simp only [bind_eq_ok] at h
    obtain ⟨⟨r, host⟩, h1, h⟩ := h
    simp only at h
    split at h
    · injection h with h; subst h; exact .openFailed name dir h1 rfl hid
    · simp only [bind_eq_ok] at h
      obtain ⟨⟨k, table⟩, h2, h⟩ := h
      injection h with h; subst h
      exact .opened name dir _ k h1 h2 rfl hid

theorem performBuiltin_effect {id : Nat} {ia : Word} {s t : State} (h : performBuiltin id ia s = .ok t) :
    BuiltinEffect s t id := by
  have una : ∀ {f}, unary f s = .ok t → t = { s with a := t.a } := fun h => by obtain ⟨_, _, rfl⟩ := unary_eq_ok.1 h; rfl
  have bin : ∀ {f}, binary f s = .ok t → t = { s with a := t.a } := fun h => by obtain ⟨_, _, _, _, rfl⟩ := binary_eq_ok.1 h; rfl
  have dvd : ∀ {f ia}, dividing f ia s = .ok t → t = { s with a := t.a } := fun h => by obtain ⟨_, _, _, _, _, rfl⟩ := dividing_eq_ok.1 h; rfl
  have shf : ∀ {f ia}, shifting f ia s = .ok t → t = { s with a := t.a } := fun h => by obtain ⟨_, _, _, _, _, rfl⟩ := shifting_eq_ok.1 h; rfl
  unfold performBuiltin at h
  split at h
  case h_1 =>
    simp only [performLoadind, bind_eq_ok] at h
    obtain ⟨_, _, _, _, h⟩ := h; injection h with h; subst h; exact .accumulator rfl (by decide)
  case h_4 =>
    simp only [performRtn, bind_eq_ok] at h
    obtain ⟨_, _, _, _, h⟩ := h; injection h with h; subst h; exact .jump rfl (by decide)
  case h_22 => injection h with h; subst h; exact .halt rfl (by decide)
  case h_23 =>
    simp only [performSwitchon, bind_eq_ok] at h
    obtain ⟨_, _, _, _, _, _, w, _, h⟩ := h; injection h with h; subst h; exact .switch w rfl rfl
  case h_24 =>
    simp only [performSelectinput, bind_eq_ok] at h
    obtain ⟨_, _, h⟩ := h; injection h with h; subst h; exact .selectInput rfl rfl
  case h_25 =>
    simp only [performSelectoutput, bind_eq_ok] at h
    obtain ⟨_, _, h⟩ := h; injection h with h; subst h; exact .selectOutput rfl rfl
  case h_26 =>
    simp only [performRdch, bind_eq_ok] at h
    obtain ⟨hd, h1, ⟨r, host⟩, h2, h⟩ := h; injection h with h; subst h; exact .read hd r h1 h2 rfl rfl
  case h_27 =>
    simp only [performWrch, bind_eq_ok] at h
    obtain ⟨v, _, hd, h1, host, h2, h⟩ := h; injection h with h; subst h; exact .write hd _ h1 h2 rfl rfl
  case h_28 =>
    exact findStream_effect (by decide) h
  case h_29 =>
    exact findStream_effect (by decide) h
  case h_30 =>
    simp only [performStop, bind_eq_ok] at h
    obtain ⟨_, _, h⟩ := h; injection h with h; subst h; exact .halt rfl (by decide)
  case h_31 =>
    simp only [performLevel, bind_eq_ok] at h
    obtain ⟨_, _, h⟩ := h; injection h with h; subst h; exact .accumulator rfl (by decide)
  case h_32 =>
    simp only [performLongjump, bind_eq_ok] at h
    obtain ⟨_, _, _, _, h⟩ := h; injection h with h; subst h; exact .jump rfl (by decide)
  case h_33 =>
    simp only [performEndread, bind_eq_ok] at h
    obtain ⟨hd, h1, h⟩ := h; injection h with h; subst h
    exact .closeInput hd h1 rfl rfl
  case h_34 =>
    simp only [performEndwrite, bind_eq_ok] at h
    obtain ⟨hd, h1, h⟩ := h; injection h with h; subst h
    exact .closeOutput hd h1 rfl rfl
  case h_35 =>
    simp only [performAptovec, bind_eq_ok, State.store_eq_ok] at h
    obtain ⟨tg, _, nb, _, s0, _, s1, _, t0, ⟨l0, rfl⟩, t1, ⟨l1, rfl⟩, t2, ⟨l2, rfl⟩, t3, ⟨l3, rfl⟩, h⟩ := h
    injection h with h; subst h
    exact .vectorFrame _ _ _ _ _ l0 l1 l2 l3 rfl rfl
  case h_36 =>
    simp only [performGetbyte, bind_eq_ok] at h
    obtain ⟨_, _, _, _, _, _, h⟩ := h; injection h with h; subst h; exact .accumulator rfl (by decide)
  case h_37 =>
    simp only [performPutbyte, State.putByte, bind_eq_ok, State.store_eq_ok] at h
    obtain ⟨_, _, _, _, _, _, _, _, l, h⟩ := h
    exact .putByte _ _ l h rfl
  case h_38 =>
    simp only [performPanic, bind_eq_ok] at h
    obtain ⟨_, _, _, _, _, _, h⟩ := h; injection h with h; subst h; exact .halt rfl (by decide)
  case h_39 => simp at h
  all_goals exact .accumulator (by first | exact una h | exact bin h | exact dvd h | exact shf h) (by decide)

/-! ### Every instruction -/

/-- A builtin row is what Execute performs for its id. -/
theorem exec_builtin {i : Instr} {id : Nat} (h : i.builtinId? = some id) (s : State) :
    exec i s = finish (performBuiltin id s.c (s.atBuiltin id)) := by
  cases i <;> simp only [Instr.builtinId?, reduceCtorEq, Option.some.injEq] at h <;> subst h <;>
    simp only [exec, execX1, execX2, execX3, execX4, execX5, execX6, execX7, execX8, execX9, execX10, execX11, execX12,
      execX13, execX14, execX15, execX16, execX17, execX18, execX19, execX20, execX21, execX22, execX23, execX24, execX25,
      execX26, execX27, execX28, execX29, execX30, execX31, execX32, execX33, execX34, execX35, execX36, execX37, execX38] <;>
    exact withBuiltin_eq _ (by decide) _ _

theorem exec_execute_ok {s : State} {op : Operand} {d : Word} (h : s.operandValue op = .ok d) :
    exec (.execute op) s = finish (performBuiltin (u16 d) s.c (s.atOperand op d)) := by
  simp only [exec, execExecute, withOperand_ok h]
  rfl

/-- What instruction `i` did when it went from `s` to `t`. -/
inductive ExecEffect (i : Instr) (s t : State) : Prop where
  | load (op : Operand) (d : Word) (hi : i = .load op) (ht : t = { s.atOperand op d with b := s.a, a := .word d })
  | store (op : Operand) (d w : Word) (hi : i = .store op) (hd : u16 d < 32767)
      (ht : t = { s.atOperand op d with mem := s.mem.write (u16 d) w })
  | add (op : Operand) (d : Word) (hi : i = .add op) (ht : t = { s.atOperand op d with a := t.a })
  | jump (op : Operand) (d : Word) (hi : i = .jump op ∨ i = .jumpTrue op ∨ i = .jumpFalse op)
      (ht : t = { s.atOperand op d with c := t.c })
  | call (op : Operand) (d f w0 w1 : Word) (hi : i = .call op) (h0 : u16 f < 32767) (h1 : u16 (f + 1#16) < 32767)
      (ht : t = { s.atOperand op d with
        p := f, c := t.c, mem := (s.mem.write (u16 f) w0).write (u16 (f + 1#16)) w1 })
  | builtin (d : Word) (hb : s.builtinOf i = some (u16 d)) (h : BuiltinEffect (s.atOperand i.operand d) t (u16 d))

theorem exec_effect {i : Instr} {s t : State} (h : exec i s = .next t) : ExecEffect i s t := by
  have row : ∀ {id : Nat}, i.builtinId? = some id → id < 512 → i.operand = Operand.builtin id →
      s.builtinOf i = some id → ExecEffect i s t := by
    intro id hid hlt hop hb
    rw [exec_builtin hid] at h
    have hu : u16 (BitVec.ofNat 16 id) = id := by simp only [u16, BitVec.toNat_ofNat]; omega
    have hat : s.atOperand i.operand (BitVec.ofNat 16 id) = s.atBuiltin id := by rw [hop]; rfl
    exact .builtin (BitVec.ofNat 16 id) (by rw [hu]; exact hb)
      (by rw [hu, hat]; exact performBuiltin_effect (finish_eq_next.1 h))
  cases i
  case load op =>
    simp only [exec, execLoad] at h
    obtain ⟨d, _, h⟩ := withOperand_eq_next.1 h
    injection h with h; subst h
    exact .load op d rfl rfl
  case store op =>
    simp only [exec, execStore] at h
    obtain ⟨d, _, h⟩ := withOperand_eq_next.1 h
    simp only [bind_eq_ok, State.store_eq_ok] at h
    obtain ⟨w, _, hd, h⟩ := h
    exact .store op d w rfl hd h
  case add op =>
    simp only [exec, execAdd] at h
    obtain ⟨d, _, h⟩ := withOperand_eq_next.1 h
    simp only [bind_eq_ok] at h
    obtain ⟨w, _, h⟩ := h
    injection h with h; subst h
    exact .add op d rfl rfl
  case jump op =>
    simp only [exec, execJump] at h
    obtain ⟨d, _, h⟩ := withOperand_eq_next.1 h
    injection h with h; subst h
    exact .jump op d (.inl rfl) rfl
  case jumpTrue op =>
    simp only [exec, execJumpTrue] at h
    obtain ⟨d, _, h⟩ := withOperand_eq_next.1 h
    simp only [bind_eq_ok] at h
    obtain ⟨w, _, h⟩ := h
    injection h with h; subst h
    exact .jump op d (.inr (.inl rfl)) (by split <;> rfl)
  case jumpFalse op =>
    simp only [exec, execJumpFalse] at h
    obtain ⟨d, _, h⟩ := withOperand_eq_next.1 h
    simp only [bind_eq_ok] at h
    obtain ⟨w, _, h⟩ := h
    injection h with h; subst h
    exact .jump op d (.inr (.inr rfl)) (by split <;> rfl)
  case call op =>
    simp only [exec, execCall] at h
    obtain ⟨d, _, h⟩ := withOperand_eq_next.1 h
    simp only [bind_eq_ok, State.store_eq_ok] at h
    obtain ⟨w, _, t0, ⟨h0, rfl⟩, t1, ⟨h1, rfl⟩, h⟩ := h
    injection h with h; subst h
    exact .call op d _ _ _ rfl h0 h1 rfl
  case execute op =>
    simp only [exec, execExecute] at h
    obtain ⟨d, hd, h⟩ := withOperand_eq_next.1 h
    exact .builtin d (by simp [State.builtinOf, hd, Except.toOption]) (performBuiltin_effect h)
  all_goals exact row rfl (by decide) rfl rfl

end Sys2Proof.Machine
end

