-- ==== Sys2Proof/Laws/Faults.lean ====
section
/-! SUPPORT. Which instruction address a builtin's fault carries. -/

namespace Sys2Proof.Machine

/-- An instruction address in the fault, if it carries one, is `ia`. -/
def Fault.Carries (ia : Word) (f : Fault) : Prop :=
  (∀ a, f = .divideByZero a → a = ia) ∧ ∀ n a, f = .shiftOutOfRange n a → a = ia

/-- Every fault the run can raise carries no instruction address but `ia`. -/
def Run.Carries {α : Type} (ia : Word) (r : Run α) : Prop := ∀ f, r = .error f → f.Carries ia

theorem Run.Carries.ok {α : Type} {ia : Word} (x : α) : Run.Carries ia (.ok x : Run α) := fun _ h => by simp at h

theorem Run.Carries.bind {α β : Type} {ia : Word} {r : Run α} {f : α → Run β} (hr : Run.Carries ia r)
    (hf : ∀ x, Run.Carries ia (f x)) : Run.Carries ia (r >>= f) := by
  cases r with
  | ok x => exact hf x
  | error e => exact fun g h => by simp only [error_bind, Except.error.injEq] at h; exact h ▸ hr e rfl

theorem State.load_carries {ia : Word} (s : State) (a : Nat) : Run.Carries ia (s.load a) := by
  unfold State.load
  split <;> rintro f ⟨⟩
  exact ⟨nofun, nofun⟩

theorem State.store_carries {ia : Word} (s : State) (a : Nat) (w : Word) : Run.Carries ia (s.store a w) := by
  unfold State.store
  split <;> rintro f ⟨⟩
  exact ⟨nofun, nofun⟩

theorem State.valA_carries {ia : Word} (s : State) : Run.Carries ia s.valA := by
  unfold State.valA Reg.val
  split <;> rintro f ⟨⟩
  exact ⟨nofun, nofun⟩

theorem State.valB_carries {ia : Word} (s : State) : Run.Carries ia s.valB := by
  unfold State.valB Reg.val
  split <;> rintro f ⟨⟩
  exact ⟨nofun, nofun⟩

theorem State.getByte_carries {ia : Word} (s : State) (base : Word) (i : Nat) : Run.Carries ia (s.getByte base i) :=
  (s.load_carries _).bind fun _ => .ok _

theorem State.getBytes_carries {ia : Word} (s : State) (base : Word) (n : Nat) :
    ∀ i, Run.Carries ia (s.getBytes base i n) := by
  induction n with
  | zero => exact fun _ => .ok _
  | succ n ih => exact fun i => (s.getByte_carries base i).bind fun _ => (ih _).bind fun _ => .ok _

theorem State.readString_carries {ia : Word} (s : State) (base : Word) : Run.Carries ia (s.readString base) :=
  (s.getByte_carries base 0).bind fun _ => s.getBytes_carries base _ 1

theorem State.putByte_carries {ia : Word} (s : State) (base : Word) (i : Nat) (v : Byte) :
    Run.Carries ia (s.putByte base i v) := (s.load_carries _).bind fun _ => s.store_carries _ _

theorem State.caseScan_carries {ia : Word} (s : State) (a dflt : Word) (n : Nat) :
    ∀ pair, Run.Carries ia (s.caseScan a dflt n pair) := by
  induction n with
  | zero => exact fun _ => .ok _
  | succ n ih =>
    exact fun pair => (s.load_carries _).bind fun _ => by
      split
      · exact s.load_carries _
      · exact ih _

theorem inStream_carries {ia : Word} (t : List Slot) (k : Nat) : Run.Carries ia (inStream t k) := by
  unfold inStream
  split <;> rintro f ⟨⟩
  exact ⟨nofun, nofun⟩

theorem outStream_carries {ia : Word} (t : List Slot) (k : Nat) : Run.Carries ia (outStream t k) := by
  unfold outStream
  split <;> rintro f ⟨⟩
  exact ⟨nofun, nofun⟩

theorem HostSide.read_carries {ia : Word} (h : HostSide) (k : Handle) : Run.Carries ia (h.read k) := by
  unfold HostSide.read
  split <;> rintro f ⟨⟩
  exact ⟨nofun, nofun⟩

theorem HostSide.write_carries {ia : Word} (h : HostSide) (k : Handle) (b : Byte) : Run.Carries ia (h.write k b) := by
  unfold HostSide.write
  split <;> rintro f ⟨⟩
  exact ⟨nofun, nofun⟩

theorem HostSide.openStream_carries {ia : Word} (h : HostSide) (name : List Byte) (dir : Dir) :
    Run.Carries ia (h.openStream name dir) := by
  unfold HostSide.openStream
  split <;> rintro f ⟨⟩
  exact ⟨nofun, nofun⟩

theorem alloc_carries {ia : Word} (t : List Slot) (e : Slot) : Run.Carries ia (alloc t e) := by
  unfold alloc
  split
  · exact .ok _
  · split
    · rintro f ⟨⟩
      exact ⟨nofun, nofun⟩
    · exact .ok _

theorem findStream_carries {ia : Word} (dir : Dir) (s : State) : Run.Carries ia (findStream dir s) := by
  refine s.valA_carries.bind fun a => (s.readString_carries a).bind fun name => ?_
  split
  · exact .ok _
  · refine (s.host.openStream_carries name dir).bind fun r => ?_
    split
    split
    · exact .ok _
    · exact (alloc_carries _ _).bind fun _ => .ok _

theorem unary_carries {ia : Word} (f : Word → Word) (s : State) : Run.Carries ia (unary f s) :=
  s.valA_carries.bind fun _ => .ok _

theorem binary_carries {ia : Word} (f : Word → Word → Word) (s : State) : Run.Carries ia (binary f s) :=
  s.valB_carries.bind fun _ => s.valA_carries.bind fun _ => .ok _

theorem dividing_carries {ia : Word} (f : Word → Word → Word) (s : State) : Run.Carries ia (dividing f ia s) := by
  refine s.valB_carries.bind fun _ => s.valA_carries.bind fun _ => ?_
  split <;> rintro f ⟨⟩
  exact ⟨fun _ h => by injection h with h; exact h.symm, nofun⟩

theorem shifting_carries {ia : Word} (f : Word → Nat → Word) (s : State) : Run.Carries ia (shifting f ia s) := by
  refine s.valB_carries.bind fun _ => s.valA_carries.bind fun _ => ?_
  split <;> rintro f ⟨⟩
  exact ⟨nofun, fun _ _ h => by injection h with _ h; exact h.symm⟩

/-- A builtin's fault carries no instruction address but the one the builtin was given, that of its Execute word
(60_exceptions.md R261). -/
theorem performBuiltin_carries {id : Nat} (hid : 1 ≤ id ∧ id ≤ 38) (ia : Word) (s : State) :
    Run.Carries ia (performBuiltin id ia s) := by
  unfold performBuiltin
  split
  case h_1 => exact s.valA_carries.bind fun _ => (s.load_carries _).bind fun _ => .ok _
  case h_2 | h_3 => exact unary_carries _ s
  case h_4 => exact (s.load_carries _).bind fun _ => (s.load_carries _).bind fun _ => .ok _
  case h_6 | h_7 => exact dividing_carries _ s
  case h_16 | h_17 => exact shifting_carries _ s
  case h_22 => exact .ok _
  case h_23 =>
    exact s.valA_carries.bind fun _ => (s.load_carries _).bind fun _ => (s.load_carries _).bind fun _ =>
      (s.caseScan_carries _ _ _ _).bind fun _ => .ok _
  case h_24 | h_25 | h_30 => exact s.valA_carries.bind fun _ => .ok _
  case h_26 => exact (inStream_carries _ _).bind fun _ => (s.host.read_carries _).bind fun _ => .ok _
  case h_27 =>
    exact s.valA_carries.bind fun _ => (outStream_carries _ _).bind fun _ => (s.host.write_carries _ _).bind fun _ => .ok _
  case h_28 | h_29 => exact findStream_carries _ s
  case h_31 => exact (s.load_carries _).bind fun _ => .ok _
  case h_32 => exact s.valA_carries.bind fun _ => s.valB_carries.bind fun _ => .ok _
  case h_33 => exact (inStream_carries _ _).bind fun _ => .ok _
  case h_34 => exact (outStream_carries _ _).bind fun _ => .ok _
  case h_35 =>
    exact s.valA_carries.bind fun _ => s.valB_carries.bind fun _ => (s.load_carries _).bind fun _ =>
      (s.load_carries _).bind fun _ => (s.store_carries _ _).bind fun t0 => (t0.store_carries _ _).bind fun t1 =>
      (t1.store_carries _ _).bind fun t2 => (t2.store_carries _ _).bind fun _ => .ok _
  case h_36 => exact s.valA_carries.bind fun _ => s.valB_carries.bind fun _ => (s.getByte_carries _ _).bind fun _ => .ok _
  case h_37 =>
    exact s.valA_carries.bind fun _ => s.valB_carries.bind fun _ => (s.load_carries _).bind fun _ => s.putByte_carries _ _ _
  case h_38 =>
    exact s.valA_carries.bind fun _ => (s.readString_carries _).bind fun _ => (s.load_carries _).bind fun _ => .ok _
  case h_39 =>
    obtain ⟨h1, h2⟩ := hid
    interval_cases id <;> contradiction
  all_goals exact binary_carries _ s

end Sys2Proof.Machine
end

