-- ==== Sys2Proof/Laws/Io.lean ====
section
/-! SUPPORT. What the operations of Machine/Io.lean and the byte operations of Machine/Ops.lean can do. -/

namespace Sys2Proof.Machine

/-! ### Streams -/

theorem inStream_eq_ok {table : List Slot} {k : Nat} {h : Handle} :
    inStream table k = .ok h ↔ ∃ slot, table[k]? = some slot ∧ slot.inputHandle? = some h := by
  unfold inStream
  cases hk : table[k]? with
  | none => simp
  | some slot => cases hs : slot.inputHandle? <;> simp [hs]

theorem outStream_eq_ok {table : List Slot} {k : Nat} {h : Handle} :
    outStream table k = .ok h ↔ ∃ slot, table[k]? = some slot ∧ slot.outputHandle? = some h := by
  unfold outStream
  cases hk : table[k]? with
  | none => simp
  | some slot => cases hs : slot.outputHandle? <;> simp [hs]

theorem inStream_eq_error {table : List Slot} {k : Nat} (h : ∀ slot, table[k]? = some slot → slot.inputHandle? = none) :
    inStream table k = .error (.noStream k) := by
  unfold inStream
  cases hk : table[k]? with
  | none => rfl
  | some slot => simp [h slot hk]

theorem outStream_eq_error {table : List Slot} {k : Nat} (h : ∀ slot, table[k]? = some slot → slot.outputHandle? = none) :
    outStream table k = .error (.noStream k) := by
  unfold outStream
  cases hk : table[k]? with
  | none => rfl
  | some slot => simp [h slot hk]

/-! ### The host -/

/-- A read that returns appends its call and gives no handle. -/
theorem HostSide.read_eq_ok {h h' : HostSide} {handle : Handle} {r : Option Byte} (hr : h.read handle = .ok (r, h')) :
    h'.calls = h.calls ++ [.read handle r] ∧ h'.nextHandle = h.nextHandle := by
  unfold HostSide.read at hr
  split at hr
  case h_3 => simp at hr
  all_goals injection hr with hr; injection hr with h1 h2; subst h1; subst h2; exact ⟨rfl, rfl⟩

/-- A write that returns appends its call and gives no handle. -/
theorem HostSide.write_eq_ok {h h' : HostSide} {handle : Handle} {b : Byte} (hw : h.write handle b = .ok h') :
    h'.calls = h.calls ++ [.write handle b] ∧ h'.nextHandle = h.nextHandle := by
  unfold HostSide.write at hw
  split at hw
  case h_1 => simp at hw
  all_goals injection hw with hw; subst hw; exact ⟨rfl, rfl⟩

/-- An open that returns appends its call; a success gives the next handle. -/
theorem HostSide.openStream_eq_ok {h h' : HostSide} {name : List Byte} {dir : Dir} {r : Option Nat}
    (ho : h.openStream name dir = .ok (r, h')) :
    (r = none ∧ h'.calls = h.calls ++ [.openFile name dir none] ∧ h'.nextHandle = h.nextHandle) ∨
      (r = some h.nextHandle ∧ h'.calls = h.calls ++ [.openFile name dir (some (.file h.nextHandle))] ∧
        h'.nextHandle = h.nextHandle + 1) := by
  unfold HostSide.openStream at ho
  split at ho
  · injection ho with ho; injection ho with h1 h2; subst h1; subst h2; exact .inr ⟨rfl, rfl, rfl⟩
  · injection ho with ho; injection ho with h1 h2; subst h1; subst h2; exact .inl ⟨rfl, rfl, rfl⟩
  · simp at ho
  · simp only at ho
    split at ho
    · injection ho with ho; injection ho with h1 h2; subst h1; subst h2; exact .inr ⟨rfl, rfl, rfl⟩
    · injection ho with ho; injection ho with h1 h2; subst h1; subst h2; exact .inl ⟨rfl, rfl, rfl⟩

/-! ### The file table -/

theorem firstFree_eq_some {table : List Slot} {i k : Nat} (h : firstFree i table = some k) :
    i ≤ k ∧ table[k - i]? = some .free ∧ ∀ j, i ≤ j → j < k → table[j - i]? ≠ some .free := by
  induction table generalizing i with
  | nil => simp [firstFree] at h
  | cons slot rest ih =>
    simp only [firstFree] at h
    split at h
    · rename_i hs
      injection h with h; subst h; subst hs
      exact ⟨Nat.le_refl _, by simp, fun j h1 h2 => by omega⟩
    · rename_i hs
      obtain ⟨h1, h2, h3⟩ := ih h
      refine ⟨by omega, ?_, fun j hj1 hj2 => ?_⟩
      · rw [show k - i = (k - (i + 1)) + 1 by omega]
        simpa using h2
      · rcases Nat.lt_or_ge i j with hlt | hge
        · rw [show j - i = (j - (i + 1)) + 1 by omega]
          simpa using h3 j hlt hj2
        · rw [show j - i = 0 by omega]
          simpa using hs

theorem firstFree_eq_none {table : List Slot} {i : Nat} (h : firstFree i table = none) (j : Nat) :
    table[j]? ≠ some .free := by
  induction table generalizing i j with
  | nil => simp
  | cons slot rest ih =>
    simp only [firstFree] at h
    split at h
    · simp at h
    · rename_i hs
      cases j with
      | zero => simpa using hs
      | succ j => simpa using ih h j

theorem alloc_free {table : List Slot} {entry : Slot} {k : Nat} (hk : 1 ≤ k) (hf : table[k]? = some .free)
    (hl : ∀ j, 1 ≤ j → j < k → table[j]? ≠ some .free) : alloc table entry = .ok (k, table.set k entry) := by
  unfold alloc
  cases h : firstFree 1 (table.drop 1) with
  | none =>
    refine absurd ?_ (firstFree_eq_none h (k - 1))
    rw [List.getElem?_drop, show 1 + (k - 1) = k by omega]
    exact hf
  | some m =>
    obtain ⟨h1, h2, h3⟩ := firstFree_eq_some h
    rw [List.getElem?_drop, show 1 + (m - 1) = m by omega] at h2
    have hmk : m = k := by
      rcases Nat.lt_trichotomy m k with h' | h' | h'
      · exact absurd h2 (hl m h1 h')
      · exact h'
      · refine absurd ?_ (h3 k hk h')
        rw [List.getElem?_drop, show 1 + (k - 1) = k by omega]
        exact hf
    rw [hmk]

theorem alloc_new {table : List Slot} {entry : Slot} (hf : ∀ k, 1 ≤ k → table[k]? ≠ some .free) :
    alloc table entry =
      if 32767 < table.length then .error (.slotOverflow table.length) else .ok (table.length, table ++ [entry]) := by
  unfold alloc
  cases h : firstFree 1 (table.drop 1) with
  | none => rfl
  | some m =>
    obtain ⟨h1, h2, -⟩ := firstFree_eq_some h
    rw [List.getElem?_drop, show 1 + (m - 1) = m by omega] at h2
    exact absurd h2 (hf m h1)

/-- An allocation that answers took a free slot or added one. -/
theorem alloc_eq_ok {table table' : List Slot} {entry : Slot} {k : Nat} (h : alloc table entry = .ok (k, table')) :
    (1 ≤ k ∧ table[k]? = some .free ∧ table' = table.set k entry) ∨
      (k = table.length ∧ table.length ≤ 32767 ∧ table' = table ++ [entry]) := by
  unfold alloc at h
  split at h
  · rename_i m hm
    obtain ⟨h1, h2, -⟩ := firstFree_eq_some hm
    rw [List.getElem?_drop, show 1 + (m - 1) = m by omega] at h2
    injection h with h; injection h with e1 e2; subst e1; subst e2
    exact .inl ⟨h1, h2, rfl⟩
  · split at h
    · simp at h
    · rename_i hlt
      injection h with h; injection h with e1 e2; subst e1; subst e2
      exact .inr ⟨rfl, Nat.le_of_not_lt hlt, rfl⟩

/-! ### Bytes -/

theorem hiByte_eq (w : Word) : hiByte w = BitVec.ofNat 8 (u16 w / 256) := by
  apply BitVec.eq_of_toNat_eq
  simp [hiByte, BitVec.extractLsb'_toNat, Nat.shiftRight_eq_div_pow]

theorem loByte_eq (w : Word) : loByte w = BitVec.ofNat 8 (u16 w % 256) := by
  apply BitVec.eq_of_toNat_eq
  simp [loByte, BitVec.extractLsb'_toNat]

theorem u16_joinBytes (hi lo : Byte) : u16 (joinBytes hi lo) = hi.toNat * 256 + lo.toNat := by
  simp only [u16_eq, joinBytes, BitVec.toNat_append]
  rw [← Nat.shiftLeft_add_eq_or_of_lt lo.isLt, Nat.shiftLeft_eq]

/-- What reading byte `i` of the string at `base` answers. -/
theorem State.getByte_eq (s : State) (base : Word) (i : Nat) :
    s.getByte base i =
      if u16 base + i / 2 ≤ 32766 then
        .ok (BitVec.ofNat 8
          (if i % 2 = 0 then u16 (s.mem.read (u16 base + i / 2)) / 256 else u16 (s.mem.read (u16 base + i / 2)) % 256))
      else .error (.storeOutOfRange (u16 base + i / 2)) := by
  simp only [State.getByte, byteWordAddr]
  by_cases h : u16 base + i / 2 ≤ 32766
  · rw [State.load_in (by omega), ok_bind, hiByte_eq, loByte_eq, if_pos h]
    split <;> rfl
  · rw [State.load_out (by omega), if_neg h]
    rfl

/-- A string read depends on the store only. -/
theorem State.readString_mem {s t : State} (h : s.mem = t.mem) (base : Word) : s.readString base = t.readString base := by
  have hb : ∀ i, s.getByte base i = t.getByte base i := fun i => by rw [State.getByte_eq, State.getByte_eq, h]
  have hbs : ∀ n i, s.getBytes base i n = t.getBytes base i n := by
    intro n
    induction n with
    | zero => intro i; rfl
    | succ n ih => intro i; simp only [State.getBytes, hb, ih]
  simp only [State.readString, hb, hbs]

end Sys2Proof.Machine
end

