-- ==== Sys2Proof/Laws/PerInstr.lean ====
section
/-! SUPPORT. Families proved constructor by constructor. EncodeLength: the encoder writes as many words as the instruction's
length says, one or two (30_encoding.md R71). -/

namespace Sys2Proof.Laws.EncodeLength

/-- The encoder writes `length` words, and that is one or two. -/
def Statement (i : Instr) : Prop := (encode i).length = i.length ∧ (i.length = 1 ∨ i.length = 2)

theorem ofOperand (n : Nat) (op : Operand) :
    (encodeOperand n op).length = op.length ∧ (op.length = 1 ∨ op.length = 2) := by
  obtain ⟨i, p, g, l⟩ := op
  cases l <;> simp [encodeOperand, Operand.length]

theorem load (op : Operand) : Statement (.load op) := ofOperand _ op

theorem store (op : Operand) : Statement (.store op) := ofOperand _ op

theorem add (op : Operand) : Statement (.add op) := ofOperand _ op

theorem jump (op : Operand) : Statement (.jump op) := ofOperand _ op

theorem jumpTrue (op : Operand) : Statement (.jumpTrue op) := ofOperand _ op

theorem jumpFalse (op : Operand) : Statement (.jumpFalse op) := ofOperand _ op

theorem call (op : Operand) : Statement (.call op) := ofOperand _ op

theorem execute (op : Operand) : Statement (.execute op) := ofOperand _ op

theorem x1 : Statement .x1 := ofOperand _ _

theorem x2 : Statement .x2 := ofOperand _ _

theorem x3 : Statement .x3 := ofOperand _ _

theorem x4 : Statement .x4 := ofOperand _ _

theorem x5 : Statement .x5 := ofOperand _ _

theorem x6 : Statement .x6 := ofOperand _ _

theorem x7 : Statement .x7 := ofOperand _ _

theorem x8 : Statement .x8 := ofOperand _ _

theorem x9 : Statement .x9 := ofOperand _ _

theorem x10 : Statement .x10 := ofOperand _ _

theorem x11 : Statement .x11 := ofOperand _ _

theorem x12 : Statement .x12 := ofOperand _ _

theorem x13 : Statement .x13 := ofOperand _ _

theorem x14 : Statement .x14 := ofOperand _ _

theorem x15 : Statement .x15 := ofOperand _ _

theorem x16 : Statement .x16 := ofOperand _ _

theorem x17 : Statement .x17 := ofOperand _ _

theorem x18 : Statement .x18 := ofOperand _ _

theorem x19 : Statement .x19 := ofOperand _ _

theorem x20 : Statement .x20 := ofOperand _ _

theorem x21 : Statement .x21 := ofOperand _ _

theorem x22 : Statement .x22 := ofOperand _ _

theorem x23 : Statement .x23 := ofOperand _ _

theorem x24 : Statement .x24 := ofOperand _ _

theorem x25 : Statement .x25 := ofOperand _ _

theorem x26 : Statement .x26 := ofOperand _ _

theorem x27 : Statement .x27 := ofOperand _ _

theorem x28 : Statement .x28 := ofOperand _ _

theorem x29 : Statement .x29 := ofOperand _ _

theorem x30 : Statement .x30 := ofOperand _ _

theorem x31 : Statement .x31 := ofOperand _ _

theorem x32 : Statement .x32 := ofOperand _ _

theorem x33 : Statement .x33 := ofOperand _ _

theorem x34 : Statement .x34 := ofOperand _ _

theorem x35 : Statement .x35 := ofOperand _ _

theorem x36 : Statement .x36 := ofOperand _ _

theorem x37 : Statement .x37 := ofOperand _ _

theorem x38 : Statement .x38 := ofOperand _ _

end Sys2Proof.Laws.EncodeLength
end

