-- ==== Sys2Proof/Laws/Step.lean ====
section
/-! SUPPORT. Sums of words, and what fetching an instruction and a step answer. -/

namespace Sys2Proof.Machine

theorem isLong_eq (w : Word) : isLong w = decide (u16 w / 512 % 2 = 1) := getLsbD_eq_decide w 9

theorem u16_add_ofNat (w : Word) (k : Nat) : u16 (w + BitVec.ofNat 16 k) = (u16 w + k) % 65536 := by
  simp [BitVec.toNat_add]

theorem u16_add_one {w : Word} (h : u16 w ≤ 32766) : u16 (w + 1#16) = u16 w + 1 := by
  rw [u16_add_ofNat]
  omega

theorem State.fetch_short {s : State} (hc : u16 s.c ≤ 32766) (h : u16 (s.mem.read (u16 s.c)) / 512 % 2 = 0) :
    s.fetch = .ok (decodeWord (s.mem.read (u16 s.c)) 0#16) := by
  simp only [State.fetch]
  rw [State.load_in (by omega)]
  simp [isLong_eq, h]

theorem State.fetch_long {s : State} (hc : u16 s.c + 1 ≤ 32766) (h : u16 (s.mem.read (u16 s.c)) / 512 % 2 = 1) :
    s.fetch = .ok (decodeWord (s.mem.read (u16 s.c)) (s.mem.read (u16 s.c + 1))) := by
  simp only [State.fetch]
  rw [State.load_in (by omega), u16_add_one (by omega), State.load_in (by omega)]
  simp [isLong_eq, h]

/-- A step that goes on ran an instruction of a running machine, or was of an ended run. -/
theorem step_eq_next {s t : State} (h : step s = .next t) :
    t = s ∨ (s.status = .running ∧ ∃ i, s.fetch = .ok i ∧ exec i s = .next t) := by
  unfold step at h
  split at h
  · rename_i hr
    split at h
    · rename_i i hi
      exact .inr ⟨hr, i, hi, h⟩
    · simp at h
  · injection h with h
    exact .inl h.symm
  · injection h with h
    exact .inl h.symm
  · simp at h

end Sys2Proof.Machine
end

