-- ==== Sys2Proof/Tests/Slice0.lean ====
section
/-! SUPPORT. The model's own tests. Expected values are the spec's: each instruction test is the "Example" or a "Corner
case" of the instruction's rule, each word is written out from 30_encoding.md R70 to R77. The theorems `witness_<Name>` show
concrete values that meet the hypotheses of the statement of that name, clause by clause. -/

namespace Sys2Proof.Tests

open Sys2Proof.Machine

/-! ### Helpers -/

/-- The next state of an outcome. -/
def nextOf : Host.Outcome State Fault Refusal → Option State
  | .next s => some s
  | .fault _ => none
  | .refused _ => none

/-- The fault of an outcome. -/
def faultOf : Host.Outcome State Fault Refusal → Option Fault
  | .next _ => none
  | .fault f => some f
  | .refused _ => none

/-- A small running state at 600 with frame base 1000 and `A`, `B` as given. -/
def at600 (a b : Word) (mem : Memory) : State :=
  { State.reset with a := .word a, b := .word b, c := 600#16, p := 1000#16, mem := mem }

/-- What an instruction leaves in `A`. -/
def resultA (i : Instr) (s : State) : Option Reg := (nextOf (exec i s)).map State.a

/-- The short operand with no flags. -/
def imm (n : BitVec 9) : Operand := ⟨false, false, false, .short n⟩

/-- The long operand with no flags. -/
def immLong (w : Word) : Operand := ⟨false, false, false, .long w⟩

/-- The long operand with the I flag: the word at `w`. -/
def indirect (w : Word) : Operand := ⟨true, false, false, .long w⟩

/-! ### Well-formedness: an ill-formed term is refused -/

theorem test_wf_refuses_canonical_words_of_builtins :
    (Instr.execute (imm 1)).wf = false ∧ (Instr.execute (imm 22)).wf = false ∧ (Instr.execute (imm 38)).wf = false := by
  decide

theorem test_wf_accepts_other_executes :
    (Instr.execute (imm 0)).wf = true ∧ (Instr.execute (imm 39)).wf = true ∧ (Instr.execute (immLong 22)).wf = true ∧
      (Instr.execute ⟨true, false, false, .short 22⟩).wf = true := by
  decide

/-! ### Decoding words written out bit by bit -/

theorem test_decode_load : decodeWord 0b000_1_0_1_0_000000001#16 0 = .load ⟨true, false, true, .short 1⟩ := by decide

theorem test_decode_store : decodeWord 0b001_0_0_1_0_011001000#16 0 = .store ⟨false, false, true, .short 200⟩ := by decide

theorem test_decode_add : decodeWord 0b010_0_0_0_1_000000000#16 0xFFFF = .add ⟨false, false, false, .long 0xFFFF⟩ := by
  decide

theorem test_decode_jump : decodeWord 0b011_0_0_0_1_101010101#16 700 = .jump ⟨false, false, false, .long 700⟩ := by decide

theorem test_decode_jumpTrue : decodeWord 0b100_0_1_0_0_111111111#16 0 = .jumpTrue ⟨false, true, false, .short 511⟩ := by
  decide

theorem test_decode_jumpFalse : decodeWord 0b101_1_1_1_1_000000000#16 545 = .jumpFalse ⟨true, true, true, .long 545⟩ := by
  decide

theorem test_decode_call : decodeWord 0b110_0_0_0_0_000000101#16 0 = .call ⟨false, false, false, .short 5⟩ := by decide

theorem test_decode_execute :
    decodeWord 0b111_1_0_0_0_000101000#16 0 = .execute ⟨true, false, false, .short 40⟩ ∧
      decodeWord 0b111_0_0_0_0_000000000#16 0 = .execute (imm 0) ∧
      decodeWord 0b111_0_0_0_0_000100111#16 0 = .execute (imm 39) ∧
      decodeWord 0b111_0_0_0_1_000010110#16 22 = .execute (immLong 22) := by
  decide

theorem test_decode_alu_builtins :
    decodeWord 0b111_0_0_0_0_000000001#16 0 = .x1 ∧ decodeWord 0b111_0_0_0_0_000000010#16 0 = .x2 ∧
      decodeWord 0b111_0_0_0_0_000000011#16 0 = .x3 ∧ decodeWord 0b111_0_0_0_0_000000101#16 0 = .x5 ∧
      decodeWord 0b111_0_0_0_0_000000110#16 0 = .x6 ∧ decodeWord 0b111_0_0_0_0_000000111#16 0 = .x7 ∧
      decodeWord 0b111_0_0_0_0_000001000#16 0 = .x8 ∧ decodeWord 0b111_0_0_0_0_000001001#16 0 = .x9 ∧
      decodeWord 0b111_0_0_0_0_000001010#16 0 = .x10 ∧ decodeWord 0b111_0_0_0_0_000001011#16 0 = .x11 ∧
      decodeWord 0b111_0_0_0_0_000001100#16 0 = .x12 ∧ decodeWord 0b111_0_0_0_0_000001101#16 0 = .x13 := by
  decide

theorem test_decode_more_alu_builtins :
    decodeWord 0b111_0_0_0_0_000001110#16 0 = .x14 ∧ decodeWord 0b111_0_0_0_0_000001111#16 0 = .x15 ∧
      decodeWord 0b111_0_0_0_0_000010000#16 0 = .x16 ∧ decodeWord 0b111_0_0_0_0_000010001#16 0 = .x17 ∧
      decodeWord 0b111_0_0_0_0_000010010#16 0 = .x18 ∧ decodeWord 0b111_0_0_0_0_000010011#16 0 = .x19 ∧
      decodeWord 0b111_0_0_0_0_000010100#16 0 = .x20 ∧ decodeWord 0b111_0_0_0_0_000010101#16 0 = .x21 := by
  decide

theorem test_decode_control_builtins :
    decodeWord 0b111_0_0_0_0_000000100#16 0 = .x4 ∧ decodeWord 0b111_0_0_0_0_000010110#16 0 = .x22 ∧
      decodeWord 0b111_0_0_0_0_000010111#16 0 = .x23 ∧ decodeWord 0b111_0_0_0_0_000011110#16 0 = .x30 ∧
      decodeWord 0b111_0_0_0_0_000011111#16 0 = .x31 ∧ decodeWord 0b111_0_0_0_0_000100000#16 0 = .x32 ∧
      decodeWord 0b111_0_0_0_0_000100011#16 0 = .x35 ∧ decodeWord 0b111_0_0_0_0_000100110#16 0 = .x38 := by
  decide

theorem test_decode_io_builtins :
    decodeWord 0b111_0_0_0_0_000011000#16 0 = .x24 ∧ decodeWord 0b111_0_0_0_0_000011001#16 0 = .x25 ∧
      decodeWord 0b111_0_0_0_0_000011010#16 0 = .x26 ∧ decodeWord 0b111_0_0_0_0_000011011#16 0 = .x27 ∧
      decodeWord 0b111_0_0_0_0_000011100#16 0 = .x28 ∧ decodeWord 0b111_0_0_0_0_000011101#16 0 = .x29 ∧
      decodeWord 0b111_0_0_0_0_000100001#16 0 = .x33 ∧ decodeWord 0b111_0_0_0_0_000100010#16 0 = .x34 ∧
      decodeWord 0b111_0_0_0_0_000100100#16 0 = .x36 ∧ decodeWord 0b111_0_0_0_0_000100101#16 0 = .x37 := by
  decide

theorem test_decode_refuses_a_missing_literal_by_name :
    decode [] = .error .noInstructionWord ∧ decode [0x6200] = .error .noLiteralWord := by decide

theorem test_decodeTableWord : decodeTableWord 16 0xE016 = some .x22 ∧
    decodeTableWord 32 0x02BC6200 = some (.jump (immLong 700)) := by decide

theorem test_encode : encode (.load ⟨true, true, false, .short 3⟩) = [0x1803] ∧ encode .x22 = [0xE016] ∧
    encode (.jump (immLong 700)) = [0x6200, 0x02BC] := by decide

/-! ### One step of each instruction: the examples of the rules -/

/-- R141. -/
theorem test_load : (nextOf (exec (.load (imm 5)) (at600 7 0 []))).map (fun t => (t.b, t.a, t.c)) =
    some (.word 7, .word 5, 601) := by decide

/-- R142. -/
theorem test_store : (nextOf (exec (.store ⟨false, false, true, .short 200⟩) (at600 0x1234 0 []))).map
    (fun t => (t.mem, t.c)) = some ([(200, 0x1234)], 601) := by decide

/-- R143. -/
theorem test_add_wraps : resultA (.add (imm 1)) (at600 0x7FFF 0 []) = some (.word 0x8000) ∧
    resultA (.add (immLong 0xFFFF)) (at600 1 0 []) = some (.word 0) := by decide

/-- R144. -/
theorem test_jump : (nextOf (exec (.jump (immLong 700)) (at600 0 0 []))).map State.c = some 700 := by decide

/-- R145. -/
theorem test_jumpTrue : (nextOf (exec (.jumpTrue (immLong 600)) (at600 0x8000 0 []))).map State.c = some 600 ∧
    (nextOf (exec (.jumpTrue (immLong 700)) (at600 0 0 []))).map State.c = some 602 := by decide

/-- R146. -/
theorem test_jumpFalse : (nextOf (exec (.jumpFalse (immLong 545)) (at600 0 0 []))).map State.c = some 545 ∧
    (nextOf (exec (.jumpFalse (immLong 545)) (at600 0x8000 0 []))).map State.c = some 602 := by decide

/-- R147. -/
theorem test_call : (nextOf (exec (.call (imm 5)) (at600 2000 0 []))).map (fun t => (t.mem, t.p, t.c, t.a)) =
    some ([(1005, 1000), (1006, 601)], 1005, 2000, .word 2000) := by decide

/-- R148: `XI n` dispatches on the word at `n`. -/
theorem test_execute : (nextOf (exec (.execute (indirect 700)) (at600 0x00FF 0 [(700, 3)]))).map (fun t => (t.a, t.c)) =
    some (.word 0xFF00, 602) := by decide

/-- R148: `X512` faults. -/
theorem test_execute_illegal :
    faultOf (exec (.execute (immLong 512)) (at600 0 0 [])) = some (.illegalBuiltin 512 600) := by decide

/-- R172. -/
theorem test_x1 : resultA .x1 (at600 600 0 [(600, 0xBEEF)]) = some (.word 0xBEEF) ∧
    faultOf (exec .x1 (at600 0xFFFF 0 [])) = some (.storeOutOfRange 65535) := by decide

/-- R173. -/
theorem test_x2 : resultA .x2 (at600 5 0 []) = some (.word 0xFFFB) ∧
    resultA .x2 (at600 0x8000 0 []) = some (.word 0x8000) := by decide

/-- R174. -/
theorem test_x3 : resultA .x3 (at600 0x00FF 0 []) = some (.word 0xFF00) := by decide

/-- R200. -/
theorem test_x4 : (nextOf (exec .x4 { at600 0 0 [(1005, 1000), (1006, 601)] with p := 1005 })).map
    (fun t => (t.p, t.c)) = some (1000, 601) := by decide

/-- R175. -/
theorem test_x5 : resultA .x5 (at600 0xFFF9 6 []) = some (.word 0xFFD6) ∧
    resultA .x5 (at600 300 300 []) = some (.word 0x5F90) := by decide

/-- R176. -/
theorem test_x6 : resultA .x6 (at600 2 0xFFF9 []) = some (.word 0xFFFD) ∧
    resultA .x6 (at600 0xFFFF 0x8000 []) = some (.word 0x8000) := by decide

/-- R176: a divisor of 0. -/
theorem test_x6_by_zero : faultOf (exec .x6 (at600 0 7 [])) = some (.divideByZero 600) := by decide

/-- R178. -/
theorem test_x7 : resultA .x7 (at600 5 17 []) = some (.word 2) ∧
    resultA .x7 (at600 2 0xFFF9 []) = some (.word 0xFFFF) := by decide

/-- R179. -/
theorem test_x8 : resultA .x8 (at600 4 3 []) = some (.word 7) ∧ resultA .x8 (at600 1 0x7FFF []) = some (.word 0x8000) := by
  decide

/-- R180. -/
theorem test_x9 : resultA .x9 (at600 5 3 []) = some (.word 0xFFFE) ∧
    resultA .x9 (at600 0x8000 0 []) = some (.word 0x8000) := by decide

/-- R182. -/
theorem test_x10 : resultA .x10 (at600 5 5 []) = some (.word 0xFFFF) := by decide

/-- R183. -/
theorem test_x11 : resultA .x11 (at600 6 5 []) = some (.word 0xFFFF) ∧ resultA .x11 (at600 0 0 []) = some (.word 0) := by
  decide

/-- R184. -/
theorem test_x12 : resultA .x12 (at600 1 0xFFFF []) = some (.word 0xFFFF) := by decide

/-- R185. -/
theorem test_x13 : resultA .x13 (at600 3 3 []) = some (.word 0xFFFF) ∧
    resultA .x13 (at600 0x7FFF 0x8000 []) = some (.word 0) := by decide

/-- R186. -/
theorem test_x14 : resultA .x14 (at600 0xFFFF 1 []) = some (.word 0xFFFF) ∧ resultA .x14 (at600 3 3 []) = some (.word 0) := by
  decide

/-- R187. -/
theorem test_x15 : resultA .x15 (at600 5 5 []) = some (.word 0xFFFF) ∧
    resultA .x15 (at600 0x8000 0x7FFF []) = some (.word 0) := by decide

/-- R189. -/
theorem test_x16 : resultA .x16 (at600 8 0x00FF []) = some (.word 0xFF00) ∧
    faultOf (exec .x16 (at600 16 1 [])) = some (.shiftOutOfRange 16 600) := by decide

/-- R190. -/
theorem test_x17 : resultA .x17 (at600 4 0xFF00 []) = some (.word 0x0FF0) ∧
    resultA .x17 { at600 15 0x8000 [] with shrKind := .arithmetic } = some (.word 0xFFFF) := by decide

/-- R191. -/
theorem test_x18 : resultA .x18 (at600 0xFF00 0xF0F0 []) = some (.word 0xF000) := by decide

/-- R192. -/
theorem test_x19 : resultA .x19 (at600 0x0F00 0xF0F0 []) = some (.word 0xFFF0) := by decide

/-- R193. -/
theorem test_x20 : resultA .x20 (at600 0xFF00 0xF0F0 []) = some (.word 0x0FF0) := by decide

/-- R194. -/
theorem test_x21 : resultA .x21 (at600 0xFF00 0xF0F0 []) = some (.word 0xF00F) := by decide

/-- R201: `A` may be UNWRITTEN. -/
theorem test_x22 : (nextOf (exec .x22 State.reset)).map State.status = some (.halted 0) := by decide

/-- The case table of the example of R202, at 601. -/
def caseTable : Memory := [(601, 3), (602, 539), (603, 10), (604, 541), (605, 20), (606, 543), (607, 30), (608, 545)]

/-- R202. -/
theorem test_x23 : (nextOf (exec .x23 (at600 20 0 caseTable))).map (fun t => (t.c, t.b)) = some (543, .unwritten) ∧
    (nextOf (exec .x23 (at600 99 0 caseTable))).map State.c = some 539 := by decide

/-- R233. -/
theorem test_x24 : (nextOf (exec .x24 (at600 4 0 []))).map State.selectedInput = some 4 := by decide

/-- R234. -/
theorem test_x25 : (nextOf (exec .x25 (at600 3 0 []))).map State.selectedOutput = some 3 := by decide

/-- A state at 600 whose host answers the reads and opens given. -/
def withHost (reads : List ReadAnswer) (opens : List OpenAnswer) (a : Word) (mem : Memory) : State :=
  { at600 a 0 mem with host := { reads := reads, opens := opens } }

/-- R237. -/
theorem test_x26 : resultA .x26 (withHost [.byte 0x41] [] 0 []) = some (.word 0x0041) ∧
    resultA .x26 (withHost [.eof] [] 0 []) = some (.word 0xFFFF) := by decide

/-- R238. -/
theorem test_x27 : (nextOf (exec .x27 (at600 0x0148 0 []))).map (fun t => t.host.calls) =
    some [.write (.std .stdout) 0x48] := by decide

/-- R241. -/
theorem test_x28 : (nextOf (exec .x28 (at600 700 0 [(700, 0x0553), (701, 0x5953), (702, 0x494E)]))).map
    (fun t => (t.a, t.host.calls)) = some (.word 1, []) := by decide

/-- R242: the name is "out.txt". -/
theorem test_x29 : (nextOf (exec .x29 (withHost [] [.ok] 700
      [(700, 0x076F), (701, 0x7574), (702, 0x2E74), (703, 0x7874)]))).map (fun t => (t.a, t.table.length)) =
    some (.word 4, 5) := by decide

/-- R203. -/
theorem test_x30 : (nextOf (exec .x30 (at600 5 0 []))).map State.status = some (.halted 5) ∧
    (nextOf (exec .x30 (at600 0xFFFF 0 []))).map State.status = some (.halted (-1)) := by decide

/-- R204. -/
theorem test_x31 : resultA .x31 { at600 0 0 [(545, 543)] with p := 545 } = some (.word 543) := by decide

/-- R205. -/
theorem test_x32 : (nextOf (exec .x32 (at600 2000 700 []))).map (fun t => (t.p, t.c)) = some (2000, 700) := by decide

/-- R244. -/
theorem test_x33 : (nextOf (exec .x33 { at600 0 0 [] with
      selectedInput := 4, table := resetTable ++ [.opened 0 .input] })).map
    (fun t => (t.table, t.selectedInput, t.host.calls)) = some (resetTable ++ [.free], 0, [.close (.file 0)]) := by decide

/-- R245. -/
theorem test_x34 : (nextOf (exec .x34 (at600 0 0 []))).map (fun t => (t.table[2]?, t.selectedOutput, t.host.calls)) =
    some (some .free, 0, [.close (.std .stdout)]) := by decide

/-- R206. -/
theorem test_x35 : (nextOf (exec .x35 (at600 2000 3 [(1000, 900), (1001, 650)]))).map (fun t => (t.mem, t.p, t.c)) =
    some ([(1000, 900), (1001, 650), (1004, 900), (1005, 650), (1006, 1000), (1007, 3)], 1004, 2000) := by decide

/-- R247: the bootstrap's string at 518. -/
theorem test_x36 : resultA .x36 (at600 518 1 []) = some (.word 0x0055) ∧
    resultA .x36 (at600 518 0 []) = some (.word 20) := by decide

/-- R248. -/
theorem test_x37 : (nextOf (exec .x37 (at600 600 1 [(600, 0x4142), (1004, 0x007A)]))).map (fun t => t.mem) =
    some [(600, 0x417A), (1004, 0x007A)] := by decide

/-- R207, 95_test_vectors.md P2. -/
theorem test_x38 : (nextOf (exec .x38 { at600 518 0 [(531, 529), (532, 514)] with p := 531 })).map State.status =
    some (.panicked (asciiBytes "Unset global called!") 514) := by decide

/-- R140, 30_encoding.md R71: a step runs the two words at `C`. -/
theorem test_step_long_form : (nextOf (step (at600 7 0 [(600, 0x0200), (601, 0xFFFF)]))).map (fun t => (t.a, t.b, t.c)) =
    some (.word 0xFFFF, .word 7, 602) := by decide

/-- 60_exceptions.md R260. -/
theorem test_step_of_a_halted_machine :
    nextOf (step { State.reset with status := .halted 3 }) = some { State.reset with status := .halted 3 } := by decide

/-- A placed instruction runs next, right after reset. -/
theorem test_withFetchWord : (nextOf (step (State.reset.withFetchWord 32 0xFFFF0200))).map (fun t => (t.a, t.c)) =
    some (.word 0xFFFF, 514) := by decide

/-! ### The assembler -/

/-- The words an assembly of `text` emits from 529 on, at most `n` of them. -/
def assembled (n : Nat) (text : String) : Option (List Word) :=
  match assemble 0 [] (asciiBytes text) with
  | .ok st => some ((List.range (min n (st.p - 529))).map fun k => st.mem.read (529 + k))
  | .error _ => none

/-- R110, R111: short and long forms. -/
theorem test_assemble_operands : assembled 9 "LIP3 L511 L512 L-1 K2" =
    some [0x1803, 0x01FF, 0x0200, 0x0200, 0x0200, 0xFFFF, 0xC002] := by decide +kernel

/-- R112, R113. -/
theorem test_assemble_characters_and_data : assembled 9 "C3 C65 C66 C67 D-5" = some [0x0341, 0x4243, 0xFFFB] := by
  decide +kernel

/-- R116: the forward references at 530 and 532 are patched with 533. -/
theorem test_assemble_labels : assembled 9 "JL10 JL10 10 D1" = some [0x6200, 533, 0x6200, 533, 1] := by decide +kernel

/-- What a launch of `text` puts on the host diagnostic stream, and why it fails, if it does. -/
def launched (text : String) : Option (List Diagnostic × Option AsmFailure) :=
  match ({ text := asciiBytes text } : Launch).start with
  | .next t => some (t.host.diagnostics, none)
  | .refused (.assemblyFailed reason sent) => some (sent, some reason)
  | .refused (.notModelled _) => none
  | .fault _ => none

/-- R119 and 95_test_vectors.md E14, E20, E22: the four kinds reach the host, in the order they are sent, and assembly goes
on. -/
theorem test_diagnostics_reach_the_host :
    launched "LGI5 DL10 10 10 JL4 Z 4 G1 5" = some ([.badChar, .duplicateLabel 10, .unset 4, .badCode], none) := by
  decide +kernel

/-- R104, R120, R266: a label out of range stops assembly, and the BadChar already sent stays sent. -/
theorem test_diagnostics_outlive_a_failure : launched "? 512" = some ([.badChar], some (.labelOutOfRange 512)) := by
  decide +kernel

/-! ### Witnesses: values that meet the hypotheses of the statements -/

theorem witness_DecodeUndoesEncode : (Instr.execute ⟨true, true, true, .long 0xFFFF⟩).wf = true ∧
    (Instr.execute (imm 39)).wf = true ∧ (Instr.load (imm 511)).wf = true := by decide

theorem witness_BuiltinRowsAreTheirCanonicalWords : (1 ≤ 1 ∧ 1 ≤ 38 ∧ u16 0xE001 = 0xE000 + 1) ∧
    (1 ≤ 38 ∧ 38 ≤ 38 ∧ u16 0xE026 = 0xE000 + 38) := by decide

/-- A short word at the last address, and a long form in the last two. -/
theorem witness_StepRunsTheDecodedInstruction :
    (let s := { at600 0 0 [(32766, 0xE016)] with c := 32766 }
     s.status = .running ∧ u16 s.c ≤ 32766 ∧ u16 (s.mem.read (u16 s.c)) / 512 % 2 = 0) ∧
    (let s := { at600 0 0 [(32765, 0x0200)] with c := 32765 }
     s.status = .running ∧ u16 s.c ≤ 32766 ∧ u16 (s.mem.read (u16 s.c)) / 512 % 2 = 1 ∧ u16 s.c + 1 ≤ 32766) := by
  decide

theorem witness_FetchOutsideTheStoreFaults :
    (let s := { at600 0 0 [] with c := 32767 }
     s.status = .running ∧ 32766 < u16 s.c) ∧
    (let s := { at600 0 0 [(32766, 0x0200)] with c := 32766 }
     s.status = .running ∧ u16 s.c = 32766 ∧ u16 (s.mem.read 32766) / 512 % 2 = 1) := by decide

theorem witness_TerminalOutcomeIsNeverLeft : { State.reset with status := .halted 0 }.status = .halted 0 ∧
    { State.reset with status := .panicked [] 514 }.status = .panicked [] 514 ∧
    { State.reset with status := .faulted (.noStream 0) }.status = .faulted (.noStream 0) := by decide

theorem witness_PlacedInstructionRunsNext : State.reset.mem.wf = true ∧ (at600 0 0 caseTable).mem.wf = true := by decide

/-- Both literal forms, and an address on each side of the end of the store. -/
theorem witness_OperandFollowsTheFlags : (imm 511).literal = .short 511 ∧ (511 = (511 : BitVec 9).toNat) ∧
    (immLong 0xFFFF).literal = .long 0xFFFF ∧ 65535 = u16 0xFFFF ∧
    ((indirect 32766).indirect = true ∧ (u16 32766 + 0 + 0) % 65536 ≤ 32766) ∧
    ((indirect 32767).indirect = true ∧ 32766 < (u16 32767 + 0 + 0) % 65536) := by decide

/-- The hypotheses the primary opcodes share: a decoded operand, a decode that faults, and a word of the opcode. -/
theorem witness_LoadMovesTheOldAccumulatorToB : (at600 7 0 []).operandValue (imm 5) = .ok 5 ∧
    (at600 7 0 []).operandValue (indirect 32767) = .error (.storeOutOfRange 32767) ∧ u16 0x1FFF / 8192 = 0 := by decide

theorem witness_StoreWritesTheWordAtItsOperand : (at600 7 0 []).mem.wf = true ∧ (at600 7 0 []).a = .word 7 ∧
    (at600 7 0 []).operandValue (immLong 32766) = .ok 32766 ∧ u16 32766 ≤ 32766 ∧
    (at600 7 0 []).operandValue (immLong 32767) = .ok 32767 ∧ 32766 < u16 32767 ∧
    State.reset.a = .unwritten ∧ State.reset.operandValue (imm 5) = .ok 5 ∧ u16 0x3FFF / 8192 = 1 := by decide

theorem witness_AddWrapsAround : (at600 7 0 []).operandValue (imm 5) = .ok 5 ∧ (at600 7 0 []).a = .word 7 ∧
    State.reset.a = .unwritten ∧ u16 0x5FFF / 8192 = 2 := by decide

theorem witness_JumpGoesToItsOperand : (at600 7 0 []).operandValue (immLong 0xFFFF) = .ok 0xFFFF ∧
    u16 0x7FFF / 8192 = 3 := by decide

theorem witness_ConditionalJumpsTestAAgainstZero : (at600 0 0 []).operandValue (imm 5) = .ok 5 ∧
    ((at600 0 0 []).a = .word 0 ∧ u16 0 = 0) ∧ ((at600 1 0 []).a = .word 1 ∧ 0 < u16 1) ∧
    State.reset.a = .unwritten ∧ u16 0x9FFF / 8192 = 4 ∧ u16 0xBFFF / 8192 = 5 := by decide

/-- The frame base at 32765, 32766 and 32767. -/
theorem witness_CallBuildsAFrame : (at600 7 0 []).mem.wf = true ∧ (at600 7 0 []).a = .word 7 ∧
    ((at600 7 0 []).operandValue (immLong 31765) = .ok 31765 ∧ u16 (BitVec.ofNat 16 (1000 + 31765)) < 32766) ∧
    ((at600 7 0 []).operandValue (immLong 31766) = .ok 31766 ∧ u16 (BitVec.ofNat 16 (1000 + 31766)) = 32766) ∧
    ((at600 7 0 []).operandValue (immLong 31767) = .ok 31767 ∧ 32766 < u16 (BitVec.ofNat 16 (1000 + 31767))) ∧
    State.reset.a = .unwritten ∧ u16 0xDFFF / 8192 = 6 := by decide

/-- A callee that returns at once is a state `u` of the statement. -/
theorem witness_ReturnUndoesCall : (at600 7 0 []).mem.wf = true ∧ (at600 7 0 []).operandValue (immLong 31765) = .ok 31765 ∧
    (at600 7 0 []).a = .word 7 ∧ (u16 (at600 7 0 []).p + u16 31765) % 65536 < 32766 := by decide

theorem witness_IllegalBuiltinFaults : (at600 7 0 []).operandValue (imm 0) = .ok 0 ∧ u16 0 = 0 ∧
    (at600 7 0 []).operandValue (imm 39) = .ok 39 ∧ 38 < u16 39 := by decide

theorem witness_ExecutePerformsTheBuiltinItSelects :
    (at600 7 0 [(40, 38)]).operandValue ⟨true, false, false, .short 40⟩ = .ok 38 ∧
    Instr.x38.builtinId? = some (u16 38) ∧ Operand.length ⟨true, false, false, .short 40⟩ = 1 ∧
    (at600 7 0 []).operandValue (immLong 1) = .ok 1 ∧ Instr.x1.builtinId? = some (u16 1) ∧ (immLong 1).length = 2 := by
  decide

/-- A fault that carries no address, and both that carry one, of the long form. -/
theorem witness_ExecutePerformsTheBuiltinItSelects_faults :
    exec (.execute (immLong 6)) (at600 0 9 []) = .fault (.divideByZero 600) ∧
    exec .x6 { at600 0 9 [] with c := 601 } = .fault (.divideByZero 601) ∧
    exec (.execute (immLong 16)) (at600 16 9 []) = .fault (.shiftOutOfRange 16 600) ∧
    exec .x16 { at600 16 9 [] with c := 601 } = .fault (.shiftOutOfRange 16 601) ∧
    exec (.execute (immLong 1)) (at600 32767 9 []) = .fault (.storeOutOfRange 32767) := ⟨rfl, rfl, rfl, rfl, rfl⟩

theorem witness_ExecuteCompletesThroughAnyOperand : (at600 7 9 []).operandValue (immLong 22) = .ok 22 ∧ u16 22 = 22 ∧
    (at600 7 9 []).operandValue (immLong 3) = .ok 3 ∧ (at600 7 9 []).operandValue (immLong 8) = .ok 8 ∧
    (at600 7 9 []).a = .word 7 ∧ (at600 7 9 []).b = .word 9 := by decide

theorem witness_BinaryBuiltinsReadBThenAAndWriteOnlyA : Instr.x5.builtinId? = some 5 ∧ Instr.x21.builtinId? = some 21 ∧
    (nextOf (exec .x21 (at600 7 9 []))).isSome = true ∧ State.reset.b = .unwritten ∧
    ({ State.reset with b := .word 1 }.b = .word 1 ∧ { State.reset with b := .word 1 }.a = .unwritten) := by decide

theorem witness_LoadindReadsTheWordAtA : ((at600 32766 0 []).a = .word 32766 ∧ u16 32766 ≤ 32766) ∧
    ((at600 32767 0 []).a = .word 32767 ∧ 32766 < u16 32767) ∧ State.reset.a = .unwritten := by decide

theorem witness_NegAndNotComplementA : (at600 0x8000 0 []).a = .word 0x8000 ∧ State.reset.a = .unwritten := by decide

theorem witness_MulAddSubWrapAround : (at600 0xFFFF 0x8000 []).a = .word 0xFFFF ∧
    (at600 0xFFFF 0x8000 []).b = .word 0x8000 := by decide

theorem witness_DivAndRemTruncateTowardZero : ((at600 0 7 []).a = .word 0 ∧ (at600 0 7 []).b = .word 7 ∧ s16 0 = 0) ∧
    ((at600 0xFFFF 0x8000 []).a = .word 0xFFFF ∧ (at600 0xFFFF 0x8000 []).b = .word 0x8000 ∧ s16 0xFFFF ≠ 0) := by decide

theorem witness_RelationalBuiltinsLeaveAllOnesOrZero : (at600 0x7FFF 0x8000 []).a = .word 0x7FFF ∧
    (at600 0x7FFF 0x8000 []).b = .word 0x8000 := by decide

theorem witness_ShiftsMoveTheBitsOfB : ((at600 0 1 []).a = .word 0 ∧ (at600 0 1 []).b = .word 1 ∧ s16 0 = (0 : Nat)) ∧
    ((at600 15 1 []).a = .word 15 ∧ s16 15 = (15 : Nat)) ∧ ((at600 16 1 []).a = .word 16 ∧ 15 < s16 16) ∧
    ((at600 0xFFFF 1 []).a = .word 0xFFFF ∧ s16 0xFFFF < 0) := by decide

theorem witness_BitwiseBuiltinsActOnEachBit : (at600 0xFF00 0xF0F0 []).a = .word 0xFF00 ∧
    (at600 0xFF00 0xF0F0 []).b = .word 0xF0F0 := by decide

theorem witness_RtnPopsTheFrame : 32766 < u16 { at600 0 0 [] with p := 32767 }.p ∧
    u16 { at600 0 0 [] with p := 32766 }.p = 32766 ∧ u16 { at600 0 0 [] with p := 32765 }.p < 32766 := by decide

theorem witness_HaltsCarryTheirCode : (at600 0x8000 0 []).a = .word 0x8000 ∧ State.reset.a = .unwritten := by decide

/-- The clauses of SWITCHON: a count or a default outside the store, no match, a match, and a pair that ends outside. -/
theorem witness_SwitchonTakesTheFirstMatch :
    (let s := { at600 20 0 [] with c := 32766 }
     s.a = .word 20 ∧ 32766 < (u16 (s.c + 1#16) + 0) % 65536) ∧
    (let s := { at600 20 0 [] with c := 32765 }
     (u16 (s.c + 1#16) + 0) % 65536 ≤ 32766 ∧ 32766 < (u16 (s.c + 1#16) + 1) % 65536) ∧
    (let s := at600 99 0 caseTable
     s.a = .word 99 ∧ u16 (s.mem.read 601) = 3 ∧ ∀ k, k < 3 → 601 + (2 + 2 * k) ≤ 32766 ∧ s.mem.read (601 + (2 + 2 * k)) ≠ 99) ∧
    (let s := at600 20 0 caseTable
     1 < u16 (s.mem.read 601) ∧ (∀ k, k < 1 → s.mem.read (601 + (2 + 2 * k)) ≠ 20) ∧ s.mem.read (601 + (2 + 2 * 1)) = 20) ∧
    (let s := { at600 20 0 [(32764, 1), (32766, 20)] with c := 32763 }
     0 < u16 (s.mem.read 32764) ∧ s.mem.read (32764 + 2) = 20 ∧ 32766 < (32764 + 3) % 65536) ∧
    (let s := { at600 20 0 [(32765, 1)] with c := 32764 }
     0 < u16 (s.mem.read 32765) ∧ (32765 + 1) % 65536 ≤ 32766 ∧ 32766 < (32765 + 2) % 65536) := by decide

theorem witness_LevelAndLongjumpMoveFrames : u16 { at600 2 3 [] with p := 32766 }.p ≤ 32766 ∧
    32766 < u16 { at600 2 3 [] with p := 32767 }.p ∧ (at600 2 3 []).a = .word 2 ∧ (at600 2 3 []).b = .word 3 ∧
    State.reset.a = .unwritten ∧
    ({ State.reset with a := .word 1 }.a = .word 1 ∧ { State.reset with a := .word 1 }.b = .unwritten) := by decide

/-- The new frame ending at the last word, and one word further. -/
theorem witness_AptovecBuildsAVectorFrame :
    (let s := at600 2000 31762 []
     s.mem.wf = true ∧ s.a = .word 2000 ∧ s.b = .word 31762 ∧ 32763 = (u16 s.p + u16 31762 + 1) % 65536 ∧
       u16 s.p ≤ 32766 ∧ (u16 s.p + 1) % 65536 ≤ 32766 ∧ 32763 + 3 ≤ 32766) ∧
    [1000, 1001, 32764, 32765, 32766, 32767].find? (fun a => decide (32766 < a)) = some 32767 := by decide

theorem witness_PanicReportsTheStringAndTheCaller :
    (let s := at600 518 0 []
     s.a = .word 518 ∧ s.readString 518 = .ok (asciiBytes "Unset global called!") ∧ (u16 s.p + 1) % 65536 ≤ 32766) ∧
    (let s := { at600 518 0 [] with p := 32766 }
     s.readString 518 = .ok (asciiBytes "Unset global called!") ∧ 32766 < (u16 s.p + 1) % 65536) ∧
    ((at600 32767 0 []).a = .word 32767 ∧ (at600 32767 0 []).readString 32767 = .error (.storeOutOfRange 32767)) := by
  decide

theorem witness_StreamsResolveByDirection : inStream resetTable 1 = .ok (.std .stdin) ∧
    inStream resetTable 0 = .error (.noStream 0) ∧ inStream resetTable 4 = .error (.noStream 4) ∧
    outStream resetTable 3 = .ok (.std .stderr) ∧ outStream resetTable 1 = .error (.noStream 1) := by decide

theorem witness_SelectsStoreTheSlotUnchecked : (at600 0xFFFF 0 []).a = .word 0xFFFF ∧ State.reset.a = .unwritten := by
  decide

theorem witness_RdchReadsOneByte : inStream State.reset.table (u16 State.reset.selectedInput) = .ok (.std .stdin) ∧
    (withHost [.byte 0xFF] [] 0 []).host.reads = .byte 0xFF :: [] ∧ (withHost [.eof] [] 0 []).host.reads = .eof :: [] ∧
    (withHost [.never] [] 0 []).host.reads = .never :: [] ∧ (withHost [] [] 0 []).host.reads = [] ∧
    (let s := { State.reset with selectedInput := 2 }
     inStream s.table (u16 s.selectedInput) = .error (.noStream 2)) := by
  decide

theorem witness_WrchWritesTheLowByte : (at600 0x0148 0 []).a = .word 0x0148 ∧
    outStream (at600 0x0148 0 []).table (u16 (at600 0x0148 0 []).selectedOutput) = .ok (.std .stdout) ∧
    ({ writes := [.never] : HostSide }.writes = .never :: [] ∧ { writes := [.done] : HostSide }.writes ≠ [.never]) ∧
    outStream (at600 0 0 []).table 1 = .error (.noStream 1) ∧ State.reset.a = .unwritten := by decide

/-- The name "SYSERROR" at 700. -/
def sysError : Memory := [(700, 0x0853), (701, 0x5953), (702, 0x4552), (703, 0x524F), (704, 0x5200)]

theorem witness_StandardNamesGiveTheirSlots : (at600 700 0 sysError).a = .word 700 ∧
    (at600 700 0 sysError).readString 700 = .ok [0x53, 0x59, 0x53, 0x45, 0x52, 0x52, 0x4F, 0x52] ∧
    (at600 32767 0 []).readString 32767 = .error (.storeOutOfRange 32767) ∧ State.reset.a = .unwritten := by decide

/-- A name of no bytes, a free slot below the end, and a full table at its limit. -/
theorem witness_FindOpensIntoTheLeastFreeSlot : (at600 700 0 []).readString 700 = .ok [] ∧
    (∀ cell ∈ standardNames, cell.1 ≠ [] ∧ cell.1 ≠ asciiBytes "sysin") ∧
    (withHost [] [.never] 700 []).host.opens = .never :: [] ∧ (withHost [] [.fail] 700 []).host.opens = .fail :: [] ∧
    (withHost [] [.ok] 700 []).host.opens = .ok :: [] ∧ (withHost [] [] 700 []).host.opens = [] ∧
    ((resetTable.set 2 .free)[2]? = some .free ∧ ∀ j, j < 2 → 1 ≤ j → (resetTable.set 2 .free)[j]? ≠ some .free) ∧
    (∀ k, k < 5 → 1 ≤ k → resetTable[k]? ≠ some .free) ∧ resetTable.length ≤ 32767 := by decide

/-- A table that is full up to MAX_SLOT: no slot is free and the next would pass it. -/
theorem witness_FindOpensIntoTheLeastFreeSlot_overflow :
    (∀ k : Nat, (List.replicate 32768 (Slot.std .stdin))[k]? ≠ some .free) ∧
      32767 < (List.replicate 32768 (Slot.std .stdin)).length := by
  refine ⟨fun k => ?_, by rw [List.length_replicate]; decide⟩
  rw [List.getElem?_replicate]
  split <;> simp

theorem witness_ClosesFreeTheSelectedSlot : inStream resetTable 1 = .ok (.std .stdin) ∧
    outStream resetTable 2 = .ok (.std .stdout) ∧ inStream resetTable 0 = .error (.noStream 0) ∧
    outStream resetTable 0 = .error (.noStream 0) := by decide

theorem witness_ClosedSlotIsReusedByTheNextOpen :
    (let s := withHost [] [.ok] 700 []
     1 ≤ u16 s.selectedInput ∧ (nextOf (exec .x33 s)).map (fun t => t.a) = some (.word 700) ∧
       s.readString 700 = .ok [] ∧ (∀ cell ∈ standardNames, cell.1 ≠ []) ∧ s.host.opens = .ok :: [] ∧
     u16 s.selectedOutput = 2 ∧ (∀ j, j < 2 → 1 ≤ j → s.table[j]? ≠ some .free) ∧
       (nextOf (exec .x34 s)).map (fun t => t.a) = some (.word 700)) := by decide

/-- A length byte outside, a string that passes the end, and one whose last byte is the last of the store. -/
theorem witness_ReadStringTakesTheBytesAfterTheLength : 32766 < u16 32767 ∧
    (u16 32766 ≤ 32766 ∧ 32766 < u16 32766 + 2 / 2) ∧ u16 32766 + 1 / 2 ≤ 32766 := by decide

theorem witness_GetbyteReadsMostSignificantFirst : (at600 32766 1 []).a = .word 32766 ∧ (at600 32766 1 []).b = .word 1 ∧
    u16 32766 + u16 1 / 2 ≤ 32766 ∧ 32766 < u16 32766 + u16 2 / 2 ∧ State.reset.a = .unwritten ∧
    ({ State.reset with a := .word 1 }.a = .word 1 ∧ { State.reset with a := .word 1 }.b = .unwritten) := by decide

theorem witness_PutbyteChangesOneByte : (at600 32766 1 []).mem.wf = true ∧ (at600 32766 1 []).a = .word 32766 ∧
    (at600 32766 1 []).b = .word 1 ∧ ((u16 (at600 32766 1 []).p + 4) % 65536 ≤ 32766 ∧ u16 32766 + u16 1 / 2 ≤ 32766) ∧
    32766 < u16 32766 + u16 2 / 2 ∧ 32766 < (u16 32763 + 4) % 65536 := by decide

/-- The hypothesis of the frame statements, an instruction that goes on: one of each kind they tell apart. -/
theorem witness_NoInstructionWritesG : (nextOf (exec (.load (imm 5)) State.reset)).isSome = true ∧
    (nextOf (exec (.execute (immLong 22)) State.reset)).isSome = true := by decide

theorem witness_OnlyTheirWritersChangeRegisters : (nextOf (exec (.load (imm 5)) State.reset)).isSome = true ∧
    (nextOf (exec .x23 (at600 20 0 caseTable))).isSome = true ∧ (nextOf (exec .x31 State.reset)).isSome = true := by decide

theorem witness_SequentialInstructionsAdvanceC : (nextOf (exec (.load (immLong 5)) State.reset)).isSome = true ∧
    (nextOf (exec (.jump (imm 5)) State.reset)).isSome = true := by decide

theorem witness_OnlyFourInstructionsWriteTheStore : (nextOf (exec .x35 (at600 7 0 []))).isSome = true ∧
    (nextOf (exec .x22 State.reset)).isSome = true := by decide

theorem witness_OnlyTheirBuiltinsReachTheFileTableAndTheHost : (nextOf (exec .x33 State.reset)).isSome = true ∧
    (nextOf (exec .x22 State.reset)).isSome = true := by decide

/-- A state at an X33 whose host has closed stream 0 and given stream 1 in slot 4, now selected. -/
def beforeClose : State :=
  { at600 7 0 [(600, 0xE021)] with
    table := [.sentinel, .std .stdin, .free, .std .stderr, .opened 1 .input]
    selectedInput := 4
    host := { nextHandle := 2, calls := [.openFile [] .output (some (.file 0)), .close (.file 0)] } }

theorem beforeClose_slots {i : Nat} {slot : Slot} (h : beforeClose.table[i]? = some slot) :
    (i, slot) ∈ [(0, .sentinel), (1, .std .stdin), (2, .free), (3, .std .stderr), (4, Slot.opened 1 .input)] := by
  match i with
  | 0 | 1 | 2 | 3 | 4 => simp [beforeClose] at h; simp [← h]
  | n + 5 => simp [beforeClose] at h

theorem witness_EveryStepKeepsTheInvariant : beforeClose.Inv ∧ (nextOf (step beforeClose)).isSome = true := by
  refine ⟨⟨by decide, by decide, ?_, ?_, ?_, ?_, ?_, ?_⟩, by decide⟩
  · intro i slot h
    have hm := beforeClose_slots h
    simp only [List.mem_cons, Prod.mk.injEq, List.not_mem_nil, or_false] at hm
    rcases hm with ⟨rfl, rfl⟩ | ⟨rfl, rfl⟩ | ⟨rfl, rfl⟩ | ⟨rfl, rfl⟩ | ⟨rfl, rfl⟩ <;>
      simp [Slot.fitsAt, StdStream.slot]
  · intro i n dir h
    have hm := beforeClose_slots h
    simp at hm
    simp [beforeClose, hm.2.1]
  · intro i j n dir dir' h h'
    have hm := beforeClose_slots h
    have hm' := beforeClose_slots h'
    simp at hm hm'
    omega
  · intro name dir n h
    simp [beforeClose] at h
    simp [beforeClose, h.2.2]
  · intro n h
    simp [beforeClose] at h
    simp [beforeClose, h]
  · intro hd h i slot hs
    have hm := beforeClose_slots hs
    simp [beforeClose] at h
    subst h
    simp only [List.mem_cons, Prod.mk.injEq, List.not_mem_nil, or_false] at hm
    rcases hm with ⟨rfl, rfl⟩ | ⟨rfl, rfl⟩ | ⟨rfl, rfl⟩ | ⟨rfl, rfl⟩ | ⟨rfl, rfl⟩ <;> simp [Slot.handle?]

/-- The same state makes a host call in its next step. -/
theorem witness_ClosedHandlesAreNeverUsedAgain : beforeClose.Inv ∧
    (nextOf (step beforeClose)).map (fun t => t.host.calls.getLast?) = some (some (.close (.file 1))) :=
  ⟨witness_EveryStepKeepsTheInvariant.1, by decide⟩

theorem witness_ReadGivesTheLastWrite : Memory.wf [] = true ∧ 32766 ≤ 32766 ∧ Memory.wf caseTable = true := by decide

theorem witness_CanonicalStoresThatReadAlikeAreEqual : Memory.wf caseTable = true ∧
    ∀ a, a ≤ 32766 → Memory.read caseTable a = Memory.read caseTable a := ⟨by decide, fun _ _ => rfl⟩

theorem witness_EmptyTextLaunchHoldsTheBootstrap : Memory.wf caseTable = true := by decide

theorem witness_LaunchedStatesMeetTheInvariant : ({} : Launch).drawn.wf = true ∧ ({} : Launch).host.calls = [] ∧
    (nextOf ({} : Launch).start).isSome = true := by decide +kernel

/-- The assembler right after the bootstrap's start, two early references and a late one. -/
theorem witness_LabelReferencesResolveInAnyOrder :
    (let st := Asm.start 0 [] []
     511 < 512 ∧ st.labels.length = 512 ∧ st.label 511 = 0 ∧ st.mem.wf = true ∧ 0 < st.p ∧ st.p ≤ 32767) ∧
    ([1, 32766] : List Nat).Nodup ∧ (∀ a ∈ ([1, 32766] : List Nat), 0 < a ∧ a ≤ 32766) := by decide +kernel

/-- A text that assembles, and the bytes of `?` and of a tab, which start no token, before a text that assembles and before
one that does not. -/
theorem witness_AssemblyReadsTheWholeText : (assemble 0 [] (asciiBytes "L5")).isOk = true ∧
    (∀ ch ∈ [0x3F, 0x09], ch ∉ tokenStarts) ∧ u16 32255 + 511 ≤ 32766 ∧ launched "?L5" = some ([.badChar], none) ∧
    launched "?512" = some ([.badChar], some (.labelOutOfRange 512)) := by decide +kernel

/-- Tokens that go on and tokens that stop, from a state that has already sent a diagnostic. -/
theorem witness_AssemblyReadsTheWholeText_tokens :
    (Asm.tokens 2 ((Asm.start 0 [] (asciiBytes "L5")).report (.unset 4))).isOk = true ∧
    (Asm.tokens 3 ((Asm.start 0 [] (asciiBytes "512")).report (.unset 4))).isOk = false ∧
    (assemble 0 [] (asciiBytes "?512")).isOk = false := by decide +kernel

/-- The numbers 511 and 512, on each side of the short form's limit. -/
theorem witness_AssembledInstructionsAreEncoded : 7 < 8 ∧ (Asm.start 0 [] []).mem.wf = true ∧
    { Asm.start 0 [] [] with p := 32766 }.p + (if 511 < 512 then 1 else 2) ≤ 32767 ∧
    { Asm.start 0 [] [] with p := 32765 }.p + (if 512 < 512 then 1 else 2) ≤ 32767 ∧ (∀ ch ∈ asciiBytes "511", isDigit ch = true) ∧
    511 = (asciiBytes "511").foldl (fun acc ch => 10 * acc + (ch.toNat - 48)) 0 ∧
    512 = (asciiBytes "512").foldl (fun acc ch => 10 * acc + (ch.toNat - 48)) 0 ∧ isDigit (ascii ' ') = false := by decide

end Sys2Proof.Tests
end

section
/-! Length-prefixed strings in the store (20_memory.md R55, R56): what a run of byte reads answers and which byte faults. -/

namespace Sys2Proof.Machine

/-- Byte `i` of the string at `base`, by arithmetic on the stored word (20_memory.md R54, R55). -/
def State.stringByte (s : State) (base : Word) (i : Nat) : Byte :=
  BitVec.ofNat 8
    (if i % 2 = 0 then u16 (s.mem.read (u16 base + i / 2)) / 256 else u16 (s.mem.read (u16 base + i / 2)) % 256)

theorem State.getByte_in {s : State} {base : Word} {i : Nat} (h : u16 base + i / 2 ≤ 32766) :
    s.getByte base i = .ok (s.stringByte base i) := by
  rw [State.getByte_eq, if_pos h, State.stringByte]

theorem State.getByte_out {s : State} {base : Word} {i : Nat} (h : 32766 < u16 base + i / 2) :
    s.getByte base i = .error (.storeOutOfRange (u16 base + i / 2)) := by
  rw [State.getByte_eq, if_neg (by omega)]

/-- When the last byte read lies in the store, so do the others, and all are answered in order. -/
theorem State.getBytes_in {s : State} {base : Word} (n : Nat) :
    ∀ i, u16 base + (i + n - 1) / 2 ≤ 32766 →
      s.getBytes base i n = .ok ((List.range n).map fun k => s.stringByte base (k + i)) := by
  induction n with
  | zero => exact fun _ _ => rfl
  | succ n ih =>
    intro i h
    have hi : u16 base + i / 2 ≤ 32766 := by omega
    have hrest : u16 base + (i + 1 + n - 1) / 2 ≤ 32766 := by omega
    rw [State.getBytes, State.getByte_in hi, ok_bind, ih (i + 1) hrest, ok_bind, List.range_succ_eq_map,
      List.map_cons, List.map_map, Nat.zero_add]
    simp only [Function.comp_def, Nat.succ_add_eq_add_succ]
    rfl

/-- Two bytes share a word, so a read that starts no later than the first word outside the store and reaches it faults
with exactly that word's address. -/
theorem State.getBytes_out {s : State} {base : Word} (n : Nat) :
    ∀ i, u16 base + i / 2 ≤ 32767 → 0 < n → 32766 < u16 base + (i + n - 1) / 2 →
      s.getBytes base i n = .error (.storeOutOfRange 32767) := by
  induction n with
  | zero => exact fun _ _ h => absurd h (Nat.lt_irrefl 0)
  | succ n ih =>
    intro i hstart _ hend
    by_cases hi : u16 base + i / 2 ≤ 32766
    · have hn : 0 < n := by omega
      have hnext : u16 base + (i + 1) / 2 ≤ 32767 := by omega
      rw [State.getBytes, State.getByte_in hi, ok_bind, ih (i + 1) hnext hn (by omega), error_bind]
    · have haddr : u16 base + i / 2 = 32767 := by omega
      rw [State.getBytes, State.getByte_out (by omega), error_bind, haddr]

/-- Once the length byte is in the store, the answer is that of reading as many bytes from byte 1 on. -/
theorem State.readString_of_length_in {s : State} {base : Word} (h : u16 base ≤ 32766) :
    s.readString base = s.getBytes base 1 (s.stringByte base 0).toNat := by
  rw [State.readString, State.getByte_in (by omega), ok_bind]

/-- Settles O43: the length byte decides between the fault at `base` and a run of byte reads, which answers or faults as a
whole by where its last byte lies. -/
theorem readStringTakesTheBytesAfterTheLength : Obligations.ReadStringTakesTheBytesAfterTheLength := by
  intro s base byteAt n hbyteAt hn
  obtain rfl : byteAt = s.stringByte base := funext hbyteAt
  refine ⟨fun hout => ?_, fun hin hout => ?_, fun hin => ?_⟩
  · rw [State.readString, State.getByte_out (by omega), error_bind, Nat.zero_div, Nat.add_zero]
  · rw [State.readString_of_length_in hin, ← hn]
    exact State.getBytes_out n 1 (by omega) (by omega) (by omega)
  · rw [State.readString_of_length_in (by omega), ← hn]
    exact State.getBytes_in n 1 (by omega)

end Sys2Proof.Machine
end

section
/-! The primary opcodes (41_cycle_primary.md R141 to R147) and the return (43_builtins_control.md R200): the words that
decode to them, and what each answers once its operand is decoded. -/

namespace Sys2Proof

theorem opField_eq (w : Word) : opField w = u16 w / 8192 := by
  have hw : u16 w / 8192 < 2 ^ 3 := by
    have := u16_lt w
    omega
  rw [opField, BitVec.extractLsb'_toNat, Nat.shiftRight_eq_div_pow]
  exact Nat.mod_eq_of_lt hw

/-- The rows an opcode field stands for (30_encoding.md R72), as a function of the operand. -/
def instrOfOpcode (n : Nat) (op : Operand) : Instr :=
  match n with
  | 0 => .load op
  | 1 => .store op
  | 2 => .add op
  | 3 => .jump op
  | 4 => .jumpTrue op
  | 5 => .jumpFalse op
  | 6 => .call op
  | _ => executeOf op

theorem decodeWord_eq (w lit : Word) : decodeWord w lit = instrOfOpcode (opField w) (operandOf w lit) := rfl

namespace Machine

theorem isOpcodeOf_instrOfOpcode (n : Nat) : IsOpcodeOf n (instrOfOpcode n) :=
  fun w lit hw => by rw [decodeWord_eq, opField_eq, hw]

/-- The instructions `mk` are operand decode and then `act` on the operand and the state decode left. -/
def ActsOnOperand (mk : Operand → Instr) (act : Word → State → Run State) : Prop :=
  ∀ op s, exec (mk op) s = withOperand op s act

section ActsOnOperand

variable {mk : Operand → Instr} {act : Word → State → Run State}

theorem ActsOnOperand.decodeFaultsFirst (h : ActsOnOperand mk act) : DecodeFaultsFirst mk :=
  fun op s _ hf => (h op s).trans (withOperand_error hf act)

theorem ActsOnOperand.exec_decoded (h : ActsOnOperand mk act) {s : State} {op : Operand} {d : Word}
    (hd : s.operandValue op = .ok d) : exec (mk op) s = finish (act d (s.atOperand op d)) :=
  (h op s).trans (withOperand_ok hd act)

end ActsOnOperand

/-- An action that first reads `A` for use (10_state.md R22) and then does `act` with `A`, the operand and the state. -/
def readingA (act : Word → Word → State → Run State) (d : Word) (t : State) : Run State := do
  let x ← t.valA
  act x d t

section readingA

variable {mk : Operand → Instr} {act : Word → Word → State → Run State} {s : State} {op : Operand} {d : Word}

theorem exec_readingA_unwritten (h : ActsOnOperand mk (readingA act)) (hd : s.operandValue op = .ok d)
    (ha : s.a = .unwritten) : exec (mk op) s = .fault (.unwrittenRegister .A) := by
  have hval : (s.atOperand op d).valA = .error (.unwrittenRegister .A) := State.valA_unwritten ha
  rw [h.exec_decoded hd, readingA, hval, error_bind, finish_error]

theorem exec_readingA_word (h : ActsOnOperand mk (readingA act)) (hd : s.operandValue op = .ok d) {x : Word}
    (ha : s.a = .word x) : exec (mk op) s = finish (act x d (s.atOperand op d)) := by
  have hval : (s.atOperand op d).valA = .ok x := State.valA_word ha
  rw [h.exec_decoded hd, readingA, hval, ok_bind]

end readingA

theorem load_actsOnOperand : ActsOnOperand .load fun d t => .ok ((t.setB t.a).setA d) := fun _ _ => rfl

theorem store_actsOnOperand : ActsOnOperand .store (readingA fun x d t => t.store (u16 d) x) := fun _ _ => rfl

theorem add_actsOnOperand : ActsOnOperand .add (readingA fun x d t => .ok (t.setA (w16 (u16 x + u16 d)))) := fun _ _ => rfl

theorem jump_actsOnOperand : ActsOnOperand .jump fun d t => .ok (t.setC d) := fun _ _ => rfl

theorem jumpTrue_actsOnOperand :
    ActsOnOperand .jumpTrue (readingA fun x d t => .ok (if isTrue x then t.setC d else t)) := fun _ _ => rfl

theorem jumpFalse_actsOnOperand :
    ActsOnOperand .jumpFalse (readingA fun x d t => .ok (if isFalse x then t.setC d else t)) := fun _ _ => rfl

/-- What Call does with the callee's address `x` and the decoded operand `d`, from the state `t` after decode (R147). -/
def enterCallee (x d : Word) (t : State) : Run State := do
  let t1 ← t.store (u16 (t.callFrame d)) t.p
  let t2 ← t1.store (u16 (t.callFrame d + 1#16)) t.c
  .ok ((t2.setP (t.callFrame d)).setC x)

theorem call_actsOnOperand : ActsOnOperand .call (readingA enterCallee) := fun _ _ => rfl

end Machine

end Sys2Proof
end

section
/-! Load, Store, Add and the jumps (41_cycle_primary.md R141 to R146). -/

namespace Sys2Proof.Machine

theorem isTrue_eq (x : Word) : isTrue x = decide (0 < u16 x) := by
  rw [isTrue, Bool.eq_iff_iff, bne_iff_ne, decide_eq_true_iff, Nat.pos_iff_ne_zero, ne_eq, ne_eq, ← BitVec.toNat_inj]
  rfl

theorem isFalse_eq (x : Word) : isFalse x = decide (u16 x = 0) := by
  rw [isFalse, Bool.eq_iff_iff, beq_iff_eq, decide_eq_true_iff, ← BitVec.toNat_inj]
  rfl

/-- Settles O12: the two faults are those of reading `A` and of a store outside the memory; inside it the frame is the law
of reading after writing. -/
theorem storeWritesTheWordAtItsOperand : Obligations.StoreWritesTheWordAtItsOperand := by
  refine ⟨isOpcodeOf_instrOfOpcode 1, store_actsOnOperand.decodeFaultsFirst,
    fun s op d hwf hd => ⟨exec_readingA_unwritten store_actsOnOperand hd, fun x ha hout => ?_, fun x ha hin => ?_⟩⟩
  · rw [exec_readingA_word store_actsOnOperand hd ha, State.store_out x hout, finish_error]
  · rw [exec_readingA_word store_actsOnOperand hd ha, State.store_in x (by omega), finish_ok]
    exact ⟨_, rfl, rfl, Memory.read_write_same hwf _ x, fun _ hne => Memory.read_write_other hwf x hne⟩

/-- Settles O15: JumpTrue and JumpFalse test the same word of `A` against zero, with opposite outcomes. -/
theorem conditionalJumpsTestAAgainstZero : Obligations.ConditionalJumpsTestAAgainstZero := by
  refine ⟨isOpcodeOf_instrOfOpcode 4, jumpTrue_actsOnOperand.decodeFaultsFirst,
    isOpcodeOf_instrOfOpcode 5, jumpFalse_actsOnOperand.decodeFaultsFirst,
    fun s op d hd => ⟨fun ha => ⟨exec_readingA_unwritten jumpTrue_actsOnOperand hd ha,
      exec_readingA_unwritten jumpFalse_actsOnOperand hd ha⟩, fun x ha hx => ?_, fun x ha hx => ?_⟩⟩
  all_goals
    rw [exec_readingA_word jumpTrue_actsOnOperand hd ha, exec_readingA_word jumpFalse_actsOnOperand hd ha,
      isTrue_eq, isFalse_eq]
  · simp only [hx, Nat.lt_irrefl, decide_false, decide_true, if_true]
    exact ⟨rfl, rfl⟩
  · simp only [hx, Nat.pos_iff_ne_zero.1 hx, decide_false, decide_true, if_true]
    exact ⟨rfl, rfl⟩

/-- Settles O11: `B` takes the register `A` as it stands, so the copy needs no case for UNWRITTEN. -/
theorem loadMovesTheOldAccumulatorToB : Obligations.LoadMovesTheOldAccumulatorToB :=
  ⟨isOpcodeOf_instrOfOpcode 0, load_actsOnOperand.decodeFaultsFirst,
    fun _ _ _ hd => load_actsOnOperand.exec_decoded hd⟩

/-- Settles O13: the word of a sum is the word of the sum modulo 65536. -/
theorem addWrapsAround : Obligations.AddWrapsAround := by
  refine ⟨isOpcodeOf_instrOfOpcode 2, add_actsOnOperand.decodeFaultsFirst,
    fun s op d hd => ⟨exec_readingA_unwritten add_actsOnOperand hd, fun x ha => ?_⟩⟩
  have hsum : w16 (u16 x + u16 d) = BitVec.ofNat 16 ((u16 x + u16 d) % 65536) := by
    rw [← Int.natCast_add, w16_natCast]
    exact BitVec.eq_of_toNat_eq (by simp)
  rw [exec_readingA_word add_actsOnOperand hd ha, hsum]
  rfl

/-- Settles O14: the operand goes to `C` with no check between. -/
theorem jumpGoesToItsOperand : Obligations.JumpGoesToItsOperand :=
  ⟨isOpcodeOf_instrOfOpcode 3, jump_actsOnOperand.decodeFaultsFirst,
    fun _ _ _ hd => jump_actsOnOperand.exec_decoded hd⟩

end Sys2Proof.Machine
end

section
/-! Call and return (41_cycle_primary.md R147, R150; 43_builtins_control.md R200). -/

namespace Sys2Proof.Machine

theorem State.callFrame_eq (s : State) (d : Word) : s.callFrame d = BitVec.ofNat 16 (u16 s.p + u16 d) := rfl

section enterCallee

variable {t : State} {d : Word} (x : Word)

/-- Slot 0 of the frame is written first, so its address is the one reported. -/
theorem enterCallee_slot0_out (h : 32766 < u16 (t.callFrame d)) :
    enterCallee x d t = .error (.storeOutOfRange (u16 (t.callFrame d))) := by
  rw [enterCallee, State.store_out _ h, error_bind]

theorem enterCallee_slot1_out (h : u16 (t.callFrame d) = 32766) :
    enterCallee x d t = .error (.storeOutOfRange 32767) := by
  have hnext : u16 (t.callFrame d + 1#16) = 32767 := by rw [u16_add_one (by omega), h]
  rw [enterCallee, State.store_in _ (by omega), ok_bind, hnext, State.store_out _ (le_refl _), error_bind]

theorem enterCallee_in (h : u16 (t.callFrame d) < 32766) :
    enterCallee x d t = .ok { t with
      p := t.callFrame d
      c := x
      mem := (t.mem.write (u16 (t.callFrame d)) t.p).write (u16 (t.callFrame d) + 1) t.c } := by
  rw [enterCallee, State.store_in _ (by omega), ok_bind, u16_add_one (by omega), State.store_in _ (by omega)]
  rfl

end enterCallee

/-- Settles O16: the three ranges of the frame base are the three answers of entering the callee; slot 0 survives the
write of slot 1 because the two addresses differ. -/
theorem callBuildsAFrame : Obligations.CallBuildsAFrame := by
  refine ⟨isOpcodeOf_instrOfOpcode 6, call_actsOnOperand.decodeFaultsFirst,
    fun s op d hwf hd => ⟨exec_readingA_unwritten call_actsOnOperand hd, fun x f ha hf => ?_⟩⟩
  obtain rfl : (s.atOperand op d).callFrame d = f := ((s.atOperand op d).callFrame_eq d).trans hf.symm
  rw [exec_readingA_word call_actsOnOperand hd ha]
  refine ⟨fun hout => ?_, fun hlast => ?_, fun hin => ?_⟩
  · rw [enterCallee_slot0_out x hout, finish_error]
  · rw [enterCallee_slot1_out x hlast, finish_error]
  · rw [enterCallee_in x hin, finish_ok]
    have hwf0 := Memory.write_wf hwf (Nat.lt_succ_of_lt hin) s.p
    refine ⟨_, rfl, rfl, ?_, Memory.read_write_same hwf0 _ _, fun addr hne0 hne1 => ?_⟩
    · exact (Memory.read_write_other hwf0 _ (Nat.ne_of_lt (Nat.lt_succ_self _))).trans (Memory.read_write_same hwf _ _)
    · exact (Memory.read_write_other hwf0 _ hne1).trans (Memory.read_write_other hwf _ hne0)

theorem exec_x4_in {u : State} (h : u16 u.p < 32766) :
    exec .x4 u = .next { u.atBuiltin 4 with p := u.mem.read (u16 u.p), c := u.mem.read (u16 u.p + 1) } := by
  have hrow : exec .x4 u = finish (performRtn (u.atBuiltin 4)) := withBuiltin_atBuiltin (by decide) u performRtn
  rw [hrow, performRtn, State.atBuiltin_p, State.load_in (by omega), ok_bind, u16_add_one (by omega),
    State.load_in (by omega)]
  rfl

/-- Settles O17: slots 0 and 1 hold what O16 says the Call wrote, and X4 reads exactly these two. -/
theorem returnUndoesCall : Obligations.ReturnUndoesCall := by
  intro s op d x hwf hd ha hframe
  obtain ⟨-, -, hcall⟩ := callBuildsAFrame
  obtain ⟨-, -, hin⟩ := (hcall s op d hwf hd).2 x _ ha rfl
  have hf : u16 (BitVec.ofNat 16 (u16 s.p + u16 d)) < 32766 := by rwa [u16_eq, BitVec.toNat_ofNat]
  obtain ⟨t, hexec, ht, hslot0, hslot1, -⟩ := hin hf
  have hp : t.p = BitVec.ofNat 16 (u16 s.p + u16 d) := by rw [ht]
  refine ⟨t, hexec, fun u hup hu0 hu1 => ?_⟩
  rw [exec_x4_in (by rw [hup, hp]; exact hf), hup, hu0, hu1, hp, hslot0, hslot1]

end Sys2Proof.Machine
end

section
/-! The ALU builtins (42_builtins_alu.md R170 to R194): each row is a reading of `A`, or of `B` and then `A`, followed by an
action on the words read; what the actions leave, as numbers or bit by bit. -/

namespace Sys2Proof.Machine

/-! ### Rows that read `A`, and rows that read `B` and then `A` -/

/-- The builtin row `i`, with id `id`, reads `A` for use (10_state.md R22) and then does `act` with the word read and the
state after decode. -/
def ActsOnA (i : Instr) (id : Nat) (act : Word → State → Run State) : Prop :=
  ∀ s, exec i s = finish (do
    let x ← (s.atBuiltin id).valA
    act x (s.atBuiltin id))

/-- The builtin row `i`, with id `id`, reads `B` and then `A` for use (R171), and then does `act` with the address of its
word, the words `y` of `B` and `x` of `A`, and the state after decode. -/
def ActsOnBThenA (i : Instr) (id : Nat) (act : Word → Word → Word → State → Run State) : Prop :=
  ∀ s, exec i s = finish (do
    let y ← (s.atBuiltin id).valB
    let x ← (s.atBuiltin id).valA
    act s.c y x (s.atBuiltin id))

/-- The row leaves `f y x` in `A`, with `y` the word of `B` and `x` that of `A`. -/
def Computes (i : Instr) (id : Nat) (f : Word → Word → Word) : Prop :=
  ActsOnBThenA i id fun _ y x t => .ok (t.setA (f y x))

section rules

variable {i : Instr} {id : Nat} {s : State} {x y : Word}

theorem ActsOnA.needsA {act : Word → State → Run State} (h : ActsOnA i id act) : NeedsA i := fun s ha => by
  rw [h s, State.atBuiltin_valA_unwritten ha, error_bind, finish_error]

theorem ActsOnA.exec_word {act : Word → State → Run State} (h : ActsOnA i id act) (ha : s.a = .word x) :
    exec i s = finish (act x (s.atBuiltin id)) := by
  rw [h s, State.atBuiltin_valA ha, ok_bind]

theorem ActsOnBThenA.needsBThenA {act : Word → Word → Word → State → Run State} (h : ActsOnBThenA i id act) :
    NeedsBThenA i := by
  refine fun s => ⟨fun hb => ?_, fun y hb ha => ?_⟩
  · rw [h s, State.atBuiltin_valB_unwritten hb, error_bind, finish_error]
  · rw [h s, State.atBuiltin_valB hb, ok_bind, State.atBuiltin_valA_unwritten ha, error_bind, finish_error]

theorem ActsOnBThenA.exec_word {act : Word → Word → Word → State → Run State} (h : ActsOnBThenA i id act)
    (ha : s.a = .word x) (hb : s.b = .word y) : exec i s = finish (act s.c y x (s.atBuiltin id)) := by
  rw [h s, State.atBuiltin_valB hb, ok_bind, State.atBuiltin_valA ha, ok_bind]

theorem Computes.exec_word {f : Word → Word → Word} (h : Computes i id f) (ha : s.a = .word x) (hb : s.b = .word y) :
    exec i s = .next { s.atBuiltin id with a := .word (f y x) } :=
  ActsOnBThenA.exec_word h ha hb

end rules

/-! ### The rows -/

theorem x1_actsOnA : ActsOnA .x1 1 fun x t => t.load (u16 x) >>= fun w => .ok (t.setA w) := fun _ => exec_builtin (id := 1) rfl _

theorem x2_actsOnA : ActsOnA .x2 2 fun x t => .ok (t.setA (aluNeg x)) := fun _ => exec_builtin (id := 2) rfl _

theorem x3_actsOnA : ActsOnA .x3 3 fun x t => .ok (t.setA (~~~x)) := fun _ => exec_builtin (id := 3) rfl _

theorem x5_computes : Computes .x5 5 aluMul := fun _ => exec_builtin (id := 5) rfl _

theorem x8_computes : Computes .x8 8 aluAdd := fun _ => exec_builtin (id := 8) rfl _

theorem x9_computes : Computes .x9 9 aluSub := fun _ => exec_builtin (id := 9) rfl _

theorem x10_computes : Computes .x10 10 fun y x => truthWord (decide (s16 y = s16 x)) := fun _ => exec_builtin (id := 10) rfl _

theorem x11_computes : Computes .x11 11 fun y x => truthWord (decide (s16 y ≠ s16 x)) := fun _ => exec_builtin (id := 11) rfl _

theorem x12_computes : Computes .x12 12 fun y x => truthWord (decide (s16 y < s16 x)) := fun _ => exec_builtin (id := 12) rfl _

theorem x13_computes : Computes .x13 13 fun y x => truthWord (decide (s16 x ≤ s16 y)) := fun _ => exec_builtin (id := 13) rfl _

theorem x14_computes : Computes .x14 14 fun y x => truthWord (decide (s16 x < s16 y)) := fun _ => exec_builtin (id := 14) rfl _

theorem x15_computes : Computes .x15 15 fun y x => truthWord (decide (s16 y ≤ s16 x)) := fun _ => exec_builtin (id := 15) rfl _

theorem x18_computes : Computes .x18 18 fun y x => y &&& x := fun _ => exec_builtin (id := 18) rfl _

theorem x19_computes : Computes .x19 19 fun y x => y ||| x := fun _ => exec_builtin (id := 19) rfl _

theorem x20_computes : Computes .x20 20 fun y x => y ^^^ x := fun _ => exec_builtin (id := 20) rfl _

theorem x21_computes : Computes .x21 21 fun y x => ~~~y ^^^ x := fun _ => exec_builtin (id := 21) rfl _

/-- What a dividing row does with the words read (R176, R178). -/
def divideBy (f : Word → Word → Word) (ia y x : Word) (t : State) : Run State :=
  if x = 0#16 then .error (.divideByZero ia) else .ok (t.setA (f y x))

theorem x6_actsOnBThenA : ActsOnBThenA .x6 6 (divideBy aluDiv) := fun _ => exec_builtin (id := 6) rfl _

theorem x7_actsOnBThenA : ActsOnBThenA .x7 7 (divideBy aluRem) := fun _ => exec_builtin (id := 7) rfl _

/-- What a shifting row does with the words read (R188). -/
def shiftBy (f : ShrKind → Word → Nat → Word) (ia y x : Word) (t : State) : Run State :=
  if s16 x < 0 ∨ 15 < s16 x then .error (.shiftOutOfRange (s16 x) ia) else .ok (t.setA (f t.shrKind y (s16 x).toNat))

theorem x16_actsOnBThenA : ActsOnBThenA .x16 16 (shiftBy fun _ => shiftLeft) := fun _ => exec_builtin (id := 16) rfl _

theorem x17_actsOnBThenA : ActsOnBThenA .x17 17 (shiftBy shiftRight) := fun _ => exec_builtin (id := 17) rfl _

/-! ### Product, sum, difference, negation and complement as numbers (R173 to R175, R179, R180) -/

theorem aluMul_eq_ofNat (y x : Word) : aluMul y x = BitVec.ofNat 16 (u16 y * u16 x % 65536) := by
  rw [aluMul_eq]
  exact BitVec.eq_of_toNat_eq (by simp [BitVec.toNat_mul])

theorem aluAdd_eq_ofNat (y x : Word) : aluAdd y x = BitVec.ofNat 16 ((u16 y + u16 x) % 65536) := by
  rw [aluAdd_eq]
  exact BitVec.eq_of_toNat_eq (by simp [BitVec.toNat_add])

theorem aluSub_eq_ofNat (y x : Word) : aluSub y x = BitVec.ofNat 16 ((u16 y + 65536 - u16 x) % 65536) := by
  rw [aluSub_eq]
  exact BitVec.eq_of_toNat_eq (by simp only [BitVec.toNat_sub, BitVec.toNat_ofNat, u16_eq]; omega)

theorem aluNeg_eq_ofNat (x : Word) : aluNeg x = BitVec.ofNat 16 ((65536 - u16 x) % 65536) := by
  rw [aluNeg_eq]
  exact BitVec.eq_of_toNat_eq (by simp [BitVec.toNat_neg])

theorem not_eq_ofNat (x : Word) : ~~~x = BitVec.ofNat 16 (65535 - u16 x) :=
  BitVec.eq_of_toNat_eq (by simp only [BitVec.toNat_not, BitVec.toNat_ofNat, u16_eq]; omega)

/-- Settles O24: the words of the signed product, sum and difference are those of the unsigned ones. -/
theorem mulAddSubWrapAround : Obligations.MulAddSubWrapAround := by
  refine ⟨fun _ => rfl, fun _ => rfl, fun _ => rfl, x5_computes.needsBThenA, x8_computes.needsBThenA,
    x9_computes.needsBThenA, fun s x y ha hb => ?_⟩
  rw [← aluMul_eq_ofNat, ← aluAdd_eq_ofNat, ← aluSub_eq_ofNat]
  exact ⟨x5_computes.exec_word ha hb, x8_computes.exec_word ha hb, x9_computes.exec_word ha hb⟩

/-- Settles O23: negation and complement of a word, read unsigned. -/
theorem negAndNotComplementA : Obligations.NegAndNotComplementA := by
  refine ⟨fun _ => rfl, fun _ => rfl, x2_actsOnA.needsA, x3_actsOnA.needsA, fun s x ha => ?_⟩
  rw [← aluNeg_eq_ofNat, ← not_eq_ofNat]
  exact ⟨x2_actsOnA.exec_word ha, x3_actsOnA.exec_word ha⟩

/-! ### Loading through `A` (R172) -/

/-- Settles O22: the two clauses are the two answers of a load. -/
theorem loadindReadsTheWordAtA : Obligations.LoadindReadsTheWordAtA := by
  refine ⟨fun _ => rfl, x1_actsOnA.needsA, fun s x ha => ⟨fun hin => ?_, fun hout => ?_⟩⟩
  · rw [x1_actsOnA.exec_word ha, State.load_in (by omega)]
    rfl
  · rw [x1_actsOnA.exec_word ha, State.load_out (by omega)]
    rfl

/-! ### Quotient and remainder (R176 to R178) -/

theorem rem_eq_tmod (b a : Int) : rem b a = b.tmod a := (Int.tmod_def b a).symm

theorem eq_mul_quot_add_rem (b a : Int) : b = a * quot b a + rem b a := (add_sub_cancel _ b).symm

theorem abs_rem_lt (b : Int) {a : Int} (h : a ≠ 0) : |rem b a| < |a| := by
  rw [rem_eq_tmod, Int.abs_eq_natAbs, Int.abs_eq_natAbs, Int.natAbs_tmod, Int.ofNat_lt]
  exact Nat.mod_lt _ (Int.natAbs_pos.2 h)

/-- The remainder has the sign of the dividend, or is zero (R177). -/
theorem rem_sign (b a : Int) : rem b a = 0 ∨ (0 < rem b a ↔ 0 < b) := by
  have hsign := Int.sign_tmod b a
  rw [rem_eq_tmod]
  split at hsign
  · exact .inl (Int.sign_eq_zero_iff_zero.1 hsign)
  · exact .inr (by rw [← Int.sign_eq_one_iff_pos, hsign, Int.sign_eq_one_iff_pos])

theorem s16_eq_zero_iff {x : Word} : s16 x = 0 ↔ x = 0#16 := BitVec.toInt_inj (y := 0#16)

theorem divideBy_zero {f : Word → Word → Word} {ia y x : Word} {t : State} (h : s16 x = 0) :
    divideBy f ia y x t = .error (.divideByZero ia) := if_pos (s16_eq_zero_iff.1 h)

theorem divideBy_nonzero {f : Word → Word → Word} {ia y x : Word} {t : State} (h : s16 x ≠ 0) :
    divideBy f ia y x t = .ok (t.setA (f y x)) := if_neg (mt s16_eq_zero_iff.2 h)

/-- Settles O25: the quotient and the remainder of the signed readings meet R177's conditions. -/
theorem divAndRemTruncateTowardZero : Obligations.DivAndRemTruncateTowardZero := by
  refine ⟨fun _ => rfl, fun _ => rfl, x6_actsOnBThenA.needsBThenA, x7_actsOnBThenA.needsBThenA, fun s x y ha hb => ?_⟩
  rw [x6_actsOnBThenA.exec_word ha hb, x7_actsOnBThenA.exec_word ha hb]
  refine ⟨fun hx => ?_, fun hx => ?_⟩
  · rw [divideBy_zero hx, divideBy_zero hx]
    exact ⟨rfl, rfl⟩
  · rw [divideBy_nonzero hx, divideBy_nonzero hx]
    exact ⟨quot (s16 y) (s16 x), rem (s16 y) (s16 x), eq_mul_quot_add_rem _ _, abs_rem_lt _ hx, rem_sign _ _, rfl, rfl⟩

/-! ### Relations (R181 to R187) -/

theorem truthWord_decide (p : Prop) [Decidable p] : truthWord (decide p) = if p then 0xFFFF#16 else 0#16 := by
  simp [truthWord]

theorem truthWord_decide_not (p : Prop) [Decidable p] : truthWord (decide ¬p) = if p then 0#16 else 0xFFFF#16 := by
  simp [truthWord, ite_not]

/-- Settles O26: X10, X12 and X14 leave the truth of a relation, X11, X13 and X15 that of its negation. -/
theorem relationalBuiltinsLeaveAllOnesOrZero : Obligations.RelationalBuiltinsLeaveAllOnesOrZero := by
  refine ⟨fun _ => rfl, fun _ => rfl, fun _ => rfl, fun _ => rfl, fun _ => rfl, fun _ => rfl, ?_, fun s x y ha hb => ?_⟩
  · simp only [List.forall_mem_cons, List.not_mem_nil, false_imp_iff, implies_true, and_true]
    exact ⟨x10_computes.needsBThenA, x11_computes.needsBThenA, x12_computes.needsBThenA, x13_computes.needsBThenA,
      x14_computes.needsBThenA, x15_computes.needsBThenA⟩
  · have heq : y = x ↔ s16 y = s16 x := BitVec.toInt_inj.symm
    simp only [heq, ← truthWord_decide, ← truthWord_decide_not, not_lt]
    exact ⟨x10_computes.exec_word ha hb, x11_computes.exec_word ha hb, x12_computes.exec_word ha hb,
      x13_computes.exec_word ha hb, x14_computes.exec_word ha hb, x15_computes.exec_word ha hb⟩

/-! ### Shifts (R188 to R190) -/

theorem shiftBy_out {f : ShrKind → Word → Nat → Word} {ia y x : Word} {t : State} (h : s16 x < 0 ∨ 15 < s16 x) :
    shiftBy f ia y x t = .error (.shiftOutOfRange (s16 x) ia) := if_pos h

theorem shiftBy_in {f : ShrKind → Word → Nat → Word} {ia y x : Word} {t : State} {n : Nat} (hx : s16 x = n) (hn : n ≤ 15) :
    shiftBy f ia y x t = .ok (t.setA (f t.shrKind y n)) := by
  rw [shiftBy, hx, if_neg (by omega), Int.toNat_natCast]

theorem shiftLeft_getLsbD (v : Word) (n : Nat) {k : Nat} (hk : k < 16) :
    (shiftLeft v n).getLsbD k = (decide (n ≤ k) && v.getLsbD (k - n)) := by
  rw [shiftLeft_eq, BitVec.getLsbD_shiftLeft, decide_eq_true hk, Bool.true_and, ← decide_not, decide_eq_decide.2 Nat.not_lt]

theorem shiftRight_getLsbD (kind : ShrKind) (v : Word) (n : Nat) {k : Nat} (hk : k < 16) :
    (shiftRight kind v n).getLsbD k =
      if k + n < 16 then v.getLsbD (k + n) else (kind == .arithmetic && v.getLsbD 15) := by
  cases kind with
  | logical =>
    rw [shiftRight_logical_eq, BitVec.getLsbD_ushiftRight, Nat.add_comm n k]
    split
    · rfl
    · exact BitVec.getLsbD_of_ge v _ (by omega)
  | arithmetic =>
    rw [shiftRight_arithmetic_eq, BitVec.getLsbD_sshiftRight, Nat.add_comm n k, BitVec.msb_eq_getLsbD_last]
    simp [hk]

/-- Settles O27: outside 0 to 15 both rows fault; inside, each bit of the results is one of `B` or the fill. -/
theorem shiftsMoveTheBitsOfB : Obligations.ShiftsMoveTheBitsOfB := by
  refine ⟨fun _ => rfl, fun _ => rfl, x16_actsOnBThenA.needsBThenA, x17_actsOnBThenA.needsBThenA, fun s x y ha hb => ?_⟩
  rw [x16_actsOnBThenA.exec_word ha hb, x17_actsOnBThenA.exec_word ha hb]
  refine ⟨fun hout => ?_, fun n hx hn => ?_⟩
  · rw [shiftBy_out hout, shiftBy_out hout]
    exact ⟨rfl, rfl⟩
  · rw [shiftBy_in hx hn, shiftBy_in hx hn]
    exact ⟨shiftLeft y n, shiftRight s.shrKind y n, rfl, rfl,
      fun k hk => ⟨shiftLeft_getLsbD y n hk, shiftRight_getLsbD s.shrKind y n hk⟩⟩

/-! ### Bitwise operations (R191 to R194) -/

theorem eqv_getLsbD (y x : Word) {k : Nat} (hk : k < 16) :
    (~~~y ^^^ x).getLsbD k = (y.getLsbD k == x.getLsbD k) := by
  rw [BitVec.getLsbD_xor, BitVec.getLsbD_not, decide_eq_true hk, Bool.true_and]
  cases y.getLsbD k <;> cases x.getLsbD k <;> rfl

/-- Settles O28: the rows are the operations of bit vectors, and EQV's complement of `B` turns XOR into equivalence. -/
theorem bitwiseBuiltinsActOnEachBit : Obligations.BitwiseBuiltinsActOnEachBit := by
  refine ⟨fun _ => rfl, fun _ => rfl, fun _ => rfl, fun _ => rfl, ?_, fun s x y ha hb => ?_⟩
  · simp only [List.forall_mem_cons, List.not_mem_nil, false_imp_iff, implies_true, and_true]
    exact ⟨x18_computes.needsBThenA, x19_computes.needsBThenA, x20_computes.needsBThenA, x21_computes.needsBThenA⟩
  · exact ⟨_, _, _, _, x18_computes.exec_word ha hb, x19_computes.exec_word ha hb, x20_computes.exec_word ha hb,
      x21_computes.exec_word ha hb,
      fun k hk => ⟨BitVec.getLsbD_and, BitVec.getLsbD_or, BitVec.getLsbD_xor, eqv_getLsbD y x hk⟩⟩

end Sys2Proof.Machine
end

section
/-! Control transfer and frames (43_builtins_control.md R200 to R207): what X4, X22, X30, X31, X32 and X38 answer, read off
the loads and register reads they begin with. -/

namespace Sys2Proof.Machine

/-! ### Rows that read `A` and then `B` -/

/-- The builtin row `i`, with id `id`, reads `A` and then `B` for use (60_exceptions.md R263), and then does `act` with the
words `x` of `A` and `y` of `B` and the state after decode. -/
def ActsOnAThenB (i : Instr) (id : Nat) (act : Word → Word → State → Run State) : Prop :=
  ∀ s, exec i s = finish (do
    let x ← (s.atBuiltin id).valA
    let y ← (s.atBuiltin id).valB
    act x y (s.atBuiltin id))

section rules

variable {i : Instr} {id : Nat} {act : Word → Word → State → Run State}

theorem ActsOnAThenB.needsAThenB (h : ActsOnAThenB i id act) : NeedsAThenB i := by
  refine fun s => ⟨fun ha => ?_, fun x ha hb => ?_⟩
  · rw [h s, State.atBuiltin_valA_unwritten ha, error_bind, finish_error]
  · rw [h s, State.atBuiltin_valA ha, ok_bind, State.atBuiltin_valB_unwritten hb, error_bind, finish_error]

theorem ActsOnAThenB.exec_word (h : ActsOnAThenB i id act) {s : State} {x y : Word} (ha : s.a = .word x)
    (hb : s.b = .word y) : exec i s = finish (act x y (s.atBuiltin id)) := by
  rw [h s, State.atBuiltin_valA ha, ok_bind, State.atBuiltin_valB hb, ok_bind]

end rules

/-! ### Return (R200) -/

theorem exec_x4 (s : State) : exec .x4 s = finish (performRtn (s.atBuiltin 4)) := exec_builtin (id := 4) rfl s

/-- Settles O29: slot 0 is read first, so its address is the one reported; with both slots in the store nothing is left to
fault. -/
theorem rtnPopsTheFrame : Obligations.RtnPopsTheFrame := by
  refine ⟨fun _ => rfl, fun s => ⟨fun hout => ?_, fun hlast => ?_, exec_x4_in⟩⟩
  · rw [exec_x4, performRtn, State.atBuiltin_p, State.load_out hout, error_bind, finish_error]
  · have hnext : u16 (s.p + 1#16) = 32767 := by rw [u16_add_one (by omega), hlast]
    rw [exec_x4, performRtn, State.atBuiltin_p, State.load_in (by omega), ok_bind, hnext, State.load_out (le_refl _),
      error_bind, finish_error]

/-! ### The two halts (R201, R203) -/

theorem x30_actsOnA : ActsOnA .x30 30 fun x t => .ok (t.halt (.halted (s16 x))) := fun _ => exec_builtin (id := 30) rfl _

theorem s16_eq_ite (x : Word) : s16 x = if u16 x < 32768 then (u16 x : Int) else (u16 x : Int) - 65536 := by
  simp only [s16_eq, u16_eq, BitVec.toInt_eq_toNat_cond]
  omega

/-- Settles O30: X22 reads nothing, and X30's code is the two's complement reading of `A`, written out by its sign bit. -/
theorem haltsCarryTheirCode : Obligations.HaltsCarryTheirCode := by
  refine ⟨fun _ => rfl, fun _ => rfl, x30_actsOnA.needsA, fun s => exec_builtin (id := 22) rfl s, fun s x ha => ?_⟩
  rw [x30_actsOnA.exec_word ha, s16_eq_ite]
  rfl

/-! ### Level and long jump (R204, R205) -/

theorem exec_x31 (s : State) : exec .x31 s = finish (performLevel (s.atBuiltin 31)) := exec_builtin (id := 31) rfl s

theorem x32_actsOnAThenB : ActsOnAThenB .x32 32 fun x y t => .ok ((t.setP x).setC y) :=
  fun _ => exec_builtin (id := 32) rfl _

/-- Settles O32: X31 answers or faults as its one load does; X32 does nothing that can fault once `A` and `B` are read. -/
theorem levelAndLongjumpMoveFrames : Obligations.LevelAndLongjumpMoveFrames := by
  refine ⟨fun _ => rfl, fun _ => rfl, x32_actsOnAThenB.needsAThenB, fun s => ⟨fun hin => ?_, fun hout => ?_⟩,
    fun s x y ha hb => x32_actsOnAThenB.exec_word ha hb⟩
  · rw [exec_x31, performLevel, State.atBuiltin_p, State.load_in (by omega), ok_bind]
    rfl
  · rw [exec_x31, performLevel, State.atBuiltin_p, State.load_out hout, error_bind, finish_error]

/-! ### Panic (R207) -/

/-- What PANIC does with the word `x` of `A`, from the state `t` after decode. -/
def panicAt (x : Word) (t : State) : Run State := do
  let msg ← t.readString x
  let caller ← t.load (u16 (t.p + 1#16))
  .ok (t.halt (.panicked msg caller))

theorem x38_actsOnA : ActsOnA .x38 38 panicAt := fun _ => exec_builtin (id := 38) rfl _

/-- Settles O34: the string comes from the store alone, which decode leaves as it was; slot 1 is loaded only once the string
is read. -/
theorem panicReportsTheStringAndTheCaller : Obligations.PanicReportsTheStringAndTheCaller := by
  refine ⟨fun _ => rfl, x38_actsOnA.needsA, fun s x p1 ha hp1 => ?_⟩
  obtain rfl : u16 (s.p + 1#16) = p1 := (u16_add_ofNat s.p 1).trans hp1.symm
  have hread : (s.atBuiltin 38).readString x = s.readString x := State.readString_mem (s.atBuiltin_mem 38) x
  rw [x38_actsOnA.exec_word ha, panicAt, hread]
  refine ⟨fun f hf => ?_, fun msg hmsg => ⟨fun hout => ?_, fun hin => ?_⟩⟩
  · rw [hf, error_bind, finish_error]
  · rw [hmsg, ok_bind, State.atBuiltin_p, State.load_out hout, error_bind, finish_error]
  · rw [hmsg, ok_bind, State.atBuiltin_p, State.load_in (by omega), ok_bind]
    rfl

end Sys2Proof.Machine
end

section
/-! SWITCHON (43_builtins_control.md R202): the scan passes over the pairs whose value is not `A`, and what is left of it
answers. -/

namespace Sys2Proof.Machine

/-! ### The case scan -/

section caseScan

variable {s : State} {a dflt c : Word}

/-- Pairs inside the store whose value is not `a` are passed over: of the table with the count at `c`, pair `k` is at word
`2 + 2 * k`. -/
theorem State.caseScan_skip (m j : Nat)
    (h : ∀ k, k < j → u16 (c + BitVec.ofNat 16 (2 + 2 * k)) ≤ 32766 ∧
      s.mem.read (u16 (c + BitVec.ofNat 16 (2 + 2 * k))) ≠ a) :
    s.caseScan a dflt (m + j) (c + 2#16) = s.caseScan a dflt m (c + BitVec.ofNat 16 (2 + 2 * j)) := by
  induction j generalizing m with
  | zero => rfl
  | succ j ih =>
    obtain ⟨hin, hne⟩ := h j (Nat.lt_succ_self j)
    have hnext : c + BitVec.ofNat 16 (2 + 2 * j) + 2#16 = c + BitVec.ofNat 16 (2 + 2 * (j + 1)) := by
      rw [BitVec.add_assoc, ← BitVec.ofNat_add]
      rfl
    rw [← Nat.succ_add_eq_add_succ, ih _ fun k hk => h k (Nat.lt_succ_of_lt hk), State.caseScan, State.load_in (by omega),
      ok_bind, if_neg hne, hnext]

theorem State.caseScan_value_out {n : Nat} {pair : Word} (h : 32766 < u16 pair) :
    s.caseScan a dflt (n + 1) pair = .error (.storeOutOfRange (u16 pair)) := by
  rw [State.caseScan, State.load_out h, error_bind]

/-- The first pair that matches ends the scan: its target is the only other word read. -/
theorem State.caseScan_match {n : Nat} {pair : Word} (h : u16 pair ≤ 32766) (hv : s.mem.read (u16 pair) = a) :
    s.caseScan a dflt (n + 1) pair = s.load (u16 (pair + 1#16)) := by
  rw [State.caseScan, State.load_in (by omega), ok_bind, if_pos hv]

end caseScan

/-! ### The row -/

/-- `D` and `C` become the target and `B` the marker UNWRITTEN (R202). -/
def State.switchTo (t : State) (target : Word) : State := ((t.setD target).setB .unwritten).setC target

/-- What SWITCHON does with the word `x` of `A`, from the state `t` after decode. -/
def switchOn (x : Word) (t : State) : Run State := do
  let n ← t.load (u16 t.c)
  let dflt ← t.load (u16 (t.c + 1#16))
  let target ← t.caseScan x dflt (u16 n) (t.c + 2#16)
  .ok (t.switchTo target)

theorem x23_actsOnA : ActsOnA .x23 23 switchOn := fun _ => exec_builtin (id := 23) rfl _

section switchOn

variable {t : State} {x : Word}

theorem switchOn_count_out (h : 32766 < u16 t.c) : switchOn x t = .error (.storeOutOfRange (u16 t.c)) := by
  rw [switchOn, State.load_out h, error_bind]

theorem switchOn_default_out (h0 : u16 t.c ≤ 32766) (h1 : 32766 < u16 (t.c + 1#16)) :
    switchOn x t = .error (.storeOutOfRange (u16 (t.c + 1#16))) := by
  rw [switchOn, State.load_in (by omega), ok_bind, State.load_out h1, error_bind]

/-- With the count and the default in the store, the row answers as what is left of the scan once `j` pairs are passed
over. -/
theorem switchOn_scan (h0 : u16 t.c ≤ 32766) (h1 : u16 (t.c + 1#16) ≤ 32766) (m j : Nat)
    (hn : u16 (t.mem.read (u16 t.c)) = m + j)
    (hskip : ∀ k, k < j → u16 (t.c + BitVec.ofNat 16 (2 + 2 * k)) ≤ 32766 ∧
      t.mem.read (u16 (t.c + BitVec.ofNat 16 (2 + 2 * k))) ≠ x) :
    switchOn x t = (do
      let target ← t.caseScan x (t.mem.read (u16 (t.c + 1#16))) m (t.c + BitVec.ofNat 16 (2 + 2 * j))
      .ok (t.switchTo target)) := by
  rw [switchOn, State.load_in (by omega), ok_bind, State.load_in (by omega), ok_bind, hn, State.caseScan_skip m j hskip]

end switchOn

/-- Settles O31: the header's loads fault first; past the pairs that do not match, the scan is at its end and gives the
default, or at the pair `j`, whose value or target faults or which gives the target. -/
theorem switchonTakesTheFirstMatch : Obligations.SwitchonTakesTheFirstMatch := by
  refine ⟨fun _ => rfl, x23_actsOnA.needsA, fun s x c at_ n ha hc hat hn => ?_⟩
  obtain rfl : at_ = fun k => u16 (c + BitVec.ofNat 16 k) := funext fun k => (hat k).trans (u16_add_ofNat c k).symm
  obtain rfl : c = (s.atBuiltin 23).c := hc
  simp only [BitVec.add_zero] at hn ⊢
  rw [x23_actsOnA.exec_word ha]
  refine ⟨fun hout => ?_, fun h0 hout => ?_, fun h0 h1 hskip => ?_, fun j hj h0 h1 hskip => ?_⟩
  · rw [switchOn_count_out hout, finish_error]
  · rw [switchOn_default_out h0 hout, finish_error]
  · rw [switchOn_scan h0 h1 0 n (hn.symm.trans (Nat.zero_add n).symm) hskip]
    rfl
  · obtain ⟨m, rfl⟩ : ∃ m, n = m + 1 + j := ⟨n - 1 - j, by omega⟩
    have hpair : (s.atBuiltin 23).c + BitVec.ofNat 16 (2 + 2 * j) + 1#16 =
        (s.atBuiltin 23).c + BitVec.ofNat 16 (3 + 2 * j) := by
      rw [BitVec.add_assoc, ← BitVec.ofNat_add, Nat.add_right_comm]
    rw [switchOn_scan h0 h1 (m + 1) j hn.symm hskip]
    refine ⟨fun hout => ?_, fun hin hv hout => ?_, fun hin hv hin' => ?_⟩
    · rw [State.caseScan_value_out hout, error_bind, finish_error]
    · rw [State.caseScan_match (s := s.atBuiltin 23) hin hv, hpair, State.load_out hout, error_bind, finish_error]
    · rw [State.caseScan_match (s := s.atBuiltin 23) hin hv, hpair, State.load_in (by omega), ok_bind]
      rfl

end Sys2Proof.Machine
end

section
/-! APTOVEC (43_builtins_control.md R206): which of a sequence of store accesses faults, and the vector frame. -/

namespace Sys2Proof.Machine

/-! ### The first access outside the store -/

/-- When one of the addresses `l` is outside the store, the run `r` faults with the first that is (20_memory.md R52). -/
def FaultsAtFirst (l : List Nat) (r : Run State) : Prop :=
  ∀ addr, l.find? (fun a => decide (32766 < a)) = some addr → r = .error (.storeOutOfRange addr)

theorem FaultsAtFirst.nil (r : Run State) : FaultsAtFirst [] r := nofun

theorem FaultsAtFirst.cons {a : Nat} {l : List Nat} {r : Run State}
    (hout : 32766 < a → r = .error (.storeOutOfRange a)) (hin : a ≤ 32766 → FaultsAtFirst l r) : FaultsAtFirst (a :: l) r := by
  intro addr h
  by_cases ha : 32766 < a
  · obtain rfl : a = addr := by simpa [List.find?_cons, ha] using h
    exact hout ha
  · exact hin (Nat.le_of_not_lt ha) addr (by simpa [List.find?_cons, ha] using h)

theorem FaultsAtFirst.load {s : State} {a : Nat} {l : List Nat} {f : Word → Run State} (h : ∀ w, FaultsAtFirst l (f w)) :
    FaultsAtFirst (a :: l) (s.load a >>= f) := by
  refine .cons (fun hout => ?_) fun hin => ?_
  · rw [State.load_out hout, error_bind]
  · rw [State.load_in (by omega), ok_bind]
    exact h _

theorem FaultsAtFirst.store {s : State} {a : Nat} {w : Word} {l : List Nat} {f : State → Run State}
    (h : ∀ t, FaultsAtFirst l (f t)) : FaultsAtFirst (a :: l) (s.store a w >>= f) := by
  refine .cons (fun hout => ?_) fun hin => ?_
  · rw [State.store_out w hout, error_bind]
  · rw [State.store_in w (by omega), ok_bind]
    exact h _

/-! ### Four words in a row -/

/-- The store after the words at `d` to `d + 3` become `w0` to `w3`, in that order. -/
def Memory.writeFour (m : Memory) (d : Nat) (w0 w1 w2 w3 : Word) : Memory :=
  (((m.write d w0).write (d + 1) w1).write (d + 2) w2).write (d + 3) w3

theorem Memory.read_writeFour {m : Memory} (hm : m.wf = true) {d : Nat} (hd : d + 3 ≤ 32766) (w0 w1 w2 w3 : Word)
    (addr : Nat) : (m.writeFour d w0 w1 w2 w3).read addr =
      if addr = d + 3 then w3 else if addr = d + 2 then w2 else if addr = d + 1 then w1 else if addr = d then w0
      else m.read addr := by
  have hm0 := Memory.write_wf hm (a := d) (Nat.lt_succ_of_le (by omega)) w0
  have hm1 := Memory.write_wf hm0 (a := d + 1) (Nat.lt_succ_of_le (by omega)) w1
  have hm2 := Memory.write_wf hm1 (a := d + 2) (Nat.lt_succ_of_le (by omega)) w2
  rw [Memory.writeFour, Memory.read_write hm2, Memory.read_write hm1, Memory.read_write hm0, Memory.read_write hm]

/-- The four words are where they were put, and no other word changed. -/
theorem Memory.writeFour_frame {m : Memory} (hm : m.wf = true) {d : Nat} (hd : d + 3 ≤ 32766) (w0 w1 w2 w3 : Word) :
    (m.writeFour d w0 w1 w2 w3).read d = w0 ∧ (m.writeFour d w0 w1 w2 w3).read (d + 1) = w1 ∧
      (m.writeFour d w0 w1 w2 w3).read (d + 2) = w2 ∧ (m.writeFour d w0 w1 w2 w3).read (d + 3) = w3 ∧
      ∀ addr, (addr < d ∨ d + 3 < addr) → (m.writeFour d w0 w1 w2 w3).read addr = m.read addr := by
  simp only [Memory.read_writeFour hm hd]
  refine ⟨by simp, by simp, by simp, by simp, fun addr hout => ?_⟩
  rw [if_neg (by omega), if_neg (by omega), if_neg (by omega), if_neg (by omega)]

/-! ### The row -/

/-- What APTOVEC does with the callee's address `x` and the count `nb`, from the state `t` after decode (R206). -/
def enterVecCallee (x nb : Word) (t : State) : Run State := do
  let d := t.vecFrame nb
  let s0 ← t.load (u16 t.p)
  let s1 ← t.load (u16 (t.p + 1#16))
  let t0 ← t.store (u16 d) s0
  let t1 ← t0.store (u16 (d + 1#16)) s1
  let t2 ← t1.store (u16 (d + 2#16)) t.p
  let t3 ← t2.store (u16 (d + 3#16)) nb
  .ok ((t3.setP d).setC x)

theorem x35_actsOnAThenB : ActsOnAThenB .x35 35 enterVecCallee := fun _ => exec_builtin (id := 35) rfl _

theorem u16_vecFrame (s : State) (nb : Word) : u16 (s.vecFrame nb) = (u16 s.p + u16 nb + 1) % 65536 := by
  simp [State.vecFrame, BitVec.toNat_add]

section enterVecCallee

variable {t : State} (x nb : Word)

theorem enterVecCallee_faultsAtFirst :
    FaultsAtFirst [u16 t.p, u16 (t.p + 1#16), u16 (t.vecFrame nb), u16 (t.vecFrame nb + 1#16),
      u16 (t.vecFrame nb + 2#16), u16 (t.vecFrame nb + 3#16)] (enterVecCallee x nb t) :=
  .load fun _ => .load fun _ => .store fun _ => .store fun _ => .store fun _ => .store fun _ => .nil _

/-- Both slots are read from the store as it was before the first of the four writes. -/
theorem enterVecCallee_in (h0 : u16 t.p ≤ 32766) (h1 : u16 (t.p + 1#16) ≤ 32766) (hd : u16 (t.vecFrame nb) + 3 ≤ 32766) :
    enterVecCallee x nb t = .ok { t with
      p := t.vecFrame nb
      c := x
      mem := t.mem.writeFour (u16 (t.vecFrame nb)) (t.mem.read (u16 t.p)) (t.mem.read (u16 (t.p + 1#16))) t.p nb } := by
  have hslot : ∀ k, k ≤ 3 → u16 (t.vecFrame nb + BitVec.ofNat 16 k) = u16 (t.vecFrame nb) + k := fun k hk => by
    rw [u16_add_ofNat]
    omega
  rw [enterVecCallee, State.load_in (by omega), ok_bind, State.load_in (by omega), ok_bind, hslot 1 (by decide),
    hslot 2 (by decide), hslot 3 (by decide), State.store_in _ (by omega), ok_bind, State.store_in _ (by omega), ok_bind,
    State.store_in _ (by omega), ok_bind, State.store_in _ (by omega), ok_bind]
  rfl

end enterVecCallee

/-- Settles O33: the six accesses in R206's order are those of the action, one after the other; when all are in the store,
the frame is four words in a row that hold what was read before them. -/
theorem aptovecBuildsAVectorFrame : Obligations.AptovecBuildsAVectorFrame := by
  refine ⟨fun _ => rfl, x35_actsOnAThenB.needsAThenB, fun s x nb d p1 hwf ha hb hd hp1 => ?_⟩
  obtain rfl : u16 (s.vecFrame nb) = d := (u16_vecFrame s nb).trans hd.symm
  obtain rfl : u16 (s.p + 1#16) = p1 := (u16_add_ofNat s.p 1).trans hp1.symm
  rw [x35_actsOnAThenB.exec_word ha hb]
  refine ⟨fun addr hfirst => ?_, fun h0 h1 hend => ?_⟩
  · simp only [← u16_add_ofNat] at hfirst
    rw [enterVecCallee_faultsAtFirst (t := s.atBuiltin 35) x nb addr hfirst, finish_error]
  · rw [enterVecCallee_in (t := s.atBuiltin 35) x nb h0 h1 hend, finish_ok]
    refine ⟨_, rfl, ?_, Memory.writeFour_frame hwf hend _ _ _ _⟩
    rw [BitVec.ofNat_toNat, BitVec.setWidth_eq]
    rfl

end Sys2Proof.Machine
end

section
/-! Streams and selections (44_builtins_io.md R232 to R236): which slots serve a direction, and the two selects. -/

namespace Sys2Proof.Machine

/-! ### The slots that serve a direction -/

theorem Slot.inputHandle?_eq_some {slot : Slot} {h : Handle} :
    slot.inputHandle? = some h ↔
      (slot = .std .stdin ∧ h = .std .stdin) ∨ ∃ n, slot = .opened n .input ∧ h = .file n := by
  cases slot with
  | sentinel => simp [Slot.inputHandle?]
  | free => simp [Slot.inputHandle?]
  | std stream => cases stream <;> simp [Slot.inputHandle?, eq_comm]
  | opened n dir => cases dir <;> simp [Slot.inputHandle?, eq_comm]

theorem Slot.outputHandle?_eq_some {slot : Slot} {h : Handle} :
    slot.outputHandle? = some h ↔
      (slot = .std .stdout ∧ h = .std .stdout) ∨ (slot = .std .stderr ∧ h = .std .stderr) ∨
        ∃ n, slot = .opened n .output ∧ h = .file n := by
  cases slot with
  | sentinel => simp [Slot.outputHandle?]
  | free => simp [Slot.outputHandle?]
  | std stream => cases stream <;> simp [Slot.outputHandle?, eq_comm]
  | opened n dir => cases dir <;> simp [Slot.outputHandle?, eq_comm]

/-- The only fault of a resolution for input names the slot asked for (R236). -/
theorem eq_noStream_of_inStream_eq_error {table : List Slot} {k : Nat} {f : Fault} (h : inStream table k = .error f) :
    f = .noStream k := by
  unfold inStream at h
  split at h
  · cases h
  · exact (Except.error.inj h).symm

/-- The only fault of a resolution for output names the slot asked for (R236). -/
theorem eq_noStream_of_outStream_eq_error {table : List Slot} {k : Nat} {f : Fault} (h : outStream table k = .error f) :
    f = .noStream k := by
  unfold outStream at h
  split at h
  · cases h
  · exact (Except.error.inj h).symm

/-- Settles O35: a slot of the table resolves exactly when its own row of R232 gives a handle for the direction. -/
theorem streamsResolveByDirection : Obligations.StreamsResolveByDirection := by
  refine fun table s => ⟨fun h => ?_, fun _ => eq_noStream_of_inStream_eq_error, fun h => ?_,
    fun _ => eq_noStream_of_outStream_eq_error⟩
  · simp only [inStream_eq_ok, Slot.inputHandle?_eq_some]
    constructor
    · rintro ⟨_, hslot, ⟨rfl, hh⟩ | ⟨n, rfl, hh⟩⟩
      · exact .inl ⟨hslot, hh⟩
      · exact .inr ⟨n, hslot, hh⟩
    · rintro (⟨hslot, hh⟩ | ⟨n, hslot, hh⟩)
      · exact ⟨_, hslot, .inl ⟨rfl, hh⟩⟩
      · exact ⟨_, hslot, .inr ⟨n, rfl, hh⟩⟩
  · simp only [outStream_eq_ok, Slot.outputHandle?_eq_some]
    constructor
    · rintro ⟨_, hslot, ⟨rfl, hh⟩ | ⟨rfl, hh⟩ | ⟨n, rfl, hh⟩⟩
      · exact .inl ⟨hslot, hh⟩
      · exact .inr (.inl ⟨hslot, hh⟩)
      · exact .inr (.inr ⟨n, hslot, hh⟩)
    · rintro (⟨hslot, hh⟩ | ⟨hslot, hh⟩ | ⟨n, hslot, hh⟩)
      · exact ⟨_, hslot, .inl ⟨rfl, hh⟩⟩
      · exact ⟨_, hslot, .inr (.inl ⟨rfl, hh⟩)⟩
      · exact ⟨_, hslot, .inr (.inr ⟨n, rfl, hh⟩)⟩

/-! ### The selects -/

theorem x24_actsOnA : ActsOnA .x24 24 fun x t => .ok (t.setSelectedInput x) := fun _ => exec_builtin (id := 24) rfl _

theorem x25_actsOnA : ActsOnA .x25 25 fun x t => .ok (t.setSelectedOutput x) := fun _ => exec_builtin (id := 25) rfl _

/-- Settles O36: once `A` is read, nothing of a select can fault. -/
theorem selectsStoreTheSlotUnchecked : Obligations.SelectsStoreTheSlotUnchecked :=
  ⟨fun _ => rfl, fun _ => rfl, x24_actsOnA.needsA, x25_actsOnA.needsA,
    fun _ _ ha => ⟨x24_actsOnA.exec_word ha, x25_actsOnA.exec_word ha⟩⟩

end Sys2Proof.Machine
end

section
/-! GETBYTE and PUTBYTE (44_builtins_io.md R247, R248; 20_memory.md R54, R55): the byte read, and the word that a byte is put
into. -/

namespace Sys2Proof.Machine

/-! ### GETBYTE -/

/-- What GETBYTE does with the word `x` of `A` and `i` of `B`, from the state `t` after decode. -/
def getByteAt (x i : Word) (t : State) : Run State := do
  let b ← t.getByte x (u16 i)
  .ok (t.setA (zextByte b))

theorem x36_actsOnAThenB : ActsOnAThenB .x36 36 getByteAt := fun _ => exec_builtin (id := 36) rfl _

theorem zextByte_ofNat {n : Nat} (h : n < 256) : zextByte (BitVec.ofNat 8 n) = BitVec.ofNat 16 n :=
  BitVec.setWidth_ofNat_of_le_of_lt (by decide) h

theorem zextByte_stringByte (s : State) (base : Word) (i : Nat) :
    zextByte (s.stringByte base i) = BitVec.ofNat 16
      (if i % 2 = 0 then u16 (s.mem.read (u16 base + i / 2)) / 256 else u16 (s.mem.read (u16 base + i / 2)) % 256) := by
  refine zextByte_ofNat ?_
  have hw := u16_lt (s.mem.read (u16 base + i / 2))
  split <;> omega

/-- Settles O44: X36 faults or answers as its one byte read does, from the store that decode leaves as it was. -/
theorem getbyteReadsMostSignificantFirst : Obligations.GetbyteReadsMostSignificantFirst := by
  refine ⟨fun _ => rfl, x36_actsOnAThenB.needsAThenB, ?_⟩
  rintro s x i _ ha hb rfl
  rw [x36_actsOnAThenB.exec_word ha hb, getByteAt]
  refine ⟨fun hout => ?_, fun hin => ?_⟩
  · rw [State.getByte_out hout, error_bind, finish_error]
  · rw [State.getByte_in hin, ok_bind, zextByte_stringByte]
    rfl

/-! ### PUTBYTE -/

/-- The word `w` after the byte of it that holds string index `i` becomes `v` (20_memory.md R54). -/
def putWordByte (w : Word) (i : Nat) (v : Byte) : Word :=
  if i % 2 = 0 then joinBytes v (loByte w) else joinBytes (hiByte w) v

theorem loByte_toNat (w : Word) : (loByte w).toNat = u16 w % 256 := by
  rw [loByte_eq, BitVec.toNat_ofNat]
  exact Nat.mod_mod _ _

theorem hiByte_toNat (w : Word) : (hiByte w).toNat = u16 w / 256 := by
  rw [hiByte_eq, BitVec.toNat_ofNat]
  exact Nat.mod_eq_of_lt (Nat.div_lt_of_lt_mul (u16_lt w))

theorem u16_putWordByte (w : Word) (i : Nat) (v : Byte) :
    u16 (putWordByte w i v) =
      if i % 2 = 0 then v.toNat * 256 + u16 w % 256 else u16 w / 256 * 256 + v.toNat := by
  rw [putWordByte, apply_ite u16, u16_joinBytes, u16_joinBytes, loByte_toNat, hiByte_toNat]

theorem State.putByte_in {s : State} {base : Word} {i : Nat} (v : Byte) (h : u16 base + i / 2 ≤ 32766) :
    s.putByte base i v = .ok { s with
      mem := s.mem.write (u16 base + i / 2) (putWordByte (s.mem.read (u16 base + i / 2)) i v) } := by
  rw [State.putByte, byteWordAddr, State.load_in (by omega), ok_bind, State.store_in _ (by omega), putWordByte]

theorem State.putByte_out {s : State} {base : Word} {i : Nat} (v : Byte) (h : 32766 < u16 base + i / 2) :
    s.putByte base i v = .error (.storeOutOfRange (u16 base + i / 2)) := by
  rw [State.putByte, byteWordAddr, State.load_out h, error_bind]

/-- What PUTBYTE does with the word `x` of `A` and `i` of `B`, from the state `t` after decode. -/
def putByteAt (x i : Word) (t : State) : Run State := do
  let v ← t.load (u16 (t.p + 4#16))
  t.putByte x (u16 i) (loByte v)

theorem x37_actsOnAThenB : ActsOnAThenB .x37 37 putByteAt := fun _ => exec_builtin (id := 37) rfl _

/-- Settles O45: slot 4 is loaded before the string's word, and the one word written is the old one with its byte `B`
replaced. -/
theorem putbyteChangesOneByte : Obligations.PutbyteChangesOneByte := by
  refine ⟨fun _ => rfl, x37_actsOnAThenB.needsAThenB, fun s x i wa p4 v hwf ha hb hwa hp4 hv => ?_⟩
  obtain rfl : u16 (s.p + 4#16) = p4 := (u16_add_ofNat s.p 4).trans hp4.symm
  subst hwa
  rw [x37_actsOnAThenB.exec_word ha hb, putByteAt, State.atBuiltin_p]
  refine ⟨fun hout => ?_, fun hslot hout => ?_, fun hslot hin => ?_⟩
  · rw [State.load_out hout, error_bind, finish_error]
  · rw [State.load_in (by omega), ok_bind, State.putByte_out _ hout, finish_error]
  · rw [State.load_in (by omega), ok_bind, State.putByte_in _ hin, finish_ok]
    refine ⟨_, rfl, rfl, ?_, fun addr hne => Memory.read_write_other hwf _ hne⟩
    simp only [State.atBuiltin_mem, Memory.read_write_same hwf, u16_putWordByte, loByte_toNat, hv]

end Sys2Proof.Machine
end

section
/-! Encoding and decoding (30_encoding.md R70 to R78): an instruction is its opcode field with its operand, and an
instruction word is a sum of fields. -/

namespace Sys2Proof

/-! ### The builtin rows -/

theorem builtinId_bounds {i : Instr} {id : Nat} (h : i.builtinId? = some id) : 1 ≤ id ∧ id ≤ 38 := by
  cases i <;> cases h <;> decide

theorem opcode_of_builtinId {i : Instr} {id : Nat} (h : i.builtinId? = some id) : i.opcode = 7 := by
  cases i <;> cases h <;> rfl

theorem operand_of_builtinId {i : Instr} {id : Nat} (h : i.builtinId? = some id) : i.operand = .builtin id := by
  cases i <;> cases h <;> rfl

theorem builtinId_of_builtinOfId {id : Nat} {i : Instr} (h : builtinOfId id = some i) : i.builtinId? = some id := by
  unfold builtinOfId at h
  split at h <;> cases h <;> rfl

theorem wf_of_builtinId {i : Instr} {id : Nat} (h : i.builtinId? = some id) : i.wf = true := by
  cases i <;> cases h <;> rfl

theorem canonicalId_eq_some {op : Operand} {id : Nat} (h : op.canonicalId? = some id) :
    op = .builtin id ∧ id < 512 := by
  unfold Operand.canonicalId? at h
  split at h
  case h_1 n h1 h2 h3 h4 =>
    cases h
    obtain ⟨i, p, g, l⟩ := op
    subst h1 h2 h3 h4
    exact ⟨by simp [Operand.builtin], n.isLt⟩
  case h_2 => cases h

/-- An Execute word is the row of a builtin, when its operand is that builtin's canonical one, or else the row X, which is
then well formed (R77, log entry 12). -/
theorem executeOf_cases (op : Operand) :
    (∃ id, (executeOf op).builtinId? = some id ∧ op = .builtin id) ∨
      (executeOf op = .execute op ∧ op.notBuiltinWord = true) := by
  unfold executeOf Operand.notBuiltinWord
  cases hid : op.canonicalId? with
  | none => exact .inr ⟨rfl, rfl⟩
  | some id =>
    cases hrow : builtinOfId id with
    | some i =>
      simp only [Option.bind_some, hrow, Option.getD_some]
      exact .inl ⟨id, builtinId_of_builtinOfId hrow, (canonicalId_eq_some hid).1⟩
    | none =>
      refine .inr ⟨by simp only [Option.bind_some, hrow, Option.getD_none], ?_⟩
      by_contra hin
      have hbounds : 1 ≤ id ∧ id ≤ 38 := by simp at hin; omega
      obtain ⟨h1, h38⟩ := hbounds
      interval_cases id <;> cases hrow

theorem executeOf_of_notBuiltinWord {op : Operand} (h : op.notBuiltinWord = true) : executeOf op = .execute op := by
  obtain ⟨id, hid, rfl⟩ | ⟨hx, -⟩ := executeOf_cases op
  · obtain ⟨h1, h38⟩ := builtinId_bounds hid
    interval_cases id <;> cases h
  · exact hx

/-! ### An instruction is an opcode with an operand -/

theorem instrOfOpcode_wf (n : Nat) (op : Operand) : (instrOfOpcode n op).wf = true := by
  unfold instrOfOpcode
  split
  case h_8 =>
    obtain ⟨id, hid, -⟩ | ⟨hx, hw⟩ := executeOf_cases op
    · exact wf_of_builtinId hid
    · rw [hx]
      exact hw
  all_goals rfl

theorem executeOf_fields (op : Operand) : (executeOf op).opcode = 7 ∧ (executeOf op).operand = op := by
  obtain ⟨id, hid, hop⟩ | ⟨hx, -⟩ := executeOf_cases op
  · exact ⟨opcode_of_builtinId hid, (operand_of_builtinId hid).trans hop.symm⟩
  · rw [hx]
    exact ⟨rfl, rfl⟩

theorem instrOfOpcode_fields {n : Nat} (hn : n < 8) (op : Operand) :
    (instrOfOpcode n op).opcode = n ∧ (instrOfOpcode n op).operand = op :=
  match n, hn with
  | 0, _ | 1, _ | 2, _ | 3, _ | 4, _ | 5, _ | 6, _ => ⟨rfl, rfl⟩
  | 7, _ => executeOf_fields op

/-- The opcode and the operand of a well-formed instruction are those of no other. -/
theorem instrOfOpcode_opcode_operand {i : Instr} (h : i.wf = true) : instrOfOpcode i.opcode i.operand = i := by
  cases i
  case execute op => exact executeOf_of_notBuiltinWord h
  all_goals rfl

theorem decode_encodeOperand {n : Nat} (hn : n < 8) (op : Operand) (rest : List Word) :
    decode (encodeOperand n op ++ rest) = .ok (instrOfOpcode n op, rest) := by
  obtain ⟨i, p, g, k | w⟩ := op
  · rw [encodeOperand_short]
    simp only [List.cons_append, List.nil_append, decode, isLong_short hn, decodeWord_eq, opField_short hn,
      operandOf_short hn]
    rfl
  · obtain ⟨hlong, hop, hoperand⟩ := long_fields hn i p g w
    rw [encodeOperand_long]
    simp only [List.cons_append, List.nil_append, decode, hlong, if_true, decodeWord_eq, hop, hoperand]

/-- Settles O1: the decoder reads back the opcode and the operand, and these determine a well-formed instruction. -/
theorem decodeUndoesEncode : Obligations.DecodeUndoesEncode := by
  intro i rest hwf
  rw [encode, decode_encodeOperand i.opcode_lt, instrOfOpcode_opcode_operand hwf]

/-! ### An instruction word is a sum of fields -/

/-- The bits above the D-bit as a number (R70). -/
theorem u16_headerWord {n : Nat} (hn : n < 8) (i p g : Bool) :
    u16 (headerWord n i p g) = (n * 8 + i.toNat * 4 + p.toNat * 2 + g.toNat) * 2 ^ 10 := by
  interval_cases n <;> cases i <;> cases p <;> cases g <;> rfl

/-- Below the header, bits are added. -/
theorem u16_headerWord_or {n : Nat} (hn : n < 8) (i p g : Bool) {low : Word} (hlow : u16 low < 2 ^ 10) :
    u16 (headerWord n i p g ||| low) = (n * 8 + i.toNat * 4 + p.toNat * 2 + g.toNat) * 2 ^ 10 + u16 low := by
  have hheader := u16_headerWord hn i p g
  simp only [u16_eq] at hheader hlow ⊢
  rw [BitVec.toNat_or, hheader, ← Nat.shiftLeft_eq, Nat.shiftLeft_add_eq_or_of_lt hlow]

theorem toNat_getLsbD (w : Word) (k : Nat) : (w.getLsbD k).toNat = u16 w / 2 ^ k % 2 := by
  rw [getLsbD_eq_decide]
  have hbit : u16 w / 2 ^ k % 2 < 2 := Nat.mod_lt _ (by decide)
  by_cases h : u16 w / 2 ^ k % 2 = 1
  · simp only [h, decide_true, Bool.toNat_true]
  · rw [decide_eq_false h, Bool.toNat_false]
    omega

/-- The fields the decoder reads above bit 9, put back together. -/
theorem u16_decodedHeader_or (w : Word) {low : Word} (hlow : u16 low < 2 ^ 10) :
    u16 (headerWord (opField w) (w.getLsbD 12) (w.getLsbD 11) (w.getLsbD 10) ||| low) = u16 w / 1024 * 1024 + u16 low := by
  have hw := u16_lt w
  rw [u16_headerWord_or (by rw [opField_eq]; omega) _ _ _ hlow, toNat_getLsbD, toNat_getLsbD, toNat_getLsbD, opField_eq]
  omega

theorem extractLsb'_low_eq (w : Word) : w.extractLsb' 0 9 = BitVec.ofNat 9 (u16 w % 512) := by
  apply BitVec.eq_of_toNat_eq
  simp [BitVec.extractLsb'_toNat]

theorem opField_lt (w : Word) : opField w < 8 := by
  have := u16_lt w
  rw [opField_eq]
  omega

theorem operandOf_literal (w lit : Word) : (operandOf w lit).literal =
    if u16 w / 512 % 2 = 1 then .long lit else .short (BitVec.ofNat 9 (u16 w % 512)) := by
  simp only [operandOf, Machine.isLong_eq, extractLsb'_low_eq, decide_eq_true_eq]

theorem decodeWord_fields (w lit : Word) :
    (decodeWord w lit).opcode = opField w ∧ (decodeWord w lit).operand = operandOf w lit :=
  instrOfOpcode_fields (opField_lt w) _

/-- Settles O2: the fields read are put back at their places; a long form's low bits are not among them. -/
theorem encodeUndoesDecode : Obligations.EncodeUndoesDecode := by
  intro w lit
  obtain ⟨hop, hoperand⟩ := decodeWord_fields w lit
  rw [encode, hop, hoperand, operandOf, Machine.isLong_eq]
  by_cases hlong : u16 w / 512 % 2 = 1
  · have hword : headerWord (opField w) (w.getLsbD 12) (w.getLsbD 11) (w.getLsbD 10) ||| 0x0200#16 =
        BitVec.ofNat 16 (u16 w / 512 * 512) := by
      have hw := u16_lt w
      have hsum := u16_decodedHeader_or w (low := 0x0200#16) (by decide)
      apply BitVec.eq_of_toNat_eq
      rw [← u16_eq, hsum, BitVec.toNat_ofNat, show u16 0x0200#16 = 512 from rfl]
      omega
    simp only [hlong, decide_true, if_true, encodeOperand_long, hword]
  · have hlow : u16 ((w.extractLsb' 0 9).setWidth 16) = u16 w % 512 := by
      simp [BitVec.extractLsb'_toNat]
      omega
    have hword : headerWord (opField w) (w.getLsbD 12) (w.getLsbD 11) (w.getLsbD 10) |||
        (w.extractLsb' 0 9).setWidth 16 = w := by
      have hsum := u16_decodedHeader_or w (low := (w.extractLsb' 0 9).setWidth 16) (by omega)
      apply BitVec.eq_of_toNat_eq
      rw [← u16_eq, hsum, hlow, u16_eq]
      rw [u16_eq] at hlong
      omega
    simp only [hlong, decide_false, if_false, Bool.false_eq_true, encodeOperand_short, hword]

/-- Settles O3: a field is a quotient of the word reduced to the field's width. -/
theorem decodeReadsTheFields : Obligations.DecodeReadsTheFields := by
  intro w lit
  obtain ⟨hop, hoperand⟩ := decodeWord_fields w lit
  rw [hop, hoperand]
  exact ⟨opField_eq w, getLsbD_eq_decide w 12, getLsbD_eq_decide w 11, getLsbD_eq_decide w 10, operandOf_literal w lit⟩

theorem encode_of_builtinId {i : Instr} {id : Nat} (h : i.builtinId? = some id) :
    encode i = [BitVec.ofNat 16 (0xE000 + id)] := by
  cases i <;> cases h <;> rfl

/-- Settles O4: a word that decodes to a row is, by O2, the row's one word of code; the words of the rows are 38 cases. -/
theorem builtinRowsAreTheirCanonicalWords : Obligations.BuiltinRowsAreTheirCanonicalWords := by
  refine fun w lit => ⟨instrOfOpcode_wf _ _, fun id => ⟨fun hid => ?_, fun ⟨h1, h38, hw⟩ => ?_⟩⟩
  · obtain ⟨h1, h38⟩ := builtinId_bounds hid
    refine ⟨h1, h38, ?_⟩
    have hcode := (encode_of_builtinId hid).symm.trans (encodeUndoesDecode w lit)
    split at hcode
    · simp at hcode
    · rw [← List.singleton_inj.1 hcode, u16_eq, BitVec.toNat_ofNat]
      omega
  · obtain rfl : w = BitVec.ofNat 16 (0xE000 + id) := by
      rw [← hw, u16_eq, BitVec.ofNat_toNat, BitVec.setWidth_eq]
    interval_cases id <;> rfl

/-- Settles O5: the ten words, evaluated. -/
theorem specWordsDecode : Obligations.SpecWordsDecode := by
  unfold Obligations.SpecWordsDecode
  decide

end Sys2Proof
end

section
/-! The step (41_cycle_primary.md R140, 60_exceptions.md R260, R263): what a fetch answers by where the words lie, and the
placing of an instruction. -/

namespace Sys2Proof.Machine

/-! ### Running a machine -/

theorem step_fetched {s : State} (hs : s.status = .running) {i : Instr} (hf : s.fetch = .ok i) : step s = exec i s := by
  simp only [step, hs, hf]

theorem step_fetch_fault {s : State} (hs : s.status = .running) {f : Fault} (hf : s.fetch = .error f) :
    step s = .fault f := by
  simp only [step, hs, hf]

/-- Settles O6: the two forms are the two answers of the fetch. -/
theorem stepRunsTheDecodedInstruction : Obligations.StepRunsTheDecodedInstruction :=
  fun _ hs hc => ⟨fun hshort => step_fetched hs (State.fetch_short hc hshort),
    fun hlong hc1 => step_fetched hs (State.fetch_long hc1 hlong)⟩

/-- Settles O7: the word at `C` is loaded first, and in the long form the word after it. -/
theorem fetchOutsideTheStoreFaults : Obligations.FetchOutsideTheStoreFaults := by
  refine fun s hs => ⟨fun hout => step_fetch_fault hs ?_, fun hlast hlong => step_fetch_fault hs ?_⟩
  · rw [State.fetch, State.load_out hout, error_bind]
  · have hnext : u16 (s.c + 1#16) = 32767 := by rw [u16_add_one (by omega), hlast]
    rw [State.fetch, State.load_in (by omega), ok_bind, hlast, isLong_eq, hlong, decide_eq_true rfl, if_pos rfl, hnext,
      State.load_out (le_refl _), error_bind]

/-! ### An ended run -/

theorem run_of_step_self {M : Host.Core} {s : M.State} (h : M.step s = .next s) (n : Nat) : M.run n s = .next s := by
  induction n with
  | zero => rfl
  | succ n ih => simp only [Host.Core.run, h, ih]

theorem run_of_step_fault {M : Host.Core} {s : M.State} {f : M.Fault} (h : M.step s = .fault f) (n : Nat) :
    M.run (n + 1) s = .fault f := by
  simp only [Host.Core.run, h]

/-- Settles O8: one step of an ended run changes nothing, so no number of them does. -/
theorem terminalOutcomeIsNeverLeft : Obligations.TerminalOutcomeIsNeverLeft := by
  refine fun s n => ⟨fun hend => run_of_step_self (M := Sys2Proof.core) (show step s = .next s from ?_) n,
    fun f hf => run_of_step_fault (M := Sys2Proof.core) (show step s = .fault f from ?_) n⟩
  · obtain ⟨code, hs⟩ | ⟨msg, caller, hs⟩ := hend
    · simp only [step, hs]
    · simp only [step, hs]
  · simp only [step, hf]

/-! ### Placing an instruction (log entry 13) -/

/-- What the table word `bits` decodes to: its second word is read in the long form only. -/
def instrOfBits (bits : Nat) : Instr :=
  decodeWord (BitVec.ofNat 16 bits)
    (if isLong (BitVec.ofNat 16 bits) then BitVec.ofNat 16 (bits / 65536) else 0#16)

theorem decodeTableWord_eq (nbits w : Nat) : decodeTableWord nbits w = some (instrOfBits (w % 2 ^ nbits)) := by
  unfold decodeTableWord instrOfBits decode
  by_cases hlong : isLong (BitVec.ofNat 16 (w % 2 ^ nbits)) = true
  · simp only [hlong, if_true]
  · simp only [hlong, if_false, Bool.false_eq_true]
    rfl

/-- The instruction fits in the store where it is placed: at `C`, or at the code origin. -/
theorem State.placeInstr_c_bound (s : State) (bits : Nat) :
    u16 (s.placeInstr bits).c + (if isLong (BitVec.ofNat 16 bits) then 2 else 1) ≤ 32767 := by
  by_cases hfit : u16 s.c + (if isLong (BitVec.ofNat 16 bits) then 2 else 1) ≤ Config.storeWords
  · simp only [State.placeInstr, if_pos hfit]
    exact hfit
  · have horigin : u16 (BitVec.ofNat 16 Config.codeOrigin) = 512 := rfl
    simp only [State.placeInstr, if_neg hfit, horigin]
    split <;> decide

/-- The store after the placing: one word, or two in a row. -/
theorem State.placeInstr_mem (s : State) (bits : Nat) : (s.placeInstr bits).mem =
    if isLong (BitVec.ofNat 16 bits) then
      (s.mem.write (u16 (s.placeInstr bits).c) (BitVec.ofNat 16 bits)).write (u16 (s.placeInstr bits).c + 1)
        (BitVec.ofNat 16 (bits / 65536))
    else s.mem.write (u16 (s.placeInstr bits).c) (BitVec.ofNat 16 bits) := rfl

theorem State.fetch_placeInstr {s : State} (hwf : s.mem.wf = true) (bits : Nat) :
    (s.placeInstr bits).fetch = .ok (instrOfBits bits) := by
  have hc := s.placeInstr_c_bound bits
  have hmem := s.placeInstr_mem bits
  unfold instrOfBits
  by_cases hlong : isLong (BitVec.ofNat 16 bits) = true
  · simp only [hlong, if_true] at hc hmem ⊢
    have hwf' := Memory.write_wf hwf (a := u16 (s.placeInstr bits).c) (Nat.lt_of_succ_lt hc) (BitVec.ofNat 16 bits)
    have hword : (s.placeInstr bits).mem.read (u16 (s.placeInstr bits).c) = BitVec.ofNat 16 bits := by
      rw [hmem, Memory.read_write_other hwf' _ (by omega), Memory.read_write_same hwf]
    have hlit : (s.placeInstr bits).mem.read (u16 (s.placeInstr bits).c + 1) = BitVec.ofNat 16 (bits / 65536) := by
      rw [hmem, Memory.read_write_same hwf']
    rw [State.fetch_long (by omega) (by rw [hword]; simpa only [isLong_eq, decide_eq_true_eq] using hlong), hword, hlit]
  · simp only [hlong, if_false, Bool.false_eq_true] at hc hmem ⊢
    have hword : (s.placeInstr bits).mem.read (u16 (s.placeInstr bits).c) = BitVec.ofNat 16 bits := by
      rw [hmem, Memory.read_write_same hwf]
    rw [isLong_eq, decide_eq_true_eq] at hlong
    rw [State.fetch_short (by omega) (by rw [hword]; omega), hword]

/-- Settles O9: the placed words are fetched as they stand in the table word. -/
theorem placedInstructionRunsNext : Obligations.PlacedInstructionRunsNext :=
  fun _ nbits w hwf => ⟨instrOfBits (w % 2 ^ nbits), decodeTableWord_eq nbits w,
    step_fetched rfl (State.fetch_placeInstr hwf _)⟩

end Sys2Proof.Machine
end

section
/-! The frames of the instructions (10_state.md R21 to R30): which parts of the state an instruction that goes on may change,
read off its effect. -/

namespace Sys2Proof.Machine

/-! ### The builtins -/

section BuiltinEffect

variable {s t : State} {id : Nat}

theorem BuiltinEffect.frame_parameters (h : BuiltinEffect s t id) : t.g = s.g ∧ t.shrKind = s.shrKind := by
  cases h <;> rename_i ht _ <;> exact ⟨(congrArg State.g ht :), (congrArg State.shrKind ht :)⟩

theorem BuiltinEffect.frame_a (h : BuiltinEffect s t id) :
    t.a = s.a ∨ id ∈ [1, 2, 3, 5, 6, 7, 8, 9, 10, 11, 12, 13, 14, 15, 16, 17, 18, 19, 20, 21, 26, 28, 29, 31, 36] := by
  cases h <;> rename_i ht hid
  case accumulator | read | standardName | openFailed | opened =>
    exact .inr (by simp only [List.mem_cons, List.not_mem_nil, or_false] at hid ⊢; omega)
  all_goals exact .inl (congrArg State.a ht :)

theorem BuiltinEffect.frame_b (h : BuiltinEffect s t id) : t.b = s.b ∨ (id = 23 ∧ t.b = .unwritten) := by
  cases h <;> rename_i ht hid
  case switch => exact .inr ⟨hid, (congrArg State.b ht :)⟩
  all_goals exact .inl (congrArg State.b ht :)

theorem BuiltinEffect.frame_c (h : BuiltinEffect s t id) : t.c = s.c ∨ id ∈ [4, 23, 32, 35] := by
  cases h <;> rename_i ht hid
  case jump | switch | vectorFrame =>
    exact .inr (by simp only [List.mem_cons, List.not_mem_nil, or_false] at hid ⊢; omega)
  all_goals exact .inl (congrArg State.c ht :)

theorem BuiltinEffect.frame_d (h : BuiltinEffect s t id) : t.d = s.d ∨ ∃ w, t.d = .word w := by
  cases h <;> rename_i ht hid
  case switch w => exact .inr ⟨w, (congrArg State.d ht :)⟩
  all_goals exact .inl (congrArg State.d ht :)

theorem BuiltinEffect.frame_p (h : BuiltinEffect s t id) : t.p = s.p ∨ id ∈ [4, 32, 35] := by
  cases h <;> rename_i ht hid
  case jump | vectorFrame =>
    exact .inr (by simp only [List.mem_cons, List.not_mem_nil, or_false] at hid ⊢; omega)
  all_goals exact .inl (congrArg State.p ht :)

theorem BuiltinEffect.frame_mem (h : BuiltinEffect s t id) : t.mem = s.mem ∨ id ∈ [35, 37] := by
  cases h <;> rename_i ht hid
  case vectorFrame | putByte =>
    exact .inr (by simp only [List.mem_cons, List.not_mem_nil, or_false] at hid ⊢; omega)
  all_goals exact .inl (congrArg State.mem ht :)

theorem BuiltinEffect.frame_selectedInput (h : BuiltinEffect s t id) :
    t.selectedInput = s.selectedInput ∨ id ∈ [24, 33] := by
  cases h <;> rename_i ht hid
  case selectInput | closeInput =>
    exact .inr (by simp only [List.mem_cons, List.not_mem_nil, or_false] at hid ⊢; omega)
  all_goals exact .inl (congrArg State.selectedInput ht :)

theorem BuiltinEffect.frame_selectedOutput (h : BuiltinEffect s t id) :
    t.selectedOutput = s.selectedOutput ∨ id ∈ [25, 34] := by
  cases h <;> rename_i ht hid
  case selectOutput | closeOutput =>
    exact .inr (by simp only [List.mem_cons, List.not_mem_nil, or_false] at hid ⊢; omega)
  all_goals exact .inl (congrArg State.selectedOutput ht :)

theorem BuiltinEffect.frame_table (h : BuiltinEffect s t id) : t.table = s.table ∨ id ∈ [28, 29, 33, 34] := by
  cases h <;> rename_i ht hid
  case opened | closeInput | closeOutput =>
    exact .inr (by simp only [List.mem_cons, List.not_mem_nil, or_false] at hid ⊢; omega)
  all_goals exact .inl (congrArg State.table ht :)

theorem BuiltinEffect.frame_host (h : BuiltinEffect s t id) : t.host = s.host ∨ id ∈ [26, 27, 28, 29, 33, 34] := by
  cases h <;> rename_i ht hid
  case read | write | openFailed | opened | closeInput | closeOutput =>
    exact .inr (by simp only [List.mem_cons, List.not_mem_nil, or_false] at hid ⊢; omega)
  all_goals exact .inl (congrArg State.host ht :)

theorem BuiltinEffect.frame_status (h : BuiltinEffect s t id) : t.status = s.status ∨ id ∈ [22, 30, 38] := by
  cases h <;> rename_i ht hid
  case halt => exact .inr hid
  all_goals exact .inl (congrArg State.status ht :)

end BuiltinEffect

/-! ### Every instruction -/

section ExecEffect

variable {i : Instr} {s t : State}

/-- An instruction that performs no builtin changes registers and the store only. -/
theorem ExecEffect.primary_or_builtin (h : ExecEffect i s t) :
    t = { s with a := t.a, b := t.b, c := t.c, d := t.d, p := t.p, mem := t.mem } ∨
      ∃ d, s.builtinOf i = some (u16 d) ∧ BuiltinEffect (s.atOperand i.operand d) t (u16 d) := by
  cases h
  case builtin d hb h => exact .inr ⟨d, hb, h⟩
  all_goals
    rename_i ht
    exact .inl (by rw [ht]; rfl)

/-- A part of the state that is neither a register nor the store, and that the builtins but `ids` keep, changes only by
them. -/
theorem ExecEffect.frame_or_performs (h : ExecEffect i s t) {α : Type} {part : State → α} {ids : List Nat}
    (hprimary : part { s with a := t.a, b := t.b, c := t.c, d := t.d, p := t.p, mem := t.mem } = part s)
    (hbuiltin : ∀ d id, BuiltinEffect (s.atOperand i.operand d) t id → part t = part s ∨ id ∈ ids) :
    part t = part s ∨ s.performs i ids := by
  obtain ht | ⟨d, hb, heff⟩ := h.primary_or_builtin
  · exact .inl ((congrArg part ht).trans hprimary)
  · exact (hbuiltin d _ heff).imp_right fun hid => ⟨u16 d, hid, hb⟩

theorem ExecEffect.frame_a (h : ExecEffect i s t) :
    t.a = s.a ∨ (∃ op, i = .load op) ∨ (∃ op, i = .add op) ∨
      s.performs i [1, 2, 3, 5, 6, 7, 8, 9, 10, 11, 12, 13, 14, 15, 16, 17, 18, 19, 20, 21, 26, 28, 29, 31, 36] := by
  cases h with
  | load op d hi ht => exact .inr (.inl ⟨op, hi⟩)
  | add op d hi ht => exact .inr (.inr (.inl ⟨op, hi⟩))
  | store op d w hi hd ht => exact .inl (congrArg State.a ht :)
  | jump op d hi ht => exact .inl (congrArg State.a ht :)
  | call op d f w0 w1 hi h0 h1 ht => exact .inl (congrArg State.a ht :)
  | builtin d hb h => exact h.frame_a.imp_right fun hid => .inr (.inr ⟨u16 d, hid, hb⟩)

theorem ExecEffect.frame_b (h : ExecEffect i s t) :
    t.b = s.b ∨ (∃ op, i = .load op) ∨ (s.performs i [23] ∧ t.b = .unwritten) := by
  cases h with
  | load op d hi ht => exact .inr (.inl ⟨op, hi⟩)
  | add op d hi ht => exact .inl (congrArg State.b ht :)
  | store op d w hi hd ht => exact .inl (congrArg State.b ht :)
  | jump op d hi ht => exact .inl (congrArg State.b ht :)
  | call op d f w0 w1 hi h0 h1 ht => exact .inl (congrArg State.b ht :)
  | builtin d hb h =>
    exact h.frame_b.imp_right fun ⟨hid, hunwritten⟩ => .inr ⟨⟨u16 d, List.mem_singleton.2 hid, hb⟩, hunwritten⟩

theorem ExecEffect.frame_p (h : ExecEffect i s t) :
    t.p = s.p ∨ (∃ op, i = .call op) ∨ s.performs i [4, 32, 35] := by
  cases h with
  | load op d hi ht => exact .inl (congrArg State.p ht :)
  | add op d hi ht => exact .inl (congrArg State.p ht :)
  | store op d w hi hd ht => exact .inl (congrArg State.p ht :)
  | jump op d hi ht => exact .inl (congrArg State.p ht :)
  | call op d f w0 w1 hi h0 h1 ht => exact .inr (.inl ⟨op, hi⟩)
  | builtin d hb h => exact h.frame_p.imp_right fun hid => .inr ⟨u16 d, hid, hb⟩

/-- Decode leaves the operand in `D`, and what replaces it is a word. -/
theorem ExecEffect.writes_d (h : ExecEffect i s t) : ∃ w, t.d = .word w := by
  cases h with
  | builtin d hb h =>
    obtain heq | hw := h.frame_d
    · exact ⟨d, heq⟩
    · exact hw
  | load op d hi ht => exact ⟨d, (congrArg State.d ht :)⟩
  | add op d hi ht => exact ⟨d, (congrArg State.d ht :)⟩
  | store op d w hi hd ht => exact ⟨d, (congrArg State.d ht :)⟩
  | jump op d hi ht => exact ⟨d, (congrArg State.d ht :)⟩
  | call op d f w0 w1 hi h0 h1 ht => exact ⟨d, (congrArg State.d ht :)⟩

theorem ExecEffect.advances_c (h : ExecEffect i s t) :
    t.c = s.c + BitVec.ofNat 16 i.operand.length ∨ (∃ op, i = .jump op) ∨ (∃ op, i = .jumpTrue op) ∨
      (∃ op, i = .jumpFalse op) ∨ (∃ op, i = .call op) ∨ s.performs i [4, 23, 32, 35] := by
  cases h with
  | load op d hi ht => exact .inl (by rw [hi]; exact (congrArg State.c ht :))
  | add op d hi ht => exact .inl (by rw [hi]; exact (congrArg State.c ht :))
  | store op d w hi hd ht => exact .inl (by rw [hi]; exact (congrArg State.c ht :))
  | jump op d hi ht =>
    obtain hi | hi | hi := hi
    · exact .inr (.inl ⟨op, hi⟩)
    · exact .inr (.inr (.inl ⟨op, hi⟩))
    · exact .inr (.inr (.inr (.inl ⟨op, hi⟩)))
  | call op d f w0 w1 hi h0 h1 ht => exact .inr (.inr (.inr (.inr (.inl ⟨op, hi⟩))))
  | builtin d hb h => exact h.frame_c.imp_right fun hid => .inr (.inr (.inr (.inr ⟨u16 d, hid, hb⟩)))

theorem ExecEffect.frame_mem (h : ExecEffect i s t) :
    t.mem = s.mem ∨ (∃ op, i = .store op) ∨ (∃ op, i = .call op) ∨ s.performs i [35, 37] := by
  cases h with
  | load op d hi ht => exact .inl (congrArg State.mem ht :)
  | add op d hi ht => exact .inl (congrArg State.mem ht :)
  | store op d w hi hd ht => exact .inr (.inl ⟨op, hi⟩)
  | jump op d hi ht => exact .inl (congrArg State.mem ht :)
  | call op d f w0 w1 hi h0 h1 ht => exact .inr (.inr (.inl ⟨op, hi⟩))
  | builtin d hb h => exact h.frame_mem.imp_right fun hid => .inr (.inr ⟨u16 d, hid, hb⟩)

end ExecEffect

/-- Settles O46: neither a primary instruction nor a builtin has `G` or SHR_KIND among what it writes. -/
theorem noInstructionWritesG : Obligations.NoInstructionWritesG := by
  intro i s t h
  obtain ht | ⟨d, -, heff⟩ := (exec_effect h).primary_or_builtin
  · exact ⟨(congrArg State.g ht :), (congrArg State.shrKind ht :)⟩
  · exact heff.frame_parameters

/-- Settles O47: the frames of `A`, `B` and `P`, and the write of `D` by decode. -/
theorem onlyTheirWritersChangeRegisters : Obligations.OnlyTheirWritersChangeRegisters :=
  fun _ _ _ h => ⟨(exec_effect h).frame_a, (exec_effect h).frame_b, (exec_effect h).frame_p, (exec_effect h).writes_d⟩

/-- Settles O48: decode moves `C` past the operand's words, which are as many as the encoder writes. -/
theorem sequentialInstructionsAdvanceC : Obligations.SequentialInstructionsAdvanceC := by
  intro i s t h
  rw [encode, (Laws.EncodeLength.ofOperand i.opcode i.operand).1]
  exact (exec_effect h).advances_c

/-- Settles O49: a store that is the same reads the same. -/
theorem onlyFourInstructionsWriteTheStore : Obligations.OnlyFourInstructionsWriteTheStore :=
  fun _ _ _ h => (exec_effect h).frame_mem.imp_left fun hmem addr => congrArg (Memory.read · addr) hmem

/-- Settles O50: the five parts lie outside the registers and the store, so only builtins reach them. -/
theorem onlyTheirBuiltinsReachTheFileTableAndTheHost : Obligations.OnlyTheirBuiltinsReachTheFileTableAndTheHost := by
  intro i s t h
  have heff := exec_effect h
  exact ⟨heff.frame_or_performs rfl fun _ _ hb => hb.frame_selectedInput,
    heff.frame_or_performs rfl fun _ _ hb => hb.frame_selectedOutput,
    heff.frame_or_performs rfl fun _ _ hb => hb.frame_table,
    heff.frame_or_performs rfl fun _ _ hb => hb.frame_host,
    heff.frame_or_performs rfl fun _ _ hb => hb.frame_status⟩

end Sys2Proof.Machine
end

section
/-! The invariant of the machine and the rule of closed handles (44_builtins_io.md R230): what a step does to the file table
and to the host, and that each of these keeps the invariant. -/

namespace Sys2Proof.Machine

/-! ### What a step does to the file table and the host -/

/-- The handle `h` stands in a slot of the file table. -/
def State.Holds (s : State) (h : Handle) : Prop := ∃ (i : Nat) (slot : Slot), s.table[i]? = some slot ∧ slot.handle? = some h

/-- What a step from `s` to `t` did to the file table and the host side, whatever it did to the rest of the state. -/
inductive IoEffect (s t : State) : Prop where
  | quiet (ht : t.table = s.table) (hh : t.host = s.host)
  | read (h : Handle) (r : Option Byte) (hheld : s.Holds h) (ht : t.table = s.table)
      (hc : t.host.calls = s.host.calls ++ [.read h r]) (hn : t.host.nextHandle = s.host.nextHandle)
  | write (h : Handle) (b : Byte) (hheld : s.Holds h) (ht : t.table = s.table)
      (hc : t.host.calls = s.host.calls ++ [.write h b]) (hn : t.host.nextHandle = s.host.nextHandle)
  | openFailed (name : List Byte) (dir : Dir) (ht : t.table = s.table)
      (hc : t.host.calls = s.host.calls ++ [.openFile name dir none]) (hn : t.host.nextHandle = s.host.nextHandle)
  | opened (name : List Byte) (dir : Dir) (k : Nat) (ht : alloc s.table (.opened s.host.nextHandle dir) = .ok (k, t.table))
      (hc : t.host.calls = s.host.calls ++ [.openFile name dir (some (.file s.host.nextHandle))])
      (hn : t.host.nextHandle = s.host.nextHandle + 1)
  | closed (h : Handle) (k : Nat) (slot : Slot) (hk : s.table[k]? = some slot) (hslot : slot.handle? = some h)
      (ht : t.table = s.table.set k .free) (hc : t.host.calls = s.host.calls ++ [.close h])
      (hn : t.host.nextHandle = s.host.nextHandle)

theorem handle?_of_inputHandle? {slot : Slot} {h : Handle} (hs : slot.inputHandle? = some h) : slot.handle? = some h := by
  obtain ⟨rfl, rfl⟩ | ⟨n, rfl, rfl⟩ := Slot.inputHandle?_eq_some.1 hs <;> rfl

theorem handle?_of_outputHandle? {slot : Slot} {h : Handle} (hs : slot.outputHandle? = some h) :
    slot.handle? = some h := by
  obtain ⟨rfl, rfl⟩ | ⟨rfl, rfl⟩ | ⟨n, rfl, rfl⟩ := Slot.outputHandle?_eq_some.1 hs <;> rfl

theorem slot_of_inStream {table : List Slot} {k : Nat} {h : Handle} (hs : inStream table k = .ok h) :
    ∃ slot, table[k]? = some slot ∧ slot.handle? = some h :=
  (inStream_eq_ok.1 hs).imp fun _ => And.imp_right handle?_of_inputHandle?

theorem slot_of_outStream {table : List Slot} {k : Nat} {h : Handle} (hs : outStream table k = .ok h) :
    ∃ slot, table[k]? = some slot ∧ slot.handle? = some h :=
  (outStream_eq_ok.1 hs).imp fun _ => And.imp_right handle?_of_outputHandle?

theorem BuiltinEffect.ioEffect {s t : State} {id : Nat} (h : BuiltinEffect s t id) : IoEffect s t := by
  cases h
  case read hd r hs hr ht hid =>
    obtain ⟨hc, hn⟩ := HostSide.read_eq_ok hr
    exact .read hd r ⟨_, slot_of_inStream hs⟩ (congrArg State.table ht :) hc hn
  case write hd b hs hw ht hid =>
    obtain ⟨hc, hn⟩ := HostSide.write_eq_ok hw
    exact .write hd b ⟨_, slot_of_outStream hs⟩ (congrArg State.table ht :) hc hn
  case openFailed name dir ho ht hid =>
    obtain ⟨-, hc, hn⟩ | ⟨hr, -⟩ := HostSide.openStream_eq_ok ho
    · exact .openFailed name dir (congrArg State.table ht :) hc hn
    · cases hr
  case opened name dir n k ho ha ht hid =>
    obtain ⟨hr, -⟩ | ⟨hr, hc, hn⟩ := HostSide.openStream_eq_ok ho
    · cases hr
    · cases hr
      exact .opened name dir k ha hc hn
  case closeInput hd hs ht hid =>
    obtain ⟨slot, hk, hslot⟩ := slot_of_inStream hs
    subst ht
    exact .closed hd _ slot hk hslot rfl rfl rfl
  case closeOutput hd hs ht hid =>
    obtain ⟨slot, hk, hslot⟩ := slot_of_outStream hs
    subst ht
    exact .closed hd _ slot hk hslot rfl rfl rfl
  all_goals
    rename_i ht _
    exact .quiet (congrArg State.table ht :) (congrArg State.host ht :)

/-- Decode touches neither the file table nor the host side. -/
theorem IoEffect.of_atOperand {s t : State} {op : Operand} {d : Word} (h : IoEffect (s.atOperand op d) t) : IoEffect s t := by
  cases h with
  | quiet ht hh => exact .quiet ht hh
  | read hd r hheld ht hc hn => exact .read hd r hheld ht hc hn
  | write hd b hheld ht hc hn => exact .write hd b hheld ht hc hn
  | openFailed name dir ht hc hn => exact .openFailed name dir ht hc hn
  | opened name dir k ht hc hn => exact .opened name dir k ht hc hn
  | closed hd k slot hk hslot ht hc hn => exact .closed hd k slot hk hslot ht hc hn

theorem IoEffect.of_step {s t : State} (h : step s = .next t) : IoEffect s t := by
  obtain rfl | ⟨-, i, -, hexec⟩ := step_eq_next h
  · exact .quiet rfl rfl
  · obtain ht | ⟨d, -, heff⟩ := (exec_effect hexec).primary_or_builtin
    · exact .quiet (congrArg State.table ht :) (congrArg State.host ht :)
    · exact heff.ioEffect.of_atOperand

/-- A closed handle is held by no slot, so nothing passes it to the host. -/
theorem State.Inv.not_closed {s : State} (hs : s.Inv) {h : Handle} (hheld : s.Holds h) : HostCall.close h ∉ s.host.calls := by
  obtain ⟨i, slot, hi, hslot⟩ := hheld
  exact fun hclosed => hs.closedNotHeld h hclosed i slot hi hslot

/-- Settles O53: what a step passes to the host is held, so not closed; the handle of an open is the counter's, below which
are all that were given before. -/
theorem closedHandlesAreNeverUsedAgain : Obligations.ClosedHandlesAreNeverUsedAgain := by
  intro s t hs hstep
  cases IoEffect.of_step hstep with
  | quiet ht hh => exact ⟨[], by rw [hh, List.append_nil], by simp, by simp⟩
  | read h r hheld ht hc hn => exact ⟨_, hc, le_refl _, by simpa using hs.not_closed hheld⟩
  | write h b hheld ht hc hn => exact ⟨_, hc, le_refl _, by simpa using hs.not_closed hheld⟩
  | openFailed name dir ht hc hn => exact ⟨_, hc, le_refl _, by simp⟩
  | opened name dir k ht hc hn =>
    have hfresh : ∀ name' dir', HostCall.openFile name' dir' (some (.file s.host.nextHandle)) ∉ s.host.calls :=
      fun name' dir' hgiven => Nat.lt_irrefl _ (hs.openedWasGiven name' dir' _ hgiven)
    exact ⟨_, hc, le_refl _, by simpa using hfresh⟩
  | closed h k slot hk hslot ht hc hn =>
    exact ⟨_, hc, le_refl _, by simpa using hs.not_closed ⟨k, slot, hk, hslot⟩⟩

/-! ### The store's canonical form -/

theorem BuiltinEffect.mem_wf {s t : State} {id : Nat} (h : BuiltinEffect s t id) (hs : s.mem.wf = true) :
    t.mem.wf = true := by
  cases h
  case vectorFrame d w0 w1 w2 w3 h0 h1 h2 h3 ht hid =>
    rw [ht]
    exact Memory.write_wf (Memory.write_wf (Memory.write_wf (Memory.write_wf hs h0 w0) h1 w1) h2 w2) h3 w3
  case putByte a w ha ht hid =>
    rw [ht]
    exact Memory.write_wf hs ha w
  all_goals
    rename_i ht _
    rw [ht]
    exact hs

theorem ExecEffect.mem_wf {i : Instr} {s t : State} (h : ExecEffect i s t) (hs : s.mem.wf = true) : t.mem.wf = true := by
  cases h with
  | load op d hi ht => rw [ht]; exact hs
  | add op d hi ht => rw [ht]; exact hs
  | store op d w hi hd ht => rw [ht]; exact Memory.write_wf hs hd w
  | jump op d hi ht => rw [ht]; exact hs
  | call op d f w0 w1 hi h0 h1 ht => rw [ht]; exact Memory.write_wf (Memory.write_wf hs h0 w0) h1 w1
  | builtin d hb h => exact h.mem_wf hs

theorem step_mem_wf {s t : State} (h : step s = .next t) (hs : s.mem.wf = true) : t.mem.wf = true := by
  obtain rfl | ⟨-, i, -, hexec⟩ := step_eq_next h
  · exact hs
  · exact (exec_effect hexec).mem_wf hs

/-! ### The invariant is kept -/

section keeps

variable {s t : State}

/-- A handle stands in one slot only: a standard stream in its own, and any other one by the invariant. -/
theorem State.Inv.holds_once (hs : s.Inv) {i j : Nat} {a b : Slot} {h : Handle} (hi : s.table[i]? = some a)
    (hj : s.table[j]? = some b) (ha : a.handle? = some h) (hb : b.handle? = some h) : i = j := by
  cases h with
  | std k =>
    have hstd : ∀ {slot : Slot}, slot.handle? = some (.std k) → slot = .std k := fun {slot} hslot => by
      cases slot <;> cases hslot
      rfl
    exact ((hs.places i a hi).2 k (hstd ha)).trans ((hs.places j b hj).2 k (hstd hb)).symm
  | file n =>
    have hopened : ∀ {slot : Slot}, slot.handle? = some (.file n) → ∃ dir, slot = .opened n dir := fun {slot} hslot => by
      cases slot <;> cases hslot
      exact ⟨_, rfl⟩
    obtain ⟨dir, rfl⟩ := hopened ha
    obtain ⟨dir', rfl⟩ := hopened hb
    exact hs.heldOnce i j n dir dir' hi hj

/-- With the same file table, the invariant is kept when the host closes nothing and gives no handle. -/
theorem State.Inv.of_table_eq (hs : s.Inv) (hm : t.mem.wf = true) (ht : t.table = s.table)
    (hn : t.host.nextHandle = s.host.nextHandle)
    (hopened : ∀ name dir n, HostCall.openFile name dir (some (.file n)) ∈ t.host.calls →
      HostCall.openFile name dir (some (.file n)) ∈ s.host.calls)
    (hclosed : ∀ h, HostCall.close h ∈ t.host.calls → HostCall.close h ∈ s.host.calls) : t.Inv where
  memory := hm
  tableLength := ht ▸ hs.tableLength
  places := ht ▸ hs.places
  heldWasGiven := by rw [ht, hn]; exact hs.heldWasGiven
  heldOnce := ht ▸ hs.heldOnce
  openedWasGiven name dir n h := hn ▸ hs.openedWasGiven name dir n (hopened name dir n h)
  closedWasGiven n h := hn ▸ hs.closedWasGiven n (hclosed _ h)
  closedNotHeld h hc := ht ▸ hs.closedNotHeld h (hclosed h hc)

/-- A slot of a table with slot `k` replaced is the new one, or is another slot of the table. -/
theorem slot_of_set {table : List Slot} {k i : Nat} {entry slot : Slot} (h : (table.set k entry)[i]? = some slot) :
    (i = k ∧ slot = entry) ∨ (i ≠ k ∧ table[i]? = some slot) := by
  rw [List.getElem?_set] at h
  split at h
  · rename_i hki
    split at h
    · exact .inl ⟨hki.symm, (Option.some.inj h).symm⟩
    · cases h
  · rename_i hki
    exact .inr ⟨Ne.symm hki, h⟩

/-- An allocation puts the entry into a slot above 0 and leaves the other slots; the table stays as short as MAX_SLOT allows
(R240). -/
theorem alloc_slots {table table' : List Slot} {entry : Slot} {k : Nat} (h : alloc table entry = .ok (k, table'))
    (hlen : 1 ≤ table.length ∧ table.length ≤ 32768) :
    1 ≤ k ∧ (table.length ≤ table'.length ∧ table'.length ≤ 32768) ∧
      ∀ (i : Nat) slot, table'[i]? = some slot → (i = k ∧ slot = entry) ∨ table[i]? = some slot := by
  obtain ⟨hk, -, rfl⟩ | ⟨rfl, hmax, rfl⟩ := alloc_eq_ok h
  · exact ⟨hk, by simp [hlen.2], fun i slot hi => (slot_of_set hi).imp_right And.right⟩
  · refine ⟨hlen.1, by simp; omega, fun i slot hi => ?_⟩
    rcases Nat.lt_trichotomy i table.length with hlt | rfl | hgt
    · rw [List.getElem?_append_left hlt] at hi
      exact .inr hi
    · exact .inl ⟨rfl, by simpa [eq_comm] using hi⟩
    · rw [List.getElem?_eq_none (by simp; omega)] at hi
      cases hi

theorem State.Inv.of_opened (hs : s.Inv) (hm : t.mem.wf = true) {name : List Byte} {dir : Dir} {k : Nat}
    (ht : alloc s.table (.opened s.host.nextHandle dir) = .ok (k, t.table))
    (hc : t.host.calls = s.host.calls ++ [.openFile name dir (some (.file s.host.nextHandle))])
    (hn : t.host.nextHandle = s.host.nextHandle + 1) : t.Inv := by
  have hlen := hs.tableLength
  simp only [Config.maxSlot] at hlen
  obtain ⟨hk, hlen', hslots⟩ := alloc_slots ht (by omega)
  have hclosed : ∀ h, HostCall.close h ∈ t.host.calls → HostCall.close h ∈ s.host.calls := fun h hcl => by
    simpa [hc] using hcl
  refine
    { memory := hm
      tableLength := by simp only [Config.maxSlot]; omega
      places := fun i slot hi => ?_
      heldWasGiven := fun i n dir' hi => ?_
      heldOnce := fun i j n dir' dir'' hi hj => ?_
      openedWasGiven := fun name' dir' n ho => ?_
      closedWasGiven := fun n hcl => ?_
      closedNotHeld := fun h hcl i slot hi => ?_ }
  · obtain ⟨rfl, rfl⟩ | hi := hslots i slot hi
    · exact ⟨⟨nofun, fun h0 => by omega⟩, nofun⟩
    · exact hs.places i slot hi
  · obtain ⟨-, he⟩ | hi := hslots i _ hi
    · cases he
      omega
    · have := hs.heldWasGiven i n dir' hi
      omega
  · obtain ⟨hik, he⟩ | hi := hslots i _ hi <;> obtain ⟨hjk, he'⟩ | hj := hslots j _ hj
    · exact hik.trans hjk.symm
    · cases he
      exact absurd (hs.heldWasGiven j _ _ hj) (Nat.lt_irrefl _)
    · cases he'
      exact absurd (hs.heldWasGiven i _ _ hi) (Nat.lt_irrefl _)
    · exact hs.heldOnce i j n dir' dir'' hi hj
  · rw [hc, List.mem_append, List.mem_singleton] at ho
    obtain ho | he := ho
    · have := hs.openedWasGiven name' dir' n ho
      omega
    · cases he
      omega
  · have := hs.closedWasGiven n (hclosed _ hcl)
    omega
  · obtain ⟨-, rfl⟩ | hi := hslots i slot hi
    · rintro ⟨⟩
      exact Nat.lt_irrefl _ (hs.closedWasGiven _ (hclosed _ hcl))
    · exact hs.closedNotHeld h (hclosed h hcl) i slot hi

theorem State.Inv.of_closed (hs : s.Inv) (hm : t.mem.wf = true) {h : Handle} {k : Nat} {slot : Slot}
    (hk : s.table[k]? = some slot) (hslot : slot.handle? = some h) (ht : t.table = s.table.set k .free)
    (hc : t.host.calls = s.host.calls ++ [.close h]) (hn : t.host.nextHandle = s.host.nextHandle) : t.Inv := by
  have hslots : ∀ (i : Nat) slot', t.table[i]? = some slot' →
      (i = k ∧ slot' = .free) ∨ (i ≠ k ∧ s.table[i]? = some slot') := fun i slot' hi => slot_of_set (ht ▸ hi)
  have hopened : ∀ {i : Nat} {n dir}, t.table[i]? = some (.opened n dir) → s.table[i]? = some (.opened n dir) :=
    fun {i n dir} hi => by
      obtain ⟨-, he⟩ | ⟨-, hi⟩ := hslots i _ hi
      · cases he
      · exact hi
  refine
    { memory := hm
      tableLength := by rw [ht, List.length_set]; exact hs.tableLength
      places := fun i slot' hi => ?_
      heldWasGiven := fun i n dir hi => hn ▸ hs.heldWasGiven i n dir (hopened hi)
      heldOnce := fun i j n dir dir' hi hj => hs.heldOnce i j n dir dir' (hopened hi) (hopened hj)
      openedWasGiven := fun name dir n ho => hn ▸ hs.openedWasGiven name dir n (by simpa [hc] using ho)
      closedWasGiven := fun n hcl => ?_
      closedNotHeld := fun h' hcl i slot' hi => ?_ }
  · obtain ⟨rfl, rfl⟩ | ⟨-, hi⟩ := hslots i slot' hi
    · have hne : i ≠ 0 := fun h0 => by
        rw [(hs.places i slot hk).1.2 h0] at hslot
        cases hslot
      exact ⟨⟨nofun, fun h0 => absurd h0 hne⟩, nofun⟩
    · exact hs.places i slot' hi
  · rw [hc, List.mem_append, List.mem_singleton] at hcl
    rw [hn]
    obtain hcl | he := hcl
    · exact hs.closedWasGiven n hcl
    · cases he
      cases slot <;> cases hslot
      exact hs.heldWasGiven k n _ hk
  · obtain ⟨-, rfl⟩ | ⟨hik, hi⟩ := hslots i slot' hi
    · nofun
    · rw [hc, List.mem_append, List.mem_singleton] at hcl
      obtain hcl | he := hcl
      · exact hs.closedNotHeld h' hcl i slot' hi
      · cases he
        exact fun hslot' => hik (hs.holds_once hi hk hslot' hslot)

theorem State.Inv.of_ioEffect (hs : s.Inv) (hm : t.mem.wf = true) (h : IoEffect s t) : t.Inv := by
  cases h with
  | quiet ht hh => exact hs.of_table_eq hm ht (by rw [hh]) (by simp [hh]) (by simp [hh])
  | read h r hheld ht hc hn => exact hs.of_table_eq hm ht hn (by simp [hc]) (by simp [hc])
  | write h b hheld ht hc hn => exact hs.of_table_eq hm ht hn (by simp [hc]) (by simp [hc])
  | openFailed name dir ht hc hn => exact hs.of_table_eq hm ht hn (by simp [hc]) (by simp [hc])
  | opened name dir k ht hc hn => exact hs.of_opened hm ht hc hn
  | closed h k slot hk hslot ht hc hn => exact hs.of_closed hm hk hslot ht hc hn

end keeps

/-- Settles O52: the store and what a step does to the file table and the host each keep their part of the invariant. -/
theorem everyStepKeepsTheInvariant : Obligations.EveryStepKeepsTheInvariant :=
  fun _ _ hs h => hs.of_ioEffect (step_mem_wf h hs.memory) (.of_step h)

/-! ### Reset -/

theorem resetTable_places (i : Nat) (slot : Slot) (h : resetTable[i]? = some slot) :
    slot.fitsAt i ∧ ∀ n dir, slot ≠ .opened n dir := by
  match i with
  | 0 | 1 | 2 | 3 =>
    cases h
    exact ⟨⟨by decide, by rintro k ⟨⟩ <;> rfl⟩, nofun⟩
  | i + 4 => cases h

/-- A state with the file table of reset and no host call made meets the invariant. -/
theorem State.Inv.of_resetTable {t : State} (hm : t.mem.wf = true) (ht : t.table = resetTable) (hc : t.host.calls = []) :
    t.Inv where
  memory := hm
  tableLength := by rw [ht]; decide
  places i slot h := (resetTable_places i slot (ht ▸ h)).1
  heldWasGiven i n dir h := absurd rfl ((resetTable_places i _ (ht ▸ h)).2 n dir)
  heldOnce i j n dir dir' h _ := absurd rfl ((resetTable_places i _ (ht ▸ h)).2 n dir)
  openedWasGiven name dir n h := by rw [hc] at h; cases h
  closedWasGiven n h := by rw [hc] at h; cases h
  closedNotHeld h hcl := by rw [hc] at hcl; cases hcl

/-- Settles O51: reset's store lists no cell, and its host has made no call. -/
theorem resetMeetsTheInvariant : Obligations.ResetMeetsTheInvariant := .of_resetTable rfl rfl rfl

end Sys2Proof.Machine
end

section
/-! The operand and Execute (30_encoding.md R73 to R76, 41_cycle_primary.md R148): the operand as a number, and how a
builtin answers through any form of Execute. -/

namespace Sys2Proof.Machine

/-! ### The operand (R73 to R75) -/

/-- The literal as a number: `lit9` is not sign-extended (R74). -/
theorem u16_literalWord {l : Literal} {lit : Nat}
    (h : (∃ n, l = .short n ∧ lit = n.toNat) ∨ (∃ w, l = .long w ∧ lit = u16 w)) : u16 (literalWord l) = lit := by
  obtain ⟨n, rfl, rfl⟩ | ⟨w, rfl, rfl⟩ := h
  · exact BitVec.toNat_setWidth_of_le (by decide)
  · rfl

theorem State.u16_operandAddr (s : State) (op : Operand) : u16 (s.operandAddr op) =
    (u16 (literalWord op.literal) + (if op.frame then u16 s.p else 0) + (if op.global then u16 s.g else 0)) % 65536 := by
  have hlit := u16_lt (literalWord op.literal)
  simp only [u16_eq] at hlit ⊢
  cases hf : op.frame <;> cases hg : op.global <;>
    simp only [State.operandAddr, hf, hg, if_true, if_false, Bool.false_eq_true, BitVec.toNat_add] <;> omega

/-- Settles O10: `addr` is the word of the sum, and with the I flag the operand is what a load of it answers. -/
theorem operandFollowsTheFlags : Obligations.OperandFollowsTheFlags := by
  intro s op lit hlit
  refine ⟨u16 (s.operandAddr op), ?_, fun hi => ?_, fun hi hin => ?_, fun hi hout => ?_⟩
  · rw [s.u16_operandAddr, u16_literalWord hlit]
  · rw [State.operandValue, hi, BitVec.ofNat_toNat, BitVec.setWidth_eq]
    rfl
  · rw [State.operandValue, hi, if_pos rfl, State.load_in (by omega)]
  · rw [State.operandValue, hi, if_pos rfl, State.load_out hout]

/-! ### Illegal builtins -/

theorem performBuiltin_illegal {id : Nat} (h : id = 0 ∨ 38 < id) (ia : Word) (s : State) :
    performBuiltin id ia s = .error (.illegalBuiltin id ia) := by
  unfold performBuiltin
  split
  case h_39 => rfl
  all_goals omega

/-- Settles O18: decode comes first, and the dispatch has rows for 1 to 38 only. -/
theorem illegalBuiltinFaults : Obligations.IllegalBuiltinFaults := by
  refine ⟨fun op s f hf => (withOperand_error hf _ : execExecute op s = .fault f), fun s op d hd hid => ?_⟩
  rw [exec_execute_ok hd, performBuiltin_illegal hid, finish_error]

/-! ### The address a fault carries -/

/-- The fault with `ia` as the address of its instruction, if it carries one (60_exceptions.md R261). -/
def Fault.withAddress (ia : Word) : Fault → Fault
  | .divideByZero _ => .divideByZero ia
  | .shiftOutOfRange n _ => .shiftOutOfRange n ia
  | f => f

theorem Fault.Carries.withAddress_eq {ia : Word} {f : Fault} (h : f.Carries ia) : f.withAddress ia = f := by
  obtain ⟨hdiv, hshift⟩ := h
  cases f
  case divideByZero a => rw [Fault.withAddress, hdiv a rfl]
  case shiftOutOfRange n a => rw [Fault.withAddress, hshift n a rfl]
  all_goals rfl

theorem Run.Carries.mapError_withAddress {α : Type} {ia : Word} {r : Run α} (h : Run.Carries ia r) :
    r = r.mapError (Fault.withAddress ia) := by
  cases r with
  | ok x => rfl
  | error f => exact congrArg Except.error (h f rfl).withAddress_eq.symm

theorem dividing_withAddress (f : Word → Word → Word) (ia ia' : Word) (s : State) :
    dividing f ia s = (dividing f ia' s).mapError (Fault.withAddress ia) := by
  unfold dividing State.valB State.valA Reg.val
  cases s.b with
  | unwritten => rfl
  | word y =>
    cases s.a with
    | unwritten => rfl
    | word x =>
      simp only [ok_bind]
      split <;> rfl

theorem shifting_withAddress (f : Word → Nat → Word) (ia ia' : Word) (s : State) :
    shifting f ia s = (shifting f ia' s).mapError (Fault.withAddress ia) := by
  unfold shifting State.valB State.valA Reg.val
  cases s.b with
  | unwritten => rfl
  | word y =>
    cases s.a with
    | unwritten => rfl
    | word x =>
      simp only [ok_bind]
      split <;> rfl

/-- Only X6, X7, X16 and X17 use the address of their Execute word. -/
theorem performBuiltin_address_unused {id : Nat} (hid : 1 ≤ id ∧ id ≤ 38) (huses : id ∉ [6, 7, 16, 17]) (ia ia' : Word)
    (s : State) : performBuiltin id ia s = performBuiltin id ia' s := by
  unfold performBuiltin
  split
  case h_6 | h_7 | h_16 | h_17 => exact absurd (by decide) huses
  case h_39 =>
    obtain ⟨h1, h38⟩ := hid
    interval_cases id <;> contradiction
  all_goals rfl

/-- A builtin uses the address of its Execute word for the faults that carry it and for nothing else. -/
theorem performBuiltin_withAddress {id : Nat} (hid : 1 ≤ id ∧ id ≤ 38) (ia ia' : Word) (s : State) :
    performBuiltin id ia s = (performBuiltin id ia' s).mapError (Fault.withAddress ia) := by
  by_cases huses : id ∈ [6, 7, 16, 17]
  · simp only [List.mem_cons, List.not_mem_nil, or_false] at huses
    obtain rfl | rfl | rfl | rfl := huses
    · exact dividing_withAddress _ ia ia' s
    · exact dividing_withAddress _ ia ia' s
    · exact shifting_withAddress _ ia ia' s
    · exact shifting_withAddress _ ia ia' s
  · rw [performBuiltin_address_unused hid huses ia' ia]
    exact (performBuiltin_carries hid ia s).mapError_withAddress

section mapError

variable {α : Type} {ia ia' : Word} {r : Run α}

theorem mapError_withAddress_eq_ok {x : α} : r.mapError (Fault.withAddress ia) = .ok x ↔ r = .ok x := by
  cases r <;> simp [Except.mapError]

theorem mapError_withAddress_eq_error {f : Fault} (hdiv : ∀ a, f ≠ .divideByZero a)
    (hshift : ∀ n a, f ≠ .shiftOutOfRange n a) : r.mapError (Fault.withAddress ia) = .error f ↔ r = .error f := by
  cases r with
  | ok x => simp [Except.mapError]
  | error g =>
    simp only [Except.mapError, Except.error.injEq]
    cases g
    case divideByZero a => exact ⟨fun h => absurd h.symm (hdiv ia), fun h => absurd h.symm (hdiv a)⟩
    case shiftOutOfRange n a => exact ⟨fun h => absurd h.symm (hshift n ia), fun h => absurd h.symm (hshift n a)⟩
    all_goals rfl

theorem mapError_withAddress_eq_divideByZero (hr : Run.Carries ia' r) {a : Word} :
    r.mapError (Fault.withAddress ia) = .error (.divideByZero a) ↔ a = ia ∧ r = .error (.divideByZero ia') := by
  cases r with
  | ok x => simp [Except.mapError]
  | error g =>
    cases g
    case divideByZero b =>
      obtain rfl : b = ia' := (hr _ rfl).1 b rfl
      simp [Except.mapError, Fault.withAddress, eq_comm]
    all_goals simp [Except.mapError, Fault.withAddress]

theorem mapError_withAddress_eq_shiftOutOfRange (hr : Run.Carries ia' r) {n : Int} {a : Word} :
    r.mapError (Fault.withAddress ia) = .error (.shiftOutOfRange n a) ↔
      a = ia ∧ r = .error (.shiftOutOfRange n ia') := by
  cases r with
  | ok x => simp [Except.mapError]
  | error g =>
    cases g
    case shiftOutOfRange m b =>
      obtain rfl : b = ia' := (hr _ rfl).2 m b rfl
      simp [Except.mapError, Fault.withAddress, eq_comm, and_comm]
    all_goals simp [Except.mapError, Fault.withAddress]

end mapError

/-! ### Execute and the builtin rows -/

theorem State.atOperand_short (s : State) {op : Operand} (h : op.length = 1) (d : Word) :
    s.atOperand op d = s.atBuiltin (u16 d) := by
  rw [State.atOperand, State.atBuiltin, h, BitVec.ofNat_toNat, BitVec.setWidth_eq]

/-- A two-word Execute leaves decode in the state a builtin's row does one word further on. -/
theorem State.atOperand_long {s s1 : State} {op : Operand} (h : op.length = 2) (hs1 : s1 = { s with c := s.c + 1#16 })
    (d : Word) : s.atOperand op d = s1.atBuiltin (u16 d) := by
  rw [hs1, State.atOperand, State.atBuiltin, h, BitVec.ofNat_toNat, BitVec.setWidth_eq, BitVec.add_assoc]
  rfl

/-- Settles O19: both sides perform the same builtin on the same state, with the addresses of different words. -/
theorem executePerformsTheBuiltinItSelects : Obligations.ExecutePerformsTheBuiltinItSelects := by
  intro s s1 op d i hd hid
  rw [exec_execute_ok hd]
  refine ⟨fun hshort => ?_, fun hlong hs1 => ?_⟩
  · rw [exec_builtin hid, s.atOperand_short hshort]
  · have hc : s1.c = s.c + 1#16 := congrArg State.c hs1
    have hbounds := builtinId_bounds hid
    rw [exec_builtin hid, ← State.atOperand_long hlong hs1, hc,
      performBuiltin_withAddress hbounds s.c (s.c + 1#16) (s.atOperand op d)]
    have hcarries := performBuiltin_carries hbounds (s.c + 1#16) (s.atOperand op d)
    simp only [finish_eq_next, finish_eq_fault]
    exact ⟨fun _ => mapError_withAddress_eq_ok, fun _ hdiv hshift => mapError_withAddress_eq_error hdiv hshift,
      fun _ => mapError_withAddress_eq_divideByZero hcarries,
      fun _ _ => mapError_withAddress_eq_shiftOutOfRange hcarries⟩

/-- Settles O20: X22 reads nothing; X3 and X8 go on once the registers they read are written. -/
theorem executeCompletesThroughAnyOperand : Obligations.ExecuteCompletesThroughAnyOperand := by
  intro s op d hd
  rw [exec_execute_ok hd]
  refine ⟨fun hid => ?_, fun hid x ha => ?_, fun hid x y ha hb => ?_⟩
  · rw [hid]
    rfl
  · rw [hid, ← not_eq_ofNat]
    exact finish_eq_next.2 (unary_eq_ok.2 ⟨x, ha, rfl⟩)
  · have hsum : BitVec.ofNat 16 (u16 y + u16 x) = aluAdd y x := by
      rw [aluAdd_eq, BitVec.ofNat_add, BitVec.ofNat_toNat, BitVec.ofNat_toNat, BitVec.setWidth_eq, BitVec.setWidth_eq]
    rw [hid, hsum]
    exact finish_eq_next.2 (binary_eq_ok.2 ⟨y, hb, x, ha, rfl⟩)

/-! ### The binary builtins (42_builtins_alu.md R171) -/

theorem needsBThenA_of_binary {i : Instr} {id : Nat} (h : i.builtinId? = some id) (hid : 5 ≤ id ∧ id ≤ 21) :
    NeedsBThenA i := by
  cases i
  case x5 => exact x5_computes.needsBThenA
  case x6 => exact x6_actsOnBThenA.needsBThenA
  case x7 => exact x7_actsOnBThenA.needsBThenA
  case x8 => exact x8_computes.needsBThenA
  case x9 => exact x9_computes.needsBThenA
  case x10 => exact x10_computes.needsBThenA
  case x11 => exact x11_computes.needsBThenA
  case x12 => exact x12_computes.needsBThenA
  case x13 => exact x13_computes.needsBThenA
  case x14 => exact x14_computes.needsBThenA
  case x15 => exact x15_computes.needsBThenA
  case x16 => exact x16_actsOnBThenA.needsBThenA
  case x17 => exact x17_actsOnBThenA.needsBThenA
  case x18 => exact x18_computes.needsBThenA
  case x19 => exact x19_computes.needsBThenA
  case x20 => exact x20_computes.needsBThenA
  case x21 => exact x21_computes.needsBThenA
  all_goals cases h <;> omega

/-- Of the effects of builtins, only a write of `A` has an id from 5 to 21. -/
theorem BuiltinEffect.of_binary {s t : State} {id : Nat} (h : BuiltinEffect s t id) (hid : 5 ≤ id ∧ id ≤ 21) :
    t = { s with a := t.a } := by
  cases h
  case accumulator ht _ => exact ht
  case jump hid' | halt hid' | standardName hid' | openFailed hid' | opened hid' =>
    simp only [List.mem_cons, List.not_mem_nil, or_false] at hid'
    omega
  all_goals omega

/-- Settles O21: each row is a reading of `B` and then `A`, and its effect is a write of `A`. -/
theorem binaryBuiltinsReadBThenAAndWriteOnlyA : Obligations.BinaryBuiltinsReadBThenAAndWriteOnlyA := by
  rintro i ⟨id, hi, hid⟩
  refine ⟨needsBThenA_of_binary hi hid, fun s t id' hi' h => ?_⟩
  obtain rfl : id = id' := Option.some.inj (hi.symm.trans hi')
  rw [exec_builtin hi, finish_eq_next] at h
  have ht := (performBuiltin_effect h).of_binary hid
  exact ⟨ht, (congrArg State.b ht :)⟩

end Sys2Proof.Machine
end

section
/-! Byte I/O and the file table (44_builtins_io.md R237 to R249): what X26 to X29, X33 and X34 answer, by what the host
answers. -/

namespace Sys2Proof.Machine

/-! ### Reading a byte (R237) -/

theorem exec_x26 (s : State) : exec .x26 s = finish (performRdch (s.atBuiltin 26)) := exec_builtin (id := 26) rfl s

section read

variable {s : State} {h : Handle}

theorem exec_x26_noStream {f : Fault} (hs : inStream s.table (u16 s.selectedInput) = .error f) : exec .x26 s = .fault f := by
  rw [exec_x26, performRdch, State.atBuiltin_table, State.atBuiltin_selectedInput, hs, error_bind, finish_error]

theorem exec_x26_read (hs : inStream s.table (u16 s.selectedInput) = .ok h) {r : Option Byte} {host : HostSide}
    (hr : s.host.read h = .ok (r, host)) :
    exec .x26 s = .next { s.atBuiltin 26 with a := .word (readResult r), host := host } := by
  rw [exec_x26, performRdch, State.atBuiltin_table, State.atBuiltin_selectedInput, hs, ok_bind, State.atBuiltin_host, hr]
  rfl

theorem exec_x26_stuck (hs : inStream s.table (u16 s.selectedInput) = .ok h) {f : Fault} (hr : s.host.read h = .error f) :
    exec .x26 s = .fault f := by
  rw [exec_x26, performRdch, State.atBuiltin_table, State.atBuiltin_selectedInput, hs, ok_bind, State.atBuiltin_host, hr,
    error_bind, finish_error]

end read

theorem zextByte_eq (b : Byte) : zextByte b = BitVec.ofNat 16 b.toNat := by
  rw [zextByte, BitVec.ofNat_toNat]

/-- Settles O37: the row answers as the one read of the selected stream does, listed answer by listed answer. -/
theorem rdchReadsOneByte : Obligations.RdchReadsOneByte := by
  refine ⟨fun _ => rfl, fun s => ⟨fun f => exec_x26_noStream, fun h hs => ?_⟩⟩
  refine ⟨fun b rest hreads => ?_, fun rest hreads => ?_, fun rest hreads => ?_, fun hreads => ?_⟩
  · rw [exec_x26_read hs (by rw [HostSide.read, hreads]), readResult, zextByte_eq]
    rfl
  · exact exec_x26_read hs (by rw [HostSide.read, hreads])
  · exact exec_x26_stuck hs (by rw [HostSide.read, hreads])
  · refine ⟨Config.readDraw s.host.draws, ?_⟩
    rw [exec_x26_read hs (by rw [HostSide.read, hreads])]
    cases Config.readDraw s.host.draws with
    | none => simp only [hreads, readResult]; rfl
    | some b => simp only [hreads, readResult, zextByte_eq]; rfl

/-! ### Writing a byte (R238) -/

/-- What WRCH does with the word `x` of `A`, from the state `t` after decode. -/
def writeByteOf (x : Word) (t : State) : Run State := do
  let h ← outStream t.table (u16 t.selectedOutput)
  let host ← t.host.write h (loByte x)
  .ok (t.setHost host)

theorem x27_actsOnA : ActsOnA .x27 27 writeByteOf := fun _ => exec_builtin (id := 27) rfl _

/-- A write whose next listed answer is not `never` returns, and uses that answer up. -/
theorem HostSide.write_returns {h : HostSide} (hw : ∀ rest, h.writes ≠ .never :: rest) (handle : Handle) (b : Byte) :
    h.write handle b = .ok { h with writes := h.writes.tail, calls := h.calls ++ [.write handle b] } := by
  unfold HostSide.write
  split
  · rename_i rest hnever
    exact absurd hnever (hw rest)
  · rename_i rest hdone
    rw [hdone]
    rfl
  · rename_i hnone
    simp only [HostSide.record, hnone, List.tail_nil]

/-- Settles O38: once `A` is read and the stream found, the row answers as the one write does. -/
theorem wrchWritesTheLowByte : Obligations.WrchWritesTheLowByte := by
  refine ⟨fun _ => rfl, x27_actsOnA.needsA, fun s x ha => ?_⟩
  rw [x27_actsOnA.exec_word ha, writeByteOf, State.atBuiltin_table, State.atBuiltin_selectedOutput, State.atBuiltin_host]
  refine ⟨fun f hs => ?_, fun h hs => ⟨fun rest hnever => ?_, fun hw => ?_⟩⟩
  · rw [hs, error_bind, finish_error]
  · have hstuck : s.host.write h (loByte x) = .error .stuckInHostCall := by rw [HostSide.write, hnever]
    rw [hs, ok_bind, hstuck, error_bind, finish_error]
  · rw [hs, ok_bind, HostSide.write_returns hw, loByte_eq]
    rfl

/-! ### Finding a stream (R240 to R243) -/

/-- The rows that find a stream, each with its id and direction. -/
def findRows : List (Instr × Nat × Dir) := [(.x28, 28, .input), (.x29, 29, .output)]

theorem exec_find {i : Instr} {id : Nat} {dir : Dir} (h : (i, id, dir) ∈ findRows) (s : State) :
    exec i s = finish (findStream dir (s.atBuiltin id)) := by
  simp only [findRows, List.mem_cons, Prod.mk.injEq, List.not_mem_nil, or_false] at h
  obtain ⟨rfl, rfl, rfl⟩ | ⟨rfl, rfl, rfl⟩ := h
  · exact exec_builtin (id := 28) rfl s
  · exact exec_builtin (id := 29) rfl s

theorem x28_mem_findRows : (Instr.x28, 28, Dir.input) ∈ findRows := .head _

theorem x29_mem_findRows : (Instr.x29, 29, Dir.output) ∈ findRows := .tail _ (.head _)

/-- What X28 and X29 do with the host's answer to an open of direction `dir`, in the state `s` after decode. -/
def storeOpened (dir : Dir) (s : State) : Option Nat × HostSide → Run State
  | (none, host) => .ok ((s.setHost host).setA 0#16)
  | (some n, host) => do
    let (slot, table) ← alloc s.table (.opened n dir)
    .ok (((s.setHost host).setTable table).setA (BitVec.ofNat 16 slot))

section findStream

variable {s : State} {x : Word} {name : List Byte} {dir : Dir}

theorem findStream_unwritten (ha : s.a = .unwritten) : findStream dir s = .error (.unwrittenRegister .A) := by
  rw [findStream, State.valA_unwritten ha, error_bind]

theorem findStream_nameFault (ha : s.a = .word x) {f : Fault} (hname : s.readString x = .error f) :
    findStream dir s = .error f := by
  rw [findStream, State.valA_word ha, ok_bind, hname, error_bind]

theorem findStream_standard (ha : s.a = .word x) (hname : s.readString x = .ok name) {slot : Word}
    (hstd : (name, slot) ∈ standardNames) : findStream dir s = .ok (s.setA slot) := by
  rw [findStream, State.valA_word ha, ok_bind, hname, ok_bind, standardSlot_eq_some.2 hstd]
  rfl

/-- A name that is no standard one is opened, and the open's answer stored. -/
theorem findStream_open (ha : s.a = .word x) (hname : s.readString x = .ok name)
    (hstd : ∀ slot, (name, slot) ∉ standardNames) :
    findStream dir s = s.host.openStream name dir >>= storeOpened dir s := by
  rw [findStream, State.valA_word ha, ok_bind, hname, ok_bind, standardSlot_eq_none.2 hstd]
  refine congrArg (s.host.openStream name dir >>= ·) (funext fun answer => ?_)
  obtain ⟨_ | n, host⟩ := answer <;> rfl

end findStream

theorem State.atBuiltin_readString (s : State) (id : Nat) (base : Word) :
    (s.atBuiltin id).readString base = s.readString base := State.readString_mem (s.atBuiltin_mem id) base

section exec_find

variable {i : Instr} {id : Nat} {dir : Dir} {s : State} {x : Word} {name : List Byte} (h : (i, id, dir) ∈ findRows)

include h

theorem needsA_of_find : NeedsA i := fun s ha => by
  rw [exec_find h, findStream_unwritten (s := s.atBuiltin id) ha, finish_error]

theorem exec_find_nameFault (ha : s.a = .word x) {f : Fault} (hname : s.readString x = .error f) :
    exec i s = .fault f := by
  rw [exec_find h, findStream_nameFault (s := s.atBuiltin id) ha ((s.atBuiltin_readString id x).trans hname), finish_error]

theorem exec_find_standard (ha : s.a = .word x) (hname : s.readString x = .ok name) {slot : Word}
    (hstd : (name, slot) ∈ standardNames) : exec i s = .next { s.atBuiltin id with a := .word slot } := by
  rw [exec_find h, findStream_standard (s := s.atBuiltin id) ha ((s.atBuiltin_readString id x).trans hname) hstd]
  rfl

theorem exec_find_open (ha : s.a = .word x) (hname : s.readString x = .ok name)
    (hstd : ∀ slot, (name, slot) ∉ standardNames) :
    exec i s = finish (s.host.openStream name dir >>= storeOpened dir (s.atBuiltin id)) := by
  rw [exec_find h, findStream_open (s := s.atBuiltin id) ha ((s.atBuiltin_readString id x).trans hname) hstd]
  rfl

end exec_find

/-- Settles O39: a standard name is answered from the table of names alone. -/
theorem standardNamesGiveTheirSlots : Obligations.StandardNamesGiveTheirSlots :=
  ⟨fun _ => rfl, fun _ => rfl, needsA_of_find x28_mem_findRows, needsA_of_find x29_mem_findRows, fun _ _ ha =>
    ⟨fun _ hname => ⟨exec_find_nameFault x28_mem_findRows ha hname, exec_find_nameFault x29_mem_findRows ha hname⟩,
      fun _ _ hstd hname => ⟨exec_find_standard x28_mem_findRows ha hname hstd,
        exec_find_standard x29_mem_findRows ha hname hstd⟩⟩⟩

/-! ### Opening (R240) -/

section openStream

variable {h : HostSide} {rest : List OpenAnswer} {name : List Byte} {dir : Dir}

theorem HostSide.openStream_ok (ho : h.opens = .ok :: rest) : h.openStream name dir = .ok (some h.nextHandle,
    { h with
      opens := rest
      nextHandle := h.nextHandle + 1
      calls := h.calls ++ [.openFile name dir (some (.file h.nextHandle))] }) := by
  rw [HostSide.openStream, ho]
  rfl

theorem HostSide.openStream_fail (ho : h.opens = .fail :: rest) : h.openStream name dir =
    .ok (none, { h with opens := rest, calls := h.calls ++ [.openFile name dir none] }) := by
  rw [HostSide.openStream, ho]
  rfl

theorem HostSide.openStream_never (ho : h.opens = .never :: rest) :
    h.openStream name dir = .error .stuckInHostCall := by
  rw [HostSide.openStream, ho]

/-- With no answer listed, an open goes as with the drawn answer listed. -/
theorem HostSide.openStream_drawn (ho : h.opens = []) : h.openStream name dir = HostSide.openStream
    { h with draws := h.draws + 1, opens := [if Config.openDraw h.draws then .ok else .fail] } name dir := by
  obtain ⟨reads, writes, opens, draws, nextHandle, calls, diagnostics⟩ := h
  subst ho
  unfold HostSide.openStream
  cases Config.openDraw draws <;> rfl

end openStream

/-- The host side before the open is no part of what is stored. -/
theorem storeOpened_setHost (dir : Dir) (s : State) (id : Nat) (h : HostSide) :
    storeOpened dir ((s.setHost h).atBuiltin id) = storeOpened dir (s.atBuiltin id) := by
  funext ⟨r, host⟩
  cases r <;> rfl

section storeOpened

variable {s : State} {dir : Dir} {n k : Nat} {host : HostSide}

theorem storeOpened_free (hk : 1 ≤ k) (hf : s.table[k]? = some .free) (hl : ∀ j, 1 ≤ j → j < k → s.table[j]? ≠ some .free) :
    storeOpened dir s (some n, host) =
      .ok { s with a := .word (BitVec.ofNat 16 k), table := s.table.set k (.opened n dir), host := host } := by
  rw [storeOpened, alloc_free hk hf hl]
  rfl

theorem storeOpened_overflow (hf : ∀ k, 1 ≤ k → s.table[k]? ≠ some .free) (hlen : 32767 < s.table.length) :
    storeOpened dir s (some n, host) = .error (.slotOverflow s.table.length) := by
  rw [storeOpened, alloc_new hf, if_pos hlen, error_bind]

theorem storeOpened_new (hf : ∀ k, 1 ≤ k → s.table[k]? ≠ some .free) (hlen : s.table.length ≤ 32767) :
    storeOpened dir s (some n, host) =
      .ok { s with
        a := .word (BitVec.ofNat 16 s.table.length), table := s.table ++ [.opened n dir], host := host } := by
  rw [storeOpened, alloc_new hf, if_neg (Nat.not_lt.2 hlen)]
  rfl

end storeOpened

/-- Settles O40: the host's answer and the free slots of the table decide; with no answer listed, the drawn one is as good as
listed, since the host side is replaced by the open. -/
theorem findOpensIntoTheLeastFreeSlot : Obligations.FindOpensIntoTheLeastFreeSlot := by
  intro i id dir hrow s x name ha hname hstd
  rw [exec_find_open hrow ha hname hstd]
  refine ⟨fun rest ho => ?_, fun rest ho => ?_, fun rest host ho hhost => ⟨fun k hk hf hl => ?_, fun hf =>
    ⟨fun hlen => ?_, fun hlen => ?_⟩⟩, fun ho => ?_⟩
  · rw [HostSide.openStream_never ho, error_bind, finish_error]
  · rw [HostSide.openStream_fail ho, ok_bind]
    rfl
  · rw [HostSide.openStream_ok ho, ok_bind, ← hhost, storeOpened_free (s := s.atBuiltin id) hk hf hl, finish_ok]
    rfl
  · rw [HostSide.openStream_ok ho, ok_bind, storeOpened_overflow (s := s.atBuiltin id) hf hlen, finish_error]
    rfl
  · rw [HostSide.openStream_ok ho, ok_bind, ← hhost, storeOpened_new (s := s.atBuiltin id) hf hlen, finish_ok]
    rfl
  · have hlisted : ∀ h, exec i (s.setHost h) = finish (h.openStream name dir >>= storeOpened dir (s.atBuiltin id)) := by
      intro h
      have hread := (State.readString_mem (s.setHost_mem h) x).trans hname
      rw [exec_find_open (s := s.setHost h) hrow ha hread hstd, storeOpened_setHost, State.setHost_host]
    refine ⟨if Config.openDraw s.host.draws then .ok else .fail, by split <;> simp, ?_⟩
    rw [HostSide.openStream_drawn ho]
    exact (hlisted _).symm

/-! ### Closing (R244, R245, R249) -/

theorem exec_x33 (s : State) : exec .x33 s = finish (performEndread (s.atBuiltin 33)) := exec_builtin (id := 33) rfl s

theorem exec_x34 (s : State) : exec .x34 s = finish (performEndwrite (s.atBuiltin 34)) := exec_builtin (id := 34) rfl s

/-- Settles O41: a close does nothing that can fault once the stream is found. -/
theorem closesFreeTheSelectedSlot : Obligations.ClosesFreeTheSelectedSlot := by
  refine ⟨fun _ => rfl, fun _ => rfl, fun s => ?_⟩
  rw [exec_x33, exec_x34, performEndread, performEndwrite, State.atBuiltin_table, State.atBuiltin_table,
    State.atBuiltin_selectedInput, State.atBuiltin_selectedOutput]
  refine ⟨fun f hs => ?_, fun f hs => ?_, fun h hs => ?_, fun h hs => ?_⟩
  · rw [hs, error_bind, finish_error]
  · rw [hs, error_bind, finish_error]
  · rw [hs, ok_bind]
    rfl
  · rw [hs, ok_bind]
    rfl

/-- A close that goes on leaves a free slot where the selected stream was. -/
theorem table_of_close {closing : Instr} {s t : State} {k : Nat}
    (hk : (closing = .x33 ∧ k = u16 s.selectedInput) ∨ (closing = .x34 ∧ k = u16 s.selectedOutput))
    (h : exec closing s = .next t) : k < s.table.length ∧ t.table = s.table.set k .free := by
  obtain ⟨-, -, hclose⟩ := closesFreeTheSelectedSlot
  obtain ⟨hin_fault, hout_fault, hin, hout⟩ := hclose s
  obtain ⟨rfl, rfl⟩ | ⟨rfl, rfl⟩ := hk
  · cases hs : inStream s.table (u16 s.selectedInput) with
    | error f => rw [hin_fault f hs] at h; cases h
    | ok hd =>
      obtain ⟨slot, hslot, -⟩ := inStream_eq_ok.1 hs
      rw [hin hd hs] at h
      cases h
      exact ⟨(List.getElem?_eq_some_iff.1 hslot).1, rfl⟩
  · cases hs : outStream s.table (u16 s.selectedOutput) with
    | error f => rw [hout_fault f hs] at h; cases h
    | ok hd =>
      obtain ⟨slot, hslot, -⟩ := outStream_eq_ok.1 hs
      rw [hout hd hs] at h
      cases h
      exact ⟨(List.getElem?_eq_some_iff.1 hslot).1, rfl⟩

/-- Settles O42: the closed slot is the least free one of the table, which is where an open puts its stream. -/
theorem closedSlotIsReusedByTheNextOpen : Obligations.ClosedSlotIsReusedByTheNextOpen := by
  intro closing opening dir s t u k x name table hclosing hopening hk hlow hclose hu ha hname hstd htable
  obtain ⟨hlt, ht⟩ := table_of_close hclosing hclose
  have hfree : u.table[k]? = some .free := by rw [hu, ht, List.getElem?_set_self hlt]
  have hlow' : ∀ j, 1 ≤ j → j < k → u.table[j]? ≠ some .free := fun j hj hjk => by
    rw [hu, ht, List.getElem?_set_ne (Nat.ne_of_gt hjk)]
    exact hlow j hj hjk
  obtain ⟨id, hrow⟩ : ∃ id, (opening, id, dir) ∈ findRows := by
    obtain ⟨rfl, rfl⟩ | ⟨rfl, rfl⟩ := hopening
    · exact ⟨28, x28_mem_findRows⟩
    · exact ⟨29, x29_mem_findRows⟩
  have hstore : ∀ host, storeOpened dir (u.atBuiltin id) (some u.host.nextHandle, host) =
      .ok { u.atBuiltin id with a := .word (BitVec.ofNat 16 k), table := table, host := host } := fun host => by
    rw [storeOpened_free (s := u.atBuiltin id) hk hfree hlow', htable]
    rfl
  rw [exec_find_open hrow ha hname hstd]
  refine ⟨fun v hv => ?_, fun rest ho => ?_⟩
  · rw [finish_eq_next, bind_eq_ok] at hv
    obtain ⟨⟨r, host⟩, hopen, hv⟩ := hv
    obtain ⟨rfl, -⟩ | ⟨rfl, -⟩ := HostSide.openStream_eq_ok hopen
    · cases hv
      exact .inl ⟨rfl, rfl⟩
    · rw [hstore] at hv
      cases hv
      exact .inr ⟨rfl, rfl⟩
  · rw [HostSide.openStream_ok ho, ok_bind, hstore]
    exact ⟨_, rfl, rfl, rfl⟩

end Sys2Proof.Machine
end

section
/-! The store as data (20_memory.md R50, R58, R60): the canonical form is determined by what is read. -/

namespace Sys2Proof.Machine

/-- Settles O54: the laws of reading after writing, over a store in canonical form. -/
theorem readGivesTheLastWrite : Obligations.ReadGivesTheLastWrite :=
  fun _ a w hm ha => ⟨Memory.write_wf hm (Nat.lt_succ_of_le ha) w, Memory.read_write_same hm a w,
    fun _ hb => Memory.read_write_other hm w hb⟩

/-- The two stores read the same word at every address of the store. -/
def Memory.Alike (m m' : Memory) : Prop := ∀ a, a ≤ 32766 → m.read a = m'.read a

section canonical

variable {lo lo' : Option Nat} {m m' : Memory} {a b : Nat} {v w : Word}

theorem Memory.read_head : Memory.read ((a, v) :: m) a = v := if_pos rfl

/-- Below its first listed address a canonical store reads what reset leaves. -/
theorem Memory.CanonAbove.read_below_head (h : Memory.CanonAbove lo ((b, w) :: m)) (hab : a < b) :
    Memory.read ((b, w) :: m) a = resetWord a := by
  obtain ⟨-, hb, hw, hm⟩ := h
  have habove : Memory.CanonAbove (some a) ((b, w) :: m) := ⟨fun _ hl => Option.some.inj hl ▸ hab, hb, hw, hm⟩
  exact Memory.read_of_canonAbove habove (le_refl a)

/-- A store that lists a cell reads there what an unlisted address does not. -/
theorem Memory.CanonAbove.not_alike_nil (h : Memory.CanonAbove lo ((a, v) :: m)) : ¬ Memory.Alike ((a, v) :: m) [] := by
  obtain ⟨-, ha, hv, -⟩ := h
  exact fun halike => hv (Memory.read_head.symm.trans (halike a (Nat.le_of_lt_succ ha)))

theorem Memory.Alike.head_le (halike : Memory.Alike ((a, v) :: m) ((b, w) :: m'))
    (h : Memory.CanonAbove lo ((a, v) :: m)) (h' : Memory.CanonAbove lo' ((b, w) :: m')) : b ≤ a := by
  obtain ⟨-, ha, hv, -⟩ := h
  by_contra hab
  exact hv (Memory.read_head.symm.trans
    ((halike a (Nat.le_of_lt_succ ha)).trans (h'.read_below_head (Nat.lt_of_not_le hab))))

theorem Memory.Alike.tail (halike : Memory.Alike ((a, v) :: m) ((a, v) :: m')) (h : Memory.CanonAbove (some a) m)
    (h' : Memory.CanonAbove (some a) m') : Memory.Alike m m' := by
  intro c hc
  by_cases hca : c = a
  · rw [Memory.read_of_canonAbove h (le_of_eq hca), Memory.read_of_canonAbove h' (le_of_eq hca)]
  · simpa only [Memory.read, hca, if_false] using halike c hc

end canonical

theorem Memory.CanonAbove.eq_of_alike {m m' : Memory} {lo : Option Nat} (h : Memory.CanonAbove lo m)
    (h' : Memory.CanonAbove lo m') (halike : Memory.Alike m m') : m = m' := by
  induction m generalizing m' lo with
  | nil =>
    cases m' with
    | nil => rfl
    | cons cell' m' => exact absurd (fun a ha => (halike a ha).symm) h'.not_alike_nil
  | cons cell m ih =>
    obtain ⟨a, v⟩ := cell
    cases m' with
    | nil => exact absurd halike h.not_alike_nil
    | cons cell' m' =>
      obtain ⟨b, w⟩ := cell'
      obtain rfl : a = b := Nat.le_antisymm (Memory.Alike.head_le (fun c hc => (halike c hc).symm) h' h) (halike.head_le h h')
      obtain ⟨-, ha, -, hm⟩ := h
      obtain ⟨-, -, -, hm'⟩ := h'
      have hvw := halike a (Nat.le_of_lt_succ ha)
      rw [Memory.read_head, Memory.read_head] at hvw
      subst hvw
      rw [ih hm hm' (halike.tail hm hm')]

/-- Settles O55: the first listed address and its word are determined by the reads, and so is the rest. -/
theorem canonicalStoresThatReadAlikeAreEqual : Obligations.CanonicalStoresThatReadAlikeAreEqual :=
  fun _ _ hm hm' halike => ((Memory.wf_iff _).1 hm).eq_of_alike ((Memory.wf_iff _).1 hm') halike

end Sys2Proof.Machine
end

section
/-! The bootstrap and the launch (40_encoder.md R125 to R127, 70_reset_and_hazards.md R280): what an assembly holds before the
user text, and the state a launch gives. -/

namespace Sys2Proof.Machine

/-! ### The bootstrap -/

/-- Filling global slots that lie in the store writes the panic handler's address into them and nothing else (R126). -/
theorem Asm.fillGlobals_in {st : Asm} {n i : Nat} (hm : st.mem.wf = true) (h : u16 st.g + i + n ≤ 32767) :
    ∃ m : Memory, st.fillGlobals i n = .ok { st with mem := m } ∧ m.wf = true ∧
      ∀ a, m.read a = if u16 st.g + i ≤ a ∧ a < u16 st.g + i + n then panicHandler else st.mem.read a := by
  induction n generalizing st i with
  | zero => exact ⟨st.mem, rfl, hm, fun a => (if_neg (by omega)).symm⟩
  | succ n ih =>
    have haddr : u16 (st.g + BitVec.ofNat 16 i) = u16 st.g + i := by
      rw [u16_add_ofNat]
      omega
    have hin : u16 st.g + i < Config.storeWords := by
      unfold Config.storeWords
      omega
    have hnext : u16 (st.poke (u16 st.g + i) panicHandler).g + (i + 1) + n ≤ 32767 := by
      simp only [Asm.poke]
      omega
    obtain ⟨m, hfill, hwf, hread⟩ := ih (Memory.write_wf hm hin panicHandler) hnext
    refine ⟨m, ?_, hwf, fun a => ?_⟩
    · simp only [Asm.fillGlobals, haddr, hin, if_true]
      exact hfill
    · rw [hread a]
      simp only [Asm.poke, Memory.read_write hm]
      by_cases ha : a = u16 st.g + i
      · rw [if_neg (by omega), if_pos ha, if_pos (by omega)]
      · rw [if_neg ha]
        exact if_congr (by omega) rfl rfl

/-- What the store reads after the bootstrap, in the global slots, in its own words and in the words of the draw (R125,
R126). -/
def bootstrapRead (g : Word) (drawn : Memory) (a : Nat) : Word :=
  if u16 g ≤ a ∧ a < u16 g + 512 then panicHandler
  else if 512 ≤ a ∧ a < 529 then bootstrapImage.getD (a - 512) 0#16
  else drawn.read a

/-- With the global slots in the store the bootstrap does not fail. -/
theorem Asm.bootstrap_in {g : Word} {drawn : Memory} (text : List Byte) (hd : drawn.wf = true) (hg : u16 g + 511 ≤ 32766) :
    ∃ st, (Asm.start g drawn text).bootstrap = .ok st ∧ st.p = 529 ∧ st.text = text ∧ st.diagnostics = [] ∧
      st.mem.wf = true ∧ ∀ a, st.mem.read a = bootstrapRead g drawn a := by
  obtain ⟨st, hemit, hp, hwf, htext, hgst, -, hdiag, hword, hframe⟩ :=
    Asm.emitAll_in (st := Asm.start g drawn text) bootstrapImage hd
      (show 512 + 17 ≤ 32767 by decide)
  have hgst : st.g = g := hgst
  obtain ⟨m, hfill, hmwf, hread⟩ := Asm.fillGlobals_in (st := st) (n := Config.globalSlots) (i := 0) hwf
    (by rw [hgst]; simp only [Config.globalSlots]; omega)
  refine ⟨{ st with mem := m }, ?_, hp, htext, hdiag, hmwf, fun a => ?_⟩
  · rw [Asm.bootstrap, hemit, ok_bind, hfill]
  · have hlen : bootstrapImage.length = 17 := rfl
    simp only [hread, bootstrapRead, hgst, Nat.add_zero, Config.globalSlots]
    split_ifs with hslot himage
    · rfl
    · obtain ⟨k, rfl⟩ := Nat.exists_eq_add_of_le himage.1
      rw [Nat.add_sub_cancel_left]
      exact hword k (by omega)
    · exact hframe a (by simp only [Asm.start, Config.codeOrigin]; omega)

/-- The assembly of the empty text is the bootstrap. -/
theorem assemble_nil (g : Word) (drawn : Memory) : assemble g drawn [] = (Asm.start g drawn []).bootstrap := by
  unfold assemble
  cases (Asm.start g drawn []).bootstrap <;> rfl

/-! ### The launch -/

theorem Launch.start_of_ok {l : Launch} {st : Asm} (h : assemble l.gBase l.drawn l.text = .ok st) :
    l.start = .next (l.resetFrom st) := by
  unfold Launch.start
  rw [h]

theorem Launch.start_of_error {l : Launch} {stop : AsmStop} (h : assemble l.gBase l.drawn l.text = .error stop) :
    l.start = .refused (.assemblyFailed stop.reason stop.sent) := by
  unfold Launch.start
  rw [h]

theorem Launch.start_eq_next {l : Launch} {t : State} (h : l.start = .next t) :
    ∃ st, assemble l.gBase l.drawn l.text = .ok st ∧ t = l.resetFrom st := by
  cases hasm : assemble l.gBase l.drawn l.text with
  | ok st =>
    rw [Launch.start_of_ok hasm] at h
    exact ⟨st, rfl, (Host.Outcome.next.inj h).symm⟩
  | error stop =>
    rw [Launch.start_of_error hasm] at h
    cases h

/-- Settles O57: the assembler keeps the store canonical and `P` in range, and reset makes no host call. -/
theorem launchedStatesMeetTheInvariant : Obligations.LaunchedStatesMeetTheInvariant := by
  intro l t hd hcalls h
  obtain ⟨st, hasm, rfl⟩ := Launch.start_eq_next h
  obtain ⟨hwf, hlow, hhigh⟩ := assemble_ok hd hasm
  have hp : u16 (l.resetFrom st).p = st.p := by
    simp only [Launch.resetFrom, u16_eq, BitVec.toNat_ofNat]
    omega
  exact ⟨.of_resetTable hwf rfl hcalls, by omega, by omega, List.prefix_append _ _, rfl⟩

theorem resetWord_of_lt {a : Nat} (h : a < 512) : resetWord a = panicHandler := if_pos h

theorem resetWord_of_ge {a : Nat} (h : ¬ a < 512) : resetWord a = bootstrapImage.getD (a - 512) 0#16 := if_neg h

/-- Over the draw of reset the bootstrap's words and the filled slots of `G_BASE` 0 are what reset leaves. -/
theorem bootstrapRead_nil (a : Nat) : bootstrapRead 0#16 [] a = resetWord a := by
  by_cases hslot : a < 512
  · rw [bootstrapRead, if_pos ⟨Nat.zero_le a, by simpa using hslot⟩, resetWord_of_lt hslot]
  · rw [bootstrapRead, if_neg (fun h => hslot (by simpa using h)), resetWord_of_ge hslot]
    split
    · rfl
    · exact resetWord_of_ge hslot

/-- A launch of the empty text, whose parameters are all free but `G_BASE`. -/
theorem Launch.start_empty {l : Launch} (htext : l.text = []) (hg : l.gBase = 0#16) (hd : l.drawn.wf = true) :
    ∃ t, l.start = .next t ∧
      t = { State.reset with
        mem := t.mem
        host := l.host
        shrKind := l.shrKind
        selectedInput := l.initSelectedInput
        selectedOutput := l.initSelectedOutput } ∧
      t.mem.wf = true ∧ ∀ a, t.mem.read a = bootstrapRead 0#16 l.drawn a := by
  obtain ⟨st, hboot, hp, -, hdiag, hwf, hread⟩ := Asm.bootstrap_in [] hd (g := 0#16) (by decide)
  refine ⟨l.resetFrom st, Launch.start_of_ok ?_, ?_, hwf, hread⟩
  · rw [htext, hg, assemble_nil, hboot]
  · simp only [Launch.resetFrom, hp, hg, hdiag, List.append_nil]
    rfl

/-- Settles O56: the default launch's store reads as reset's, so by O55 it is reset's; the words of any launch are those the
bootstrap leaves. -/
theorem emptyTextLaunchHoldsTheBootstrap : Obligations.EmptyTextLaunchHoldsTheBootstrap := by
  refine ⟨?_, fun drawn host kind inp out hd => ?_⟩
  · obtain ⟨t, hstart, ht, hwf, hread⟩ := Launch.start_empty (l := {}) rfl rfl rfl
    have hmem : t.mem = State.reset.mem :=
      canonicalStoresThatReadAlikeAreEqual t.mem [] hwf rfl fun a _ => (hread a).trans (bootstrapRead_nil a)
    rw [hstart, ht, hmem]
    rfl
  · obtain ⟨t, hstart, ht, -, hread⟩ := Launch.start_empty
      (l := { drawn := drawn, host := host, shrKind := kind, initSelectedInput := inp, initSelectedOutput := out })
      rfl rfl hd
    refine ⟨t, hstart, ht, fun a ha => ?_, fun k hk => ?_, fun a ha => ?_⟩
    · rw [hread, bootstrapRead, if_pos (by simpa using ha)]
      rfl
    · rw [hread, bootstrapRead, if_neg (by simp), if_pos (by omega), Nat.add_sub_cancel_left]
      rfl
    · rw [hread, bootstrapRead, if_neg (by simp; omega), if_neg (by omega)]

end Sys2Proof.Machine
end

section
/-! References to a label before and after its definition (40_encoder.md R104 to R107): the chain of cells that refer to a
label, and the walk that patches them. -/

namespace Sys2Proof.Machine

/-! ### Chains (R104, R105) -/

/-- From `k` on the store chains the cells: each holds the address of the next, and the last one 0. -/
def Chained (m : Memory) : List Nat → Nat → Prop
  | [], k => k = 0
  | a :: cells, k => k = a ∧ Chained m cells (u16 (m.read a))

theorem Chained.congr {m m' : Memory} {cells : List Nat} {k : Nat} (h : Chained m cells k)
    (hread : ∀ a ∈ cells, m'.read a = m.read a) : Chained m' cells k := by
  induction cells generalizing k with
  | nil => exact h
  | cons a cells ih =>
    obtain ⟨hk, htail⟩ := h
    refine ⟨hk, ?_⟩
    rw [hread a (List.mem_cons_self ..)]
    exact ih htail fun b hb => hread b (List.mem_cons_of_mem _ hb)

/-- A chain starts at a cell, or it is empty and starts at 0. -/
theorem Chained.start_le {m : Memory} {cells : List Nat} {k : Nat} (h : Chained m cells k)
    (hin : ∀ a ∈ cells, 0 < a ∧ a ≤ 32766) : k ≤ 32766 := by
  cases cells with
  | nil =>
    obtain rfl : k = 0 := h
    exact Nat.zero_le _
  | cons a cells =>
    obtain ⟨rfl, -⟩ := h
    exact (hin k (List.mem_cons_self ..)).2

/-- The walk along a chain of distinct cells patches these cells and nothing else (R106). -/
theorem patchChain_in (n : Int) (here : Word) {cells : List Nat} {left k : Nat} {m : Memory} (hm : m.wf = true)
    (hchain : Chained m cells k) (hnodup : cells.Nodup) (hin : ∀ a ∈ cells, 0 < a ∧ a ≤ 32766) (hleft : cells.length ≤ left) :
    ∃ m', patchChain n here left k m = .ok m' ∧ m'.wf = true ∧
      ∀ a, m'.read a = if a ∈ cells then here else m.read a := by
  induction cells generalizing left k m with
  | nil =>
    obtain rfl : k = 0 := hchain
    refine ⟨m, ?_, hm, by simp⟩
    unfold patchChain
    exact if_pos rfl
  | cons c cells ih =>
    obtain ⟨rfl, htail⟩ := hchain
    obtain ⟨hnotin, hnodup⟩ := List.nodup_cons.1 hnodup
    obtain ⟨hpos, hmax⟩ := hin k (List.mem_cons_self ..)
    obtain ⟨left, rfl⟩ : ∃ l, left = l + 1 := ⟨left - 1, by simp only [List.length_cons] at hleft; omega⟩
    have hwf : (m.write k here).wf = true := Memory.write_wf hm (Nat.lt_succ_of_le hmax) here
    have hchain : Chained (m.write k here) cells (u16 (m.read k)) :=
      htail.congr fun a ha => Memory.read_write_other hm here fun hak => hnotin (hak ▸ ha)
    obtain ⟨m', hpatch, hwf', hread⟩ := ih hwf hchain hnodup (fun a ha => hin a (List.mem_cons_of_mem _ ha))
      (Nat.le_of_succ_le_succ hleft)
    refine ⟨m', ?_, hwf', fun a => ?_⟩
    · have hstore : ¬ Config.storeWords ≤ k := Nat.not_le.2 (Nat.lt_succ_of_le hmax)
      unfold patchChain
      rw [if_neg (Nat.ne_of_gt hpos), if_neg hstore]
      exact hpatch
    · rw [hread a, Memory.read_write hm]
      by_cases hak : a = k
      · simp [hak]
      · simp [hak]

/-! ### Referring to a label and defining it -/

/-- Label `n` is not defined, and the cells that refer to it, latest first, are `cells`. -/
structure Asm.ReferredFrom (st : Asm) (n : Nat) (cells : List Nat) : Prop where
  memory : st.mem.wf = true
  size : st.labels.length = 512
  chained : ∃ k : Nat, st.label n = k ∧ Chained st.mem cells k
  distinct : cells.Nodup
  inStore : ∀ a ∈ cells, 0 < a ∧ a ≤ 32766

section labels

variable {st : Asm} {n : Nat} {cells : List Nat} (hn : n < 512)

include hn

theorem labelIndex_natCast : labelIndex n = .ok n := by
  have hrange : (0 : Int) ≤ n ∧ (n : Int) < Config.labels := by
    unfold Config.labels
    omega
  rw [labelIndex, if_pos hrange, Int.toNat_natCast]

theorem Asm.label_set_self (hsize : st.labels.length = 512) (v : Int) (m : Memory) (half : Bool)
    (ds : List Diagnostic) :
    Asm.label { st with labels := st.labels.set n v, mem := m, halfFull := half, diagnostics := ds } n = v := by
  simp only [Asm.label, List.getD_eq_getElem?_getD, List.getElem?_set_self (hsize ▸ hn), Option.getD_some]

/-- A reference to a label not yet defined makes its cell the head of the chain (R105). -/
theorem Asm.ReferredFrom.refLabel (h : st.ReferredFrom n cells) {a : Nat} (ha : 0 < a ∧ a ≤ 32766) (hnew : a ∉ cells) :
    ∃ st', st.refLabel n a = .ok st' ∧ st'.ReferredFrom n (a :: cells) ∧ st'.p = st.p ∧
      ∀ b, b ≠ a → st'.mem.read b = st.mem.read b := by
  obtain ⟨hm, hsize, ⟨k, hk, hchain⟩, hdistinct, hin⟩ := h
  have hword : u16 (w16 (k : Int)) = k := by
    have := hchain.start_le hin
    rw [w16_natCast, u16_eq, BitVec.toNat_ofNat]
    omega
  have hother : ∀ b, b ≠ a → (st.mem.write a (w16 k)).read b = st.mem.read b :=
    fun b hb => Memory.read_write_other hm _ hb
  refine ⟨{ st.poke a (w16 k) with labels := st.labels.set n a }, ?_, ?_, rfl, hother⟩
  · simp only [Asm.refLabel, labelIndex_natCast hn, Asm.orStop_ok, ok_bind, hk, pure_eq_ok]
    exact if_neg (by omega)
  · refine ⟨Memory.write_wf hm (Nat.lt_succ_of_le ha.2) _, (List.length_set ..).trans hsize,
      ⟨a, Asm.label_set_self hn hsize a _ _ _, rfl, ?_⟩, List.nodup_cons.2 ⟨hnew, hdistinct⟩,
      List.forall_mem_cons.2 ⟨ha, hin⟩⟩
    rw [show (st.poke a (w16 k)).mem = st.mem.write a (w16 k) from rfl, Memory.read_write_same hm, hword]
    exact hchain.congr fun b hb => hother b fun hba => hnew (hba ▸ hb)

/-- References from distinct new cells lengthen the chain by these cells. -/
theorem Asm.ReferredFrom.refLabels (h : st.ReferredFrom n cells) {early : List Nat} (hnodup : early.Nodup)
    (hin : ∀ a ∈ early, 0 < a ∧ a ≤ 32766) (hnew : ∀ a ∈ early, a ∉ cells) :
    ∃ st', early.foldlM (fun (u : Asm) a => u.refLabel n a) st = .ok st' ∧
      st'.ReferredFrom n (early.reverse ++ cells) ∧ st'.p = st.p ∧
      ∀ b, b ∉ early → st'.mem.read b = st.mem.read b := by
  induction early generalizing st cells with
  | nil => exact ⟨st, rfl, h, rfl, fun _ _ => rfl⟩
  | cons a early ih =>
    obtain ⟨hnotin, hnodup⟩ := List.nodup_cons.1 hnodup
    obtain ⟨ha, hin⟩ := List.forall_mem_cons.1 hin
    obtain ⟨hanew, hnew⟩ := List.forall_mem_cons.1 hnew
    obtain ⟨st1, href, h1, hp1, hread1⟩ := h.refLabel hn ha hanew
    obtain ⟨st2, hrefs, h2, hp2, hread2⟩ := ih h1 hnodup hin fun b hb hmem => by
      obtain rfl | hmem := List.mem_cons.1 hmem
      · exact hnotin hb
      · exact hnew b hb hmem
    refine ⟨st2, ?_, ?_, hp2.trans hp1, fun b hb => ?_⟩
    · rw [List.foldlM_cons, href, ok_bind, hrefs]
    · rwa [List.reverse_cons, List.append_assoc, List.singleton_append]
    · rw [List.mem_cons, not_or] at hb
      rw [hread2 b hb.2, hread1 b hb.1]

/-- The definition of a label at `P` leaves `P` in every cell that refers to it (R106). -/
theorem Asm.ReferredFrom.setLabel (h : st.ReferredFrom n cells) :
    ∃ st', st.setLabel n = .ok st' ∧ st'.label n = -(st.p : Int) ∧ st'.p = st.p ∧ st'.mem.wf = true ∧
      ∀ a, st'.mem.read a = if a ∈ cells then w16 st.p else st.mem.read a := by
  obtain ⟨hm, hsize, ⟨k, hk, hchain⟩, hdistinct, hin⟩ := h
  have hshort : cells.length ≤ 32767 := by
    have hsub : cells ⊆ List.range 32767 := fun a ha => List.mem_range.2 (Nat.lt_succ_of_le (hin a ha).2)
    simpa using (hdistinct.subperm hsub).length_le
  obtain ⟨m, hpatch, hwf, hread⟩ := patchChain_in n (w16 st.p) hm hchain hdistinct hin hshort
  refine ⟨{ st with mem := m, labels := st.labels.set n (-(st.p : Int)), halfFull := false }, ?_,
    Asm.label_set_self hn hsize _ _ _ _, rfl, hwf, hread⟩
  have hundefined : ¬ (k : Int) < 0 := by omega
  simp only [Asm.setLabel, labelIndex_natCast hn, Asm.orStop_ok, ok_bind, hk, hundefined, if_false, Int.toNat_natCast,
    hpatch, pure_eq_ok]

/-- A reference to a label defined at a positive address writes that address (R105). -/
theorem Asm.refLabel_defined {here : Nat} (hlabel : st.label n = -(here : Int)) (hpos : 0 < here) (a : Nat) :
    st.refLabel n a = .ok (st.poke a (w16 here)) := by
  have hdefined : -(here : Int) < 0 := by omega
  simp only [Asm.refLabel, labelIndex_natCast hn, Asm.orStop_ok, ok_bind, hlabel, hdefined, if_true, neg_neg, pure_eq_ok]

end labels

/-- Settles O58: the early cells form the chain, the definition patches it, and the late reference finds the label defined. -/
theorem labelReferencesResolveInAnyOrder : Obligations.LabelReferencesResolveInAnyOrder := by
  intro st n early late hn hsize hlabel hm hpos hp hnodup hin hlate
  have h : st.ReferredFrom n [] := ⟨hm, hsize, ⟨0, hlabel, rfl⟩, .nil, nofun⟩
  obtain ⟨st1, hrefs, h1, hp1, hread1⟩ := h.refLabels hn hnodup hin fun _ _ => List.not_mem_nil
  obtain ⟨st2, hset, hlabel2, hp2, hwf2, hread2⟩ := h1.setLabel hn
  have href := Asm.refLabel_defined hn hlabel2 (hp1 ▸ hpos) late
  have hread : ∀ a, (st2.poke late (w16 st1.p)).mem.read a =
      if a ∈ late :: early then BitVec.ofNat 16 st.p else st.mem.read a := fun a => by
    rw [Asm.poke, Memory.read_write hwf2, hread2, hp1, w16_natCast]
    by_cases hal : a = late
    · simp [hal]
    · by_cases hae : a ∈ early
      · simp [hal, hae]
      · simp [hal, hae, hread1 a hae]
  exact ⟨st1, st2, st2.poke late (w16 st1.p), hrefs, hset, href, fun a ha => (hread a).trans (if_pos ha),
    fun a ha => (hread a).trans (if_neg ha), hp2.trans hp1⟩

end Sys2Proof.Machine
end

section
/-! Assembling an instruction (40_encoder.md R110, R111; 30_encoding.md R80): the flag letters, the numeral and the form its
value chooses. -/

namespace Sys2Proof.Machine

/-! ### Reading (R103, R110) -/

theorem isDigit_eq {ch : Byte} : isDigit ch = true ↔ 48 ≤ ch.toNat ∧ ch.toNat ≤ 57 := by
  rw [isDigit, Bool.and_eq_true, decide_eq_true_iff, decide_eq_true_iff]

/-- No letter and no sign is a digit. -/
theorem ne_ascii_of_isDigit {ch : Byte} (h : isDigit ch = true) {letter : Char} (hletter : isDigit (ascii letter) = false) :
    ch ≠ ascii letter := by
  rintro rfl
  rw [h] at hletter
  cases hletter

theorem readFlag_set (letter : Char) (mask w : Word) (tail : List Byte) :
    readFlag letter mask w (ascii letter :: tail) = (w ||| mask, tail) := if_pos rfl

theorem readFlag_clear {letter : Char} {tail : List Byte} (h : tail.head? ≠ some (ascii letter)) (mask w : Word) :
    readFlag letter mask w tail = (w, tail) := by
  cases tail with
  | nil => rfl
  | cons ch tail => exact if_neg fun heq => h (congrArg some heq)

/-- The flag letter `letter`, if it is chosen. -/
def flagText (set : Bool) (letter : Char) : List Byte := if set then [ascii letter] else []

/-- A chosen flag letter sets its bit; one not chosen leaves the word and the text (R110). -/
theorem readFlag_flagText (set : Bool) {letter : Char} (mask w : Word) {tail : List Byte}
    (h : tail.head? ≠ some (ascii letter)) :
    readFlag letter mask w (flagText set letter ++ tail) = (w ||| flagBit set mask, tail) := by
  cases set with
  | true => exact readFlag_set letter mask w tail
  | false => exact (readFlag_clear h mask w).trans (by simp [flagBit])

/-- Text that starts with a chosen flag letter or else with `tail` starts with no letter that both differ from. -/
theorem head?_flagText (set : Bool) {letter other : Char} {tail : List Byte} (hne : ascii letter ≠ ascii other)
    (h : tail.head? ≠ some (ascii other)) : (flagText set letter ++ tail).head? ≠ some (ascii other) := by
  cases set with
  | true => exact fun heq => hne (Option.some.inj heq)
  | false => exact h

theorem readDigits_append {digits rest : List Byte} (hdigits : ∀ ch ∈ digits, isDigit ch = true)
    (hrest : ∀ ch, rest.head? = some ch → isDigit ch = false) (n : Nat) :
    readDigits n (digits ++ rest) = (digits.foldl (fun acc ch => 10 * acc + (ch.toNat - 48)) n, rest) := by
  induction digits generalizing n with
  | nil =>
    cases rest with
    | nil => rfl
    | cons ch rest =>
      have hch := hrest ch rfl
      simp only [List.nil_append, readDigits, hch, Bool.false_eq_true, if_false, List.foldl_nil]
  | cons d digits ih =>
    obtain ⟨hd, hdigits⟩ := List.forall_mem_cons.1 hdigits
    simp only [List.cons_append, readDigits, hd, if_true, ih hdigits, List.foldl_cons]

/-- The value of a decimal numeral (R103). -/
def decimalValue (digits : List Byte) : Nat := digits.foldl (fun acc ch => 10 * acc + (ch.toNat - 48)) 0

section digits

variable {digits rest : List Byte} (hne : digits ≠ []) (hdigits : ∀ ch ∈ digits, isDigit ch = true)

include hne hdigits

theorem head?_digits {letter : Char} (hletter : isDigit (ascii letter) = false) :
    (digits ++ rest).head? ≠ some (ascii letter) := by
  obtain ⟨d, digits, rfl⟩ := List.exists_cons_of_ne_nil hne
  obtain ⟨hd, -⟩ := List.forall_mem_cons.1 hdigits
  exact fun heq => ne_ascii_of_isDigit hd hletter (Option.some.inj heq)

theorem afterL_digits : afterL (digits ++ rest) = none := by
  obtain ⟨d, digits, rfl⟩ := List.exists_cons_of_ne_nil hne
  obtain ⟨hd, -⟩ := List.forall_mem_cons.1 hdigits
  exact if_neg (ne_ascii_of_isDigit hd (by decide))

theorem readNumeral_digits (hrest : ∀ ch, rest.head? = some ch → isDigit ch = false) :
    readNumeral (digits ++ rest) = ((decimalValue digits : Int), rest) := by
  have hread := readDigits_append hdigits hrest 0
  obtain ⟨d, digits, rfl⟩ := List.exists_cons_of_ne_nil hne
  obtain ⟨hd, -⟩ := List.forall_mem_cons.1 hdigits
  rw [List.cons_append] at hread ⊢
  rw [readNumeral, if_neg (ne_ascii_of_isDigit hd (by decide)), hread, decimalValue]

end digits

/-! ### The form (R111) -/

/-- A number is its own low nine bits exactly when it is below 512. -/
theorem and_mask_eq_self_iff {v : Nat} (hv : v < 65536) : BitVec.ofNat 16 v &&& 0x01FF#16 = BitVec.ofNat 16 v ↔ v < 512 := by
  rw [← BitVec.toNat_inj, BitVec.toNat_and, BitVec.toNat_ofNat, Nat.mod_eq_of_lt hv,
    show (0x01FF#16).toNat = 2 ^ 9 - 1 from rfl, Nat.and_two_pow_sub_one_eq_mod]
  omega

section form

variable {st : Asm} {text after : List Byte} {v : Nat} (w : Word) (hl : afterL text = none)
  (hn : readNumeral text = ((v : Int), after)) (hv : v < 65536)

include hl hn hv

theorem Asm.operand_short (hshort : v < 512) (hp : st.p + 1 ≤ 32767) : st.operand w text =
    .ok { st with
      text := after, mem := st.mem.write st.p (w ||| BitVec.ofNat 16 v), p := st.p + 1, halfFull := false } := by
  unfold Asm.operand
  simp only [hl, hn, w16_natCast]
  rw [if_pos ((and_mask_eq_self_iff hv).2 hshort), Asm.emit_in (st := st.goOn after) _ hp]
  rfl

theorem Asm.operand_long (hlong : 512 ≤ v) (hp : st.p + 2 ≤ 32767) : st.operand w text =
    .ok { st with
      text := after
      mem := (st.mem.write st.p (w ||| 0x0200#16)).write (st.p + 1) (BitVec.ofNat 16 v)
      p := st.p + 2
      halfFull := false } := by
  unfold Asm.operand
  simp only [hl, hn, w16_natCast]
  rw [if_neg fun h => Nat.not_lt.2 hlong ((and_mask_eq_self_iff hv).1 h),
    Asm.emit_in (st := st.goOn after) _ (Nat.lt_of_succ_lt hp), ok_bind]
  exact Asm.emit_in _ hp

end form

/-- The flag letters, in their order, give the header of the instruction word (R110). -/
theorem Asm.instruction_flags (st : Asm) (opcode : Nat) (i p g : Bool) {text : List Byte}
    (hI : text.head? ≠ some (ascii 'I')) (hP : text.head? ≠ some (ascii 'P')) (hG : text.head? ≠ some (ascii 'G')) :
    st.instruction opcode (flagText i 'I' ++ (flagText p 'P' ++ (flagText g 'G' ++ text))) =
      st.operand (headerWord opcode i p g) text := by
  have hP' := head?_flagText g (letter := 'G') (by decide) hP
  have hI' := head?_flagText p (letter := 'P') (by decide) (head?_flagText g (letter := 'G') (by decide) hI)
  simp only [Asm.instruction, readFlag_flagText i _ _ hI', readFlag_flagText p _ _ hP', readFlag_flagText g _ _ hG]
  rfl

/-- Settles O60: flags, numeral and form, each as its lemma says; the emitted words are the encoder's by definition, but that
the encoder holds a short literal in nine bits. -/
theorem assembledInstructionsAreEncoded : Obligations.AssembledInstructionsAreEncoded := by
  intro st opcode i p g digits rest v _ hm hv hfit hne hdigits hrest hvalue
  have hflags := st.instruction_flags opcode i p g (head?_digits (rest := rest) hne hdigits (by decide))
    (head?_digits hne hdigits (by decide)) (head?_digits hne hdigits (by decide))
  have hl := afterL_digits (rest := rest) hne hdigits
  have hn := readNumeral_digits hne hdigits hrest
  rw [show decimalValue digits = v from hvalue.symm] at hn
  simp only [List.append_assoc]
  by_cases hshort : v < 512
  · rw [if_pos hshort] at hfit
    have hlit : (BitVec.ofNat 9 v).setWidth 16 = BitVec.ofNat 16 v :=
      BitVec.setWidth_ofNat_of_le_of_lt (by decide) hshort
    refine ⟨_, hflags.trans (Asm.operand_short _ hl hn hv hshort hfit), rfl, fun _ => ⟨rfl, ?_⟩,
      fun hlong => absurd hshort (Nat.not_lt.2 hlong), fun a ha => ?_⟩
    · rw [encodeOperand_short, hlit, Memory.read_write_same hm]
    · exact Memory.read_write_other hm _ (by simp only at ha; omega)
  · rw [if_neg hshort] at hfit
    have hwf := Memory.write_wf hm (a := st.p) (Nat.lt_of_succ_lt hfit) (headerWord opcode i p g ||| 0x0200#16)
    refine ⟨_, hflags.trans (Asm.operand_long _ hl hn hv (Nat.le_of_not_lt hshort) hfit), rfl,
      fun h => absurd h hshort, fun _ => ⟨rfl, ?_⟩, fun a ha => ?_⟩
    · rw [encodeOperand_long, Memory.read_write_other hwf _ (by omega), Memory.read_write_same hm,
        Memory.read_write_same hwf]
    · simp only at ha
      exact (Memory.read_write_other hwf _ (by omega)).trans (Memory.read_write_other hm _ (by omega))

end Sys2Proof.Machine
end

section
/-! Assembling a whole text (40_encoder.md R108, R117 to R119, 60_exceptions.md R266): every token shortens the text, and what
a text that begins with bad characters has sent. -/

namespace Sys2Proof.Machine

/-! ### Reading shortens the text -/

theorem readDigits_length_le (n : Nat) (text : List Byte) : (readDigits n text).2.length ≤ text.length := by
  induction text generalizing n with
  | nil => exact le_refl _
  | cons ch rest ih =>
    unfold readDigits
    split
    · exact Nat.le_succ_of_le (ih _)
    · exact le_refl _

theorem readNumeral_length_le (text : List Byte) : (readNumeral text).2.length ≤ text.length := by
  cases text with
  | nil => exact le_refl _
  | cons ch rest =>
    simp only [readNumeral]
    split
    · exact Nat.le_succ_of_le (readDigits_length_le 0 rest)
    · exact readDigits_length_le 0 (ch :: rest)

/-- A numeral that starts with a digit or a sign reads at least that character. -/
theorem readNumeral_cons_length_le {ch : Byte} (h : isDigit ch = true ∨ ch = ascii '-') (rest : List Byte) :
    (readNumeral (ch :: rest)).2.length ≤ rest.length := by
  simp only [readNumeral]
  split
  · exact readDigits_length_le 0 rest
  · rename_i hsign
    have hdigit : isDigit ch = true := h.resolve_right hsign
    simp only [readDigits, hdigit, if_true]
    exact readDigits_length_le _ rest

theorem readFlag_length_le (letter : Char) (mask w : Word) (text : List Byte) :
    (readFlag letter mask w text).2.length ≤ text.length := by
  cases text with
  | nil => exact le_refl _
  | cons ch rest =>
    simp only [readFlag]
    split
    · exact Nat.le_succ _
    · exact le_refl _

theorem afterL_length_le {text after : List Byte} (h : afterL text = some after) : after.length ≤ text.length := by
  cases text with
  | nil => cases h
  | cons ch rest =>
    simp only [afterL] at h
    split at h
    · cases h
      exact Nat.le_succ _
    · cases h

theorem skipComment_length_le (text : List Byte) : (skipComment text).length ≤ text.length := by
  induction text with
  | nil => exact le_refl _
  | cons ch rest ih =>
    unfold skipComment
    split
    · exact Nat.le_succ _
    · exact Nat.le_succ_of_le ih

/-! ### Every token shortens the text -/

/-- When the run goes on, at most `n` characters are left to read. -/
def AsmRun.LeavesAtMost (n : Nat) : AsmRun Asm → Prop
  | .ok st => st.text.length ≤ n
  | .error _ => True

theorem AsmRun.LeavesAtMost.bind {n : Nat} {r : AsmRun Asm} {f : Asm → AsmRun Asm} (hr : r.LeavesAtMost n)
    (hf : ∀ st, st.text.length ≤ n → (f st).LeavesAtMost n) : (r >>= f).LeavesAtMost n := by
  cases r with
  | ok st => exact hf st hr
  | error stop => trivial

section leavesAtMost

variable {n : Nat} {st : Asm} {text : List Byte}

theorem Asm.emit_leavesAtMost (h : st.text.length ≤ n) (w : Word) : (st.emit w).LeavesAtMost n := by
  unfold Asm.emit
  split
  · exact h
  · trivial

theorem Asm.refLabel_leavesAtMost (h : st.text.length ≤ n) (k : Int) (a : Nat) : (st.refLabel k a).LeavesAtMost n := by
  unfold Asm.refLabel
  cases labelIndex k with
  | error e => trivial
  | ok i =>
    simp only [Asm.orStop_ok, ok_bind]
    split <;> exact h

theorem Asm.setLabel_leavesAtMost (h : st.text.length ≤ n) (k : Int) : (st.setLabel k).LeavesAtMost n := by
  unfold Asm.setLabel
  cases labelIndex k with
  | error e => trivial
  | ok i =>
    simp only [Asm.orStop_ok, ok_bind]
    cases patchChain k (w16 st.p) 32767 (st.label i).toNat st.mem with
    | error e => trivial
    | ok m =>
      simp only [Asm.orStop_ok, ok_bind]
      split <;> exact h

theorem Asm.packByte_leavesAtMost (h : st.text.length ≤ n) (c : Int) : (st.packByte c).LeavesAtMost n := by
  unfold Asm.packByte
  simp only
  split
  · exact h
  · exact (Asm.emit_leavesAtMost h _).bind fun _ h => h

theorem Asm.operand_leavesAtMost (h : text.length ≤ n) (w : Word) : (st.operand w text).LeavesAtMost n := by
  unfold Asm.operand
  split
  · rename_i labelText hl
    have hafter := (readNumeral_length_le labelText).trans ((afterL_length_le hl).trans h)
    simp only
    exact (Asm.emit_leavesAtMost (by exact hafter) _).bind fun _ h =>
      (Asm.emit_leavesAtMost h _).bind fun _ h => Asm.refLabel_leavesAtMost h _ _
  · have hafter := (readNumeral_length_le text).trans h
    simp only
    split
    · exact Asm.emit_leavesAtMost (by exact hafter) _
    · exact (Asm.emit_leavesAtMost (by exact hafter) _).bind fun _ h => Asm.emit_leavesAtMost h _

theorem Asm.instruction_leavesAtMost (h : text.length ≤ n) (opcode : Nat) : (st.instruction opcode text).LeavesAtMost n :=
  Asm.operand_leavesAtMost ((readFlag_length_le ..).trans ((readFlag_length_le ..).trans ((readFlag_length_le ..).trans h))) _

theorem Asm.dataDirective_leavesAtMost (h : text.length ≤ n) : (st.dataDirective text).LeavesAtMost n := by
  unfold Asm.dataDirective
  split
  · rename_i labelText hl
    have hafter := (readNumeral_length_le labelText).trans ((afterL_length_le hl).trans h)
    simp only
    exact (Asm.emit_leavesAtMost (by exact hafter) _).bind fun _ h => Asm.refLabel_leavesAtMost h _ _
  · simp only
    exact Asm.emit_leavesAtMost (by exact (readNumeral_length_le text).trans h) _

theorem Asm.globalSlot_leavesAtMost (h : text.length ≤ n) (k : Int) : (st.globalSlot k text).LeavesAtMost n := by
  unfold Asm.globalSlot
  simp only
  split
  · exact Asm.refLabel_leavesAtMost (by exact (readNumeral_length_le text).trans h) _ _
  · trivial

theorem Asm.globalDirective_leavesAtMost (h : text.length ≤ n) : (st.globalDirective text).LeavesAtMost n := by
  have hafter := (readNumeral_length_le text).trans h
  unfold Asm.globalDirective
  simp only
  split
  · rename_i rest hl
    exact Asm.globalSlot_leavesAtMost ((afterL_length_le hl).trans hafter) _
  · exact Asm.globalSlot_leavesAtMost hafter _

end leavesAtMost

theorem Asm.token_leavesAtMost (st : Asm) (ch : Byte) (rest : List Byte) : (st.token ch rest).LeavesAtMost rest.length := by
  unfold Asm.token
  split
  · exact skipComment_length_le rest
  split
  · exact le_refl _
  split
  · rename_i hnumeral
    simp only
    exact Asm.setLabel_leavesAtMost (by exact readNumeral_cons_length_le hnumeral rest) _
  split
  · exact Asm.packByte_leavesAtMost (by exact readNumeral_length_le rest) _
  split
  · exact Asm.dataDirective_leavesAtMost (le_refl _)
  split
  · exact Asm.globalDirective_leavesAtMost (le_refl _)
  split
  · exact le_refl _
  split
  · exact Asm.instruction_leavesAtMost (le_refl _) _
  · exact le_refl _

/-- With as much fuel as characters, the dispatch goes on to the end of the text (R118). -/
theorem Asm.tokens_text_eq_nil {fuel : Nat} {st st' : Asm} (hfuel : st.text.length ≤ fuel)
    (h : Asm.tokens fuel st = .ok st') : st'.text = [] := by
  induction fuel generalizing st with
  | zero =>
    cases h
    exact List.length_eq_zero_iff.1 (Nat.le_zero.1 hfuel)
  | succ fuel ih =>
    unfold Asm.tokens at h
    split at h
    · rename_i htext
      cases h
      exact htext
    · rename_i ch rest htext
      obtain ⟨st1, htoken, h⟩ := bind_eq_ok.1 h
      have hleft := st.token_leavesAtMost ch rest
      rw [htoken] at hleft
      rw [htext, List.length_cons] at hfuel
      exact ih (hleft.trans (Nat.le_of_succ_le_succ hfuel)) h

theorem Asm.fillGlobals_text {n i : Nat} {st st' : Asm} (h : st.fillGlobals i n = .ok st') : st'.text = st.text := by
  induction n generalizing i st with
  | zero =>
    cases h
    rfl
  | succ n ih =>
    unfold Asm.fillGlobals at h
    simp only at h
    split at h
    · exact (ih h :)
    · cases h

theorem Asm.emitAll_text {ws : List Word} {st st' : Asm} (h : st.emitAll ws = .ok st') : st'.text = st.text := by
  induction ws generalizing st with
  | nil =>
    cases h
    rfl
  | cons w ws ih =>
    obtain ⟨st1, hemit, h⟩ := bind_eq_ok.1 h
    obtain ⟨-, rfl⟩ := Asm.emit_eq_ok.1 hemit
    exact (ih h :)

theorem assemble_text_eq_nil {g : Word} {drawn : Memory} {text : List Byte} {st : Asm}
    (h : assemble g drawn text = .ok st) : st.text = [] := by
  obtain ⟨st0, hboot, h⟩ := bind_eq_ok.1 h
  obtain ⟨st1, hemit, hfill⟩ := bind_eq_ok.1 hboot
  have htext : st0.text = text := (Asm.fillGlobals_text hfill).trans (Asm.emitAll_text hemit)
  exact Asm.tokens_text_eq_nil (by rw [htext]) h

/-! ### Bad characters (R117) -/

/-- A byte that starts no token is reported and passed over. -/
theorem Asm.token_badChar {ch : Byte} (h : ch ∉ tokenStarts) (st : Asm) (rest : List Byte) :
    st.token ch rest = .ok ((st.goOn rest).report .badChar) := by
  have hne : ∀ letter, ascii letter ∈ tokenStarts → ch ≠ ascii letter := fun letter hin heq => h (heq ▸ hin)
  have hdigit : isDigit ch ≠ true := fun hd => by
    obtain ⟨hlow, hhigh⟩ := isDigit_eq.1 hd
    have hch : ch = BitVec.ofNat 8 ch.toNat := by rw [BitVec.ofNat_toNat, BitVec.setWidth_eq]
    interval_cases ch.toNat <;> exact h (hch ▸ by decide)
  unfold Asm.token
  rw [if_neg (hne '/' (by decide)),
    if_neg (not_or.2 ⟨hne '$' (by decide), not_or.2 ⟨hne ' ' (by decide), hne '\n' (by decide)⟩⟩),
    if_neg (not_or.2 ⟨hdigit, hne '-' (by decide)⟩), if_neg (hne 'C' (by decide)), if_neg (hne 'D' (by decide)),
    if_neg (hne 'G' (by decide)), if_neg (hne 'Z' (by decide))]
  have hopcode : opcodeOfLetter ch = none := by
    unfold opcodeOfLetter
    rw [if_neg (hne 'L' (by decide)), if_neg (hne 'S' (by decide)), if_neg (hne 'A' (by decide)),
      if_neg (hne 'J' (by decide)), if_neg (hne 'T' (by decide)), if_neg (hne 'F' (by decide)),
      if_neg (hne 'K' (by decide)), if_neg (hne 'X' (by decide))]
  rw [hopcode]

/-- Each bad character at the head of the text sends its diagnostic before anything else is sent. -/
theorem Asm.tokens_badChars_sentFirst {bad rest : List Byte} (hbad : ∀ ch ∈ bad, ch ∉ tokenStarts) {fuel : Nat} {st : Asm}
    (htext : st.text = bad ++ rest) (hfuel : bad.length ≤ fuel) :
    (Asm.tokens fuel st).SentFirst (st.diagnostics ++ List.replicate bad.length .badChar) := by
  induction bad generalizing fuel st with
  | nil => exact Asm.tokens_sentFirst (by simp)
  | cons ch bad ih =>
    obtain ⟨hch, hbad⟩ := List.forall_mem_cons.1 hbad
    obtain ⟨fuel, rfl⟩ : ∃ k, fuel = k + 1 := ⟨fuel - 1, by simp only [List.length_cons] at hfuel; omega⟩
    have hrest := ih hbad (st := (st.goOn (bad ++ rest)).report .badChar) rfl (Nat.le_of_succ_le_succ hfuel)
    simp only [Asm.tokens, htext, List.cons_append, Asm.token_badChar hch, ok_bind]
    simpa only [Asm.report, Asm.goOn, List.append_assoc, List.singleton_append, List.length_cons,
      List.replicate_succ] using hrest

/-- An assembly whose text begins with bad characters sends one diagnostic for each of them first. -/
theorem assemble_badChars_sentFirst {g : Word} {drawn : Memory} {bad rest : List Byte} (hd : drawn.wf = true)
    (hg : u16 g + 511 ≤ 32766) (hbad : ∀ ch ∈ bad, ch ∉ tokenStarts) :
    (assemble g drawn (bad ++ rest)).SentFirst (List.replicate bad.length .badChar) := by
  obtain ⟨st, hboot, -, htext, hdiag, -⟩ := Asm.bootstrap_in (bad ++ rest) hd hg
  rw [assemble, hboot, ok_bind]
  have hsent := Asm.tokens_badChars_sentFirst hbad htext (fuel := (bad ++ rest).length) (by simp)
  rwa [hdiag, List.nil_append] at hsent

theorem AsmRun.SentFirst.of_ok {ds : List Diagnostic} {r : AsmRun Asm} (h : r.SentFirst ds) {st : Asm} (hr : r = .ok st) :
    ds <+: st.diagnostics := by
  subst hr
  exact h

theorem AsmRun.SentFirst.of_error {ds : List Diagnostic} {r : AsmRun Asm} (h : r.SentFirst ds) {stop : AsmStop}
    (hr : r = .error stop) : ds <+: stop.sent := by
  subst hr
  exact h

/-- Settles O59: tokens shorten the text and only add diagnostics; a launch delivers what its assembly sent, whether the
assembly goes on or stops. -/
theorem assemblyReadsTheWholeText : Obligations.AssemblyReadsTheWholeText := by
  refine ⟨fun _ _ _ _ => assemble_text_eq_nil, fun fuel st => ?_, fun l => ?_, ?_⟩
  · have hsent := Asm.tokens_sentFirst (fuel := fuel) (List.prefix_refl st.diagnostics)
    exact ⟨fun _ => hsent.of_ok, fun _ => hsent.of_error⟩
  · exact ⟨fun st h => ⟨_, Launch.start_of_ok h, rfl⟩, fun _ => Launch.start_of_error⟩
  · rintro l bad rest _ hd hg htext hbad rfl
    have hsent := assemble_badChars_sentFirst (rest := rest) hd hg hbad
    rw [← htext] at hsent
    cases hasm : assemble l.gBase l.drawn l.text with
    | ok st =>
      have hfirst := hsent.of_ok hasm
      rw [Launch.start_of_ok hasm]
      refine ⟨?_, nofun, nofun⟩
      rintro _ ⟨⟩
      exact (List.prefix_append_right_inj _).2 hfirst
    | error stop =>
      have hfirst := hsent.of_error hasm
      rw [Launch.start_of_error hasm]
      refine ⟨nofun, nofun, ?_⟩
      rintro _ ⟨⟩
      exact ⟨_, _, rfl, hfirst⟩

end Sys2Proof.Machine
end
